-- ==== Sys2Proof/Word.lean ====
section
/-! DEFINITION. The widths of the values the block and the panel handle (00_scope.md rule R12 and
30_encoding.md rule R62). Everything the spec treats as bits is a bit vector of the spec's width;
geometry is computed in `Int`, exactly, and narrowed where a register takes it. -/

namespace Sys2Proof

/-- An 8-bit value: an opcode, a parameter byte, a colour channel, a character code or a scale (R12). -/
abbrev Byte := BitVec 8

/-- A 16-bit value: an RGB565 colour (R56), a bus coordinate, a glyph row, a GRAM cell. -/
abbrev Half := BitVec 16

/-- A 32-bit value: a descriptor word (R61), a result register, a pixel counter, milliseconds. -/
abbrev Word := BitVec 32

end Sys2Proof
end

