-- ==== Sys2Proof/Config.lean ====
section
/-! DEFINITION. The implementation parameters (00_scope.md rules R6 to R11). A model takes each one
as a configuration field; `Config.hardware` holds the default where the spec gives one and an
opaque constant, about which nothing can be proved, where the spec leaves the value OPEN. What the
spec demands of an open value (R60, R71) is built in. -/

namespace Sys2Proof

/-- One glyph: 16 rows of 16 bits, row 0 at the top (R38, R57). `GLYPH_DIM` = 16 is fixed by this type (R9). -/
abbrev Glyph := Vector Half 16

/-- `GLYPH_ROM` (R38): a partial map from character codes to glyphs. Its domain must contain the
space code 0x20, so the space glyph has a field of its own; an entry for 0x20 in `others` is never read. -/
structure GlyphRom where
  space  : Glyph
  others : List (Byte × Glyph)
  deriving DecidableEq, Repr, Inhabited

/-- One step of `INIT_SEQ` (R59). -/
inductive InitStep where
  /-- `C(op, params)`: one command frame. -/
  | command (op : Byte) (params : List Byte)
  /-- `W(ms)`: one `Delay(ms)` event. -/
  | wait (ms : Word)
  deriving DecidableEq, Repr, Inhabited

/-- Every parameter of R6 to R11. -/
structure Config where
  /-- `PANEL_W` (R6) -/
  panelW : Nat
  /-- `PANEL_H` (R6) -/
  panelH : Nat
  /-- `CHUNK_PIXELS` (R7) -/
  chunkPixels : Nat
  /-- `SETTLE_MS` (R8) -/
  settleMs : Nat
  /-- `BORDER_INSET` (R10) -/
  borderInset : Nat
  /-- the eight panel opcode bytes (R11, R60) -/
  opSwreset : Byte
  opSlpout  : Byte
  opDispon  : Byte
  opCaset   : Byte
  opRaset   : Byte
  opRamwr   : Byte
  opMadctl  : Byte
  opColmod  : Byte
  /-- `MADCTL_LANDSCAPE` (R11, OPEN) -/
  madctlLandscape : Byte
  /-- `COLMOD_16BPP` (R11) -/
  colmod16bpp : Byte
  /-- `VENDOR_OPAQUE` (R11, OPEN), a set of opcodes -/
  vendorOpaque : List Byte
  /-- `BL_ACTIVE_HIGH` (R11, OPEN) -/
  blActiveHigh : Bool
  /-- `GLYPH_ROM` (R11, R38, OPEN) -/
  glyphRom : GlyphRom
  /-- `INIT_SEQ` (R11, R71, OPEN with constraints) -/
  initSeq : List InitStep
  deriving DecidableEq, Repr

namespace Config

/-! The OPEN parameters of this hardware: opaque constants without a body (assumption log 2). -/

opaque madctlLandscapeOpen : Byte
opaque vendorOpaqueOpen : List Byte
opaque blActiveHighOpen : Bool
opaque glyphRomOpen : GlyphRom

/-- The vendor commands of `INIT_SEQ`, each an opcode and its bytes: the unlock pair, the gamma and
power-control tables, and the lock pair (R71). -/
opaque vendorUnlockOpen : List (Byte × List Byte)
opaque vendorTablesOpen : List (Byte × List Byte)
opaque vendorLockOpen : List (Byte × List Byte)

/-- The environment's draw on the bus (R121) for the host operation at a position of the host's list,
where the state's own list of draws (`State.busDraws`) has run out: `none` is a healthy bus, `some k` a
bus that fails once `k` events of the operation have been appended. A free value (assumption log 3). -/
opaque busDraw : Nat → Option Nat

/-- The tag recorded for an illegal descriptor that has no header word: a value the spec does not
state (R16, R119). A free value, applied to the host's position (assumption log 6). -/
opaque noHeaderTag : Nat → Byte

/-- The eight named opcode bytes, in the order of R60. -/
def namedOpcodes (c : Config) : List Byte :=
  [c.opSwreset, c.opSlpout, c.opDispon, c.opCaset, c.opRaset, c.opRamwr, c.opMadctl, c.opColmod]

/-- Vendor commands as steps of `INIT_SEQ`: those that R71 item 7 and R59 admit, an opcode of
`VENDOR_OPAQUE` with at most 65535 bytes. -/
def vendorSteps (c : Config) (cmds : List (Byte × List Byte)) : List InitStep :=
  (cmds.filter fun e => c.vendorOpaque.contains e.1 && decide (e.2.length ≤ 65535)).map
    fun e => .command e.1 e.2

/-- The reference `INIT_SEQ` (R71): SWRESET, a wait of exactly `SETTLE_MS`, SLPOUT, the same wait, the
vendor unlock pair, MADCTL, COLMOD, the gamma and power-control tables, the vendor lock pair, DISPON. -/
def referenceInitSeq (c : Config) (unlock tables lock : List (Byte × List Byte)) : List InitStep :=
  [.command c.opSwreset [], .wait (BitVec.ofNat 32 c.settleMs),
   .command c.opSlpout [], .wait (BitVec.ofNat 32 c.settleMs)]
  ++ (c.vendorSteps unlock
    ++ [.command c.opMadctl [c.madctlLandscape], .command c.opColmod [c.colmod16bpp]]
    ++ c.vendorSteps tables ++ c.vendorSteps lock)
  ++ [.command c.opDispon []]

/-- The parameters with a default, and the open values nothing is demanded of. -/
def parameters : Config where
  panelW := 480
  panelH := 320
  chunkPixels := 640
  settleMs := 200
  borderInset := 2
  opSwreset := 0x01
  opSlpout := 0x11
  opDispon := 0x29
  opCaset := 0x2A
  opRaset := 0x2B
  opRamwr := 0x2C
  opMadctl := 0x36
  opColmod := 0x3A
  madctlLandscape := madctlLandscapeOpen
  colmod16bpp := 0x55
  vendorOpaque := []
  blActiveHigh := blActiveHighOpen
  glyphRom := glyphRomOpen
  initSeq := []

/-- With `VENDOR_OPAQUE`: any set that holds none of the eight named opcodes (R60). R131 bars a sleep-in
opcode from it too, but the spec gives that opcode no byte, so the set is not cut further and the
model takes it on trust that it holds none: DESIGN CHOICE, unsafe (assumption log 33). -/
def vendorParameters : Config :=
  { parameters with
    vendorOpaque := vendorOpaqueOpen.filter fun b => !parameters.namedOpcodes.contains b }

/-- This hardware: "The default is the value this hardware takes" (00_scope.md section 4), and `INIT_SEQ`
in the spec's reference order and with its default waits (R71). -/
def hardware : Config :=
  { vendorParameters with
    initSeq := vendorParameters.referenceInitSeq vendorUnlockOpen vendorTablesOpen vendorLockOpen }

/-! What the spec demands of the parameters. Nothing in the machine tests these: `hardware` meets them,
and statements about any parameters take one as a premise where they need it. -/

/-- "The eight named opcode values must be distinct" (R60). -/
abbrev namedDistinct (c : Config) : Prop := c.namedOpcodes.Nodup

/-- "and none may be in `VENDOR_OPAQUE`" (R60). -/
abbrev vendorApart (c : Config) : Prop := ∀ b ∈ c.vendorOpaque, b ∉ c.namedOpcodes

/-- The panel's coordinates fit the 16 bits the bus gives them, with one to spare for the row counter
after the last row (R12, R28; assumption log 4). -/
abbrev panelFits (c : Config) : Prop := c.panelW ≤ 65535 ∧ c.panelH ≤ 65535

/-- The settling time fits `P_SETTLE` (R32: u32). -/
abbrev settleFits (c : Config) : Prop := c.settleMs < 2 ^ 32

/-- A step of `INIT_SEQ` after the two waits (R71, items 3 to 7), the last DISPON apart. -/
def tailStepLegal (c : Config) : InitStep → Bool
  | .wait _ => false
  | .command op params =>
    (op == c.opMadctl && params == [c.madctlLandscape])
      || (op == c.opColmod && params == [c.colmod16bpp])
      || c.vendorOpaque.contains op

/-- The seven constraints of R71 on `INIT_SEQ`: SWRESET, a wait, SLPOUT, a wait, then only landscape
MADCTL, 16-bit COLMOD and vendor commands, at least one each of the first two, then one DISPON.
R59 bounds each parameter list at 65535 bytes. -/
def initSeqLegal (c : Config) : Prop :=
  ∃ (w₁ w₂ : Word) (mid : List InitStep),
    c.initSeq = [.command c.opSwreset [], .wait w₁, .command c.opSlpout [], .wait w₂] ++ mid
      ++ [.command c.opDispon []]
    ∧ c.settleMs ≤ w₁.toNat ∧ c.settleMs ≤ w₂.toNat
    ∧ (∀ st ∈ mid, c.tailStepLegal st = true)
    ∧ InitStep.command c.opMadctl [c.madctlLandscape] ∈ mid
    ∧ InitStep.command c.opColmod [c.colmod16bpp] ∈ mid
    ∧ (∀ op params, InitStep.command op params ∈ mid → params.length ≤ 65535)

end Config

end Sys2Proof
end

