-- ==== Sys2Proof/Syntax.lean ====
section
/-! DEFINITION. The instructions: one constructor for each row of spec/opcode_table.json. The first
sixteen are the host operations the block takes (30_encoding.md rule R64), the seventeenth the
host descriptors the table reserves (R66), and the last ten the command bytes the panel sink takes
from the bus (R60). -/

namespace Sys2Proof

/-- Host operations carry their operands (R13). I32 operands are kept as the 32 bits of their word and
read as signed integers by the meanings; counts are the lengths of the lists. The parameter bytes
of a panel command are not operands: they are bus events of their own, taken one a step (R97). -/
inductive Instr where
  | sendCmd (op : Byte)
  | sendCmdParams (op : Byte) (params : List Byte)
  | init
  | backlight (on : Bool)
  | setWindow (x0 y0 x1 y1 : Word)
  | pushPixels (pixels : List Half)
  | fillRect (x y w h : Word) (color : Half)
  | fillScreen (color : Half)
  | hline (x y w : Word) (color : Half)
  | vline (x y h : Word) (color : Half)
  | roundRect (x y w h : Word) (color : Half) (t : Word)
  | color565 (r g b : Byte)
  | charSize (scale : Byte)
  | drawChar (ch : Byte) (x y : Word) (fg bg : Half) (scale : Byte)
  | drawText (x y : Word) (fg bg : Half) (scale : Byte) (text : List Byte)
  | textWidth (scale : Byte) (text : List Byte)
  /-- a header word with a reserved tag or a nonzero bit above the tag, and the words after it -/
  | reservedHostTag (header : Word) (operands : List Word)
  | swreset
  | slpout
  | dispon
  | caset
  | raset
  | ramwr
  | madctl
  | colmod
  /-- a command byte of `VENDOR_OPAQUE` -/
  | vendor (op : Byte)
  /-- any other command byte -/
  | unmodelled (op : Byte)
  deriving DecidableEq, Repr

/-- The instruction is taken by the block (a host operation), not by the panel sink. -/
def Instr.isHostOp : Instr → Bool
  | .sendCmd _ | .sendCmdParams _ _ | .init | .backlight _ | .setWindow _ _ _ _ | .pushPixels _
  | .fillRect _ _ _ _ _ | .fillScreen _ | .hline _ _ _ _ | .vline _ _ _ _ | .roundRect _ _ _ _ _ _
  | .color565 _ _ _ | .charSize _ | .drawChar _ _ _ _ _ _ | .drawText _ _ _ _ _ _ | .textWidth _ _
  | .reservedHostTag _ _ => true
  | .swreset | .slpout | .dispon | .caset | .raset | .ramwr | .madctl | .colmod
  | .vendor _ | .unmodelled _ => false

/-- The drawing operations of 10_state.md rule R25. -/
def Instr.isDrawing : Instr → Bool
  | .setWindow _ _ _ _ | .pushPixels _ | .fillRect _ _ _ _ _ | .fillScreen _ | .hline _ _ _ _
  | .vline _ _ _ _ | .roundRect _ _ _ _ _ _ | .drawChar _ _ _ _ _ _ | .drawText _ _ _ _ _ _ => true
  | .sendCmd _ | .sendCmdParams _ _ | .init | .backlight _ | .color565 _ _ _ | .charSize _
  | .textWidth _ _ | .reservedHostTag _ _ | .swreset | .slpout | .dispon | .caset | .raset | .ramwr
  | .madctl | .colmod | .vendor _ | .unmodelled _ => false

end Sys2Proof
end

