-- ==== Sys2Proof/WellFormed.lean ====
section
/-! DEFINITION. Which instructions the encodings admit. -/

namespace Sys2Proof

/-- The largest element count a CNT operand can give (R62: bits 15:0). -/
def maxCount : Nat := 65535

/-- The reserved tags, as R66 lists them: 0x00, 0x05..0x0F, 0x18..0x1F, 0x24..0xFF. -/
def reservedTag (tag : Byte) : Bool :=
  tag == 0x00 || (0x05 ≤ tag.toNat && tag.toNat ≤ 0x0F) || (0x18 ≤ tag.toNat && tag.toNat ≤ 0x1F)
    || 0x24 ≤ tag.toNat

/-- A header word that names no operation: a reserved tag, or a nonzero bit in bits 31:8 (R61, R66). -/
def reservedHeader (header : Word) : Bool :=
  header.extractLsb' 8 24 != 0 || reservedTag (header.extractLsb' 0 8)

/-- Lists are no longer than a CNT can say (R62); a reserved descriptor's header names no operation
(R66); a vendor command's byte is in `VENDOR_OPAQUE` and none of the eight (R60, R112); an
unmodelled byte is in neither set (R113). -/
def Instr.wf (c : Config) : Instr → Bool
  | .sendCmdParams _ params => params.length ≤ maxCount
  | .pushPixels pixels => pixels.length ≤ maxCount
  | .drawText _ _ _ _ _ text => text.length ≤ maxCount
  | .textWidth _ text => text.length ≤ maxCount
  | .reservedHostTag header _ => reservedHeader header
  | .vendor op => c.vendorOpaque.contains op && !c.namedOpcodes.contains op
  | .unmodelled op => !c.vendorOpaque.contains op && !c.namedOpcodes.contains op
  | .sendCmd _ | .init | .backlight _ | .setWindow _ _ _ _ | .fillRect _ _ _ _ _ | .fillScreen _
  | .hline _ _ _ _ | .vline _ _ _ _ | .roundRect _ _ _ _ _ _ | .color565 _ _ _ | .charSize _
  | .drawChar _ _ _ _ _ _ | .swreset | .slpout | .dispon | .caset | .raset | .ramwr | .madctl
  | .colmod => true

end Sys2Proof
end

