-- ==== Sys2Proof/Decode.lean ====
section
/-! DEFINITION. The two encoding surfaces (30_encoding.md): host descriptors, which are lists of 32-bit
words (R61 to R66), and panel command bytes (R60). The decoder is total and rejects by name; the
encoder after it is written from the same tables. -/

namespace Sys2Proof

/-- What an instruction's encoding is: a host descriptor, or a byte shifted out with DC = command. -/
inductive Code where
  | descriptor (words : List Word)
  | command (byte : Byte)
  deriving DecidableEq, Repr

/-- Why a descriptor is no operation. Every one of these is `ILLEGAL_OP` at the block (R66). -/
inductive DecodeError where
  /-- the descriptor holds no header word -/
  | noHeader
  /-- the delivered length is not L (R65) -/
  | wrongLength
  /-- a nonzero reserved bit in an operand word (R62) -/
  | reservedBits
  /-- nonzero padding after the last element (R63) -/
  | nonzeroPadding
  deriving DecidableEq, Repr

/-! ## Fields and packed elements -/

/-- A U8 operand: bits 7:0, the rest reserved (R62). -/
def fieldU8 (w : Word) : Except DecodeError Byte :=
  if w.extractLsb' 8 24 = 0 then .ok (w.extractLsb' 0 8) else .error .reservedBits

/-- A C16 operand: bits 15:0, the rest reserved (R62). -/
def fieldC16 (w : Word) : Except DecodeError Half :=
  if w.extractLsb' 16 16 = 0 then .ok (w.extractLsb' 0 16) else .error .reservedBits

/-- A B1 operand: bit 0, the rest reserved (R62). -/
def fieldB1 (w : Word) : Except DecodeError Bool :=
  if w.extractLsb' 1 31 = 0 then .ok (w.getLsbD 0) else .error .reservedBits

/-- A CNT operand: bits 15:0, the rest reserved (R62). -/
def fieldCnt (w : Word) : Except DecodeError Nat :=
  if w.extractLsb' 16 16 = 0 then .ok (w.extractLsb' 0 16).toNat else .error .reservedBits

/-- The four bytes of a word, high byte first (R61, R63). -/
def wordBytes (w : Word) : List Byte :=
  [w.extractLsb' 24 8, w.extractLsb' 16 8, w.extractLsb' 8 8, w.extractLsb' 0 8]

/-- The two pixels of a word, the even element in bits 31:16 (R63). -/
def wordHalves (w : Word) : List Half :=
  [w.extractLsb' 16 16, w.extractLsb' 0 16]

/-- Bytes into whole words, the first in the high byte, zeros after the last (R63). -/
def packBytes : List Byte → List Word
  | [] => []
  | [a] => [a ++ (0 : Byte) ++ (0 : Byte) ++ (0 : Byte)]
  | [a, b] => [a ++ b ++ (0 : Byte) ++ (0 : Byte)]
  | [a, b, c] => [a ++ b ++ c ++ (0 : Byte)]
  | a :: b :: c :: d :: rest => (a ++ b ++ c ++ d) :: packBytes rest

/-- Pixels into whole words, the even element high, zeros after the last (R63). -/
def packHalves : List Half → List Word
  | [] => []
  | [a] => [a ++ (0 : Half)]
  | a :: b :: rest => (a ++ b) :: packHalves rest

/-- The `n` byte elements that follow a CNT of `n`: ⌈n/4⌉ words, padding zero (R63). -/
def elementBytes (n : Nat) (ws : List Word) : Except DecodeError (List Byte) :=
  if ws.length = (n + 3) / 4 then
    let all := ws.flatMap wordBytes
    if (all.drop n).all (· == 0) then .ok (all.take n) else .error .nonzeroPadding
  else .error .wrongLength

/-- The `n` pixel elements that follow a CNT of `n`: ⌈n/2⌉ words, padding zero (R63). -/
def elementHalves (n : Nat) (ws : List Word) : Except DecodeError (List Half) :=
  if ws.length = (n + 1) / 2 then
    let all := ws.flatMap wordHalves
    if (all.drop n).all (· == 0) then .ok (all.take n) else .error .nonzeroPadding
  else .error .wrongLength

/-- A B1 operand's word. -/
def wordB1 (b : Bool) : Word := if b then 1 else 0

/-! ## The tags of R64 -/

/-- The operations of R64. -/
inductive HostTag where
  | sendCmd | sendCmdParams | init | backlight | setWindow | pushPixels | fillRect | fillScreen
  | hline | vline | roundRect | color565 | charSize | drawChar | drawText | textWidth
  deriving DecidableEq, Repr

/-- The tag byte of each operation (R64). -/
def HostTag.code : HostTag → Byte
  | .sendCmd => 0x01
  | .sendCmdParams => 0x02
  | .init => 0x03
  | .backlight => 0x04
  | .setWindow => 0x10
  | .pushPixels => 0x11
  | .fillRect => 0x12
  | .fillScreen => 0x13
  | .hline => 0x14
  | .vline => 0x15
  | .roundRect => 0x16
  | .color565 => 0x17
  | .charSize => 0x20
  | .drawChar => 0x21
  | .drawText => 0x22
  | .textWidth => 0x23

/-- Every operation of R64, in the table's order. -/
def HostTag.table : List HostTag :=
  [.sendCmd, .sendCmdParams, .init, .backlight, .setWindow, .pushPixels, .fillRect, .fillScreen,
   .hline, .vline, .roundRect, .color565, .charSize, .drawChar, .drawText, .textWidth]

/-- Looking a tag byte up in the table (R65). -/
def HostTag.ofCode (code : Byte) : Option HostTag :=
  HostTag.table.find? (fun t => t.code == code)

/-- The header word of an operation: the tag in bits 7:0, bits 31:8 zero (R61). -/
def HostTag.header (t : HostTag) : Word := t.code.setWidth 32

/-! ## Decoding -/

/-- The operand words of an operation, in R64's order; anything of another length is refused (R65). -/
def decodeOperands (t : HostTag) (ws : List Word) : Except DecodeError Instr :=
  match t with
  | .sendCmd =>
    match ws with
    | [op] => do .ok (.sendCmd (← fieldU8 op))
    | _ => .error .wrongLength
  | .sendCmdParams =>
    match ws with
    | op :: n :: els => do .ok (.sendCmdParams (← fieldU8 op) (← elementBytes (← fieldCnt n) els))
    | _ => .error .wrongLength
  | .init =>
    match ws with
    | [] => .ok .init
    | _ => .error .wrongLength
  | .backlight =>
    match ws with
    | [on] => do .ok (.backlight (← fieldB1 on))
    | _ => .error .wrongLength
  | .setWindow =>
    match ws with
    | [x0, y0, x1, y1] => .ok (.setWindow x0 y0 x1 y1)
    | _ => .error .wrongLength
  | .pushPixels =>
    match ws with
    | n :: els => do .ok (.pushPixels (← elementHalves (← fieldCnt n) els))
    | _ => .error .wrongLength
  | .fillRect =>
    match ws with
    | [x, y, w, h, color] => do .ok (.fillRect x y w h (← fieldC16 color))
    | _ => .error .wrongLength
  | .fillScreen =>
    match ws with
    | [color] => do .ok (.fillScreen (← fieldC16 color))
    | _ => .error .wrongLength
  | .hline =>
    match ws with
    | [x, y, w, color] => do .ok (.hline x y w (← fieldC16 color))
    | _ => .error .wrongLength
  | .vline =>
    match ws with
    | [x, y, h, color] => do .ok (.vline x y h (← fieldC16 color))
    | _ => .error .wrongLength
  | .roundRect =>
    match ws with
    | [x, y, w, h, color, t] => do .ok (.roundRect x y w h (← fieldC16 color) t)
    | _ => .error .wrongLength
  | .color565 =>
    match ws with
    | [r, g, b] => do .ok (.color565 (← fieldU8 r) (← fieldU8 g) (← fieldU8 b))
    | _ => .error .wrongLength
  | .charSize =>
    match ws with
    | [scale] => do .ok (.charSize (← fieldU8 scale))
    | _ => .error .wrongLength
  | .drawChar =>
    match ws with
    | [ch, x, y, fg, bg, scale] => do
      .ok (.drawChar (← fieldU8 ch) x y (← fieldC16 fg) (← fieldC16 bg) (← fieldU8 scale))
    | _ => .error .wrongLength
  | .drawText =>
    match ws with
    | x :: y :: fg :: bg :: scale :: n :: els => do
      .ok (.drawText x y (← fieldC16 fg) (← fieldC16 bg) (← fieldU8 scale)
        (← elementBytes (← fieldCnt n) els))
    | _ => .error .wrongLength
  | .textWidth =>
    match ws with
    | scale :: n :: els => do .ok (.textWidth (← fieldU8 scale) (← elementBytes (← fieldCnt n) els))
    | _ => .error .wrongLength

/-- A host descriptor (R61, R65, R66). A header that names no operation is the table's reserved row,
whatever follows it; every other word list is exactly one operation or a named rejection. -/
def decodeDescriptor : List Word → Except DecodeError Instr
  | [] => .error .noHeader
  | h :: ws =>
    if h.extractLsb' 8 24 = 0 then
      match HostTag.ofCode (h.extractLsb' 0 8) with
      | some t => decodeOperands t ws
      | none => .ok (.reservedHostTag h ws)
    else .ok (.reservedHostTag h ws)

/-- The words of a descriptor delivered as bytes, each word high byte first (R61); `none` when the
bytes end inside a word (R42: descriptors are whole words). -/
def wordsOfBytes : List Byte → Option (List Word)
  | [] => some []
  | a :: b :: c :: d :: rest => (wordsOfBytes rest).map ((a ++ b ++ c ++ d) :: ·)
  | _ => none

/-- A descriptor delivered as bytes. -/
def decodeBytes (bs : List Byte) : Except DecodeError Instr :=
  match wordsOfBytes bs with
  | some ws => decodeDescriptor ws
  | none => .error .wrongLength

/-- The header word of a descriptor delivered as bytes, if a whole word was delivered. -/
def headerOfBytes : List Byte → Option Word
  | a :: b :: c :: d :: _ => some (a ++ b ++ c ++ d)
  | _ => none

/-- A command byte, dispatched by its value (R101, R60): the eight named opcodes, then the vendor set
(R112), then everything else (R113). -/
def decodeCommand (c : Config) (b : Byte) : Instr :=
  if b = c.opSwreset then .swreset
  else if b = c.opSlpout then .slpout
  else if b = c.opDispon then .dispon
  else if b = c.opCaset then .caset
  else if b = c.opRaset then .raset
  else if b = c.opRamwr then .ramwr
  else if b = c.opMadctl then .madctl
  else if b = c.opColmod then .colmod
  else if c.vendorOpaque.contains b then .vendor b
  else .unmodelled b

/-- Both encoding surfaces. -/
def decode (c : Config) : Code → Except DecodeError Instr
  | .descriptor ws => decodeDescriptor ws
  | .command b => .ok (decodeCommand c b)

/-! ## Encoding -/

/-- A count's word (R62). -/
def wordCnt (n : Nat) : Word := BitVec.ofNat 32 n

/-- The words or the byte of an instruction (R60 to R64). -/
def encode (c : Config) : Instr → Code
  | .sendCmd op => .descriptor [HostTag.sendCmd.header, op.setWidth 32]
  | .sendCmdParams op params =>
    .descriptor ([HostTag.sendCmdParams.header, op.setWidth 32, wordCnt params.length] ++ packBytes params)
  | .init => .descriptor [HostTag.init.header]
  | .backlight on => .descriptor [HostTag.backlight.header, wordB1 on]
  | .setWindow x0 y0 x1 y1 => .descriptor [HostTag.setWindow.header, x0, y0, x1, y1]
  | .pushPixels pixels =>
    .descriptor ([HostTag.pushPixels.header, wordCnt pixels.length] ++ packHalves pixels)
  | .fillRect x y w h color => .descriptor [HostTag.fillRect.header, x, y, w, h, color.setWidth 32]
  | .fillScreen color => .descriptor [HostTag.fillScreen.header, color.setWidth 32]
  | .hline x y w color => .descriptor [HostTag.hline.header, x, y, w, color.setWidth 32]
  | .vline x y h color => .descriptor [HostTag.vline.header, x, y, h, color.setWidth 32]
  | .roundRect x y w h color t =>
    .descriptor [HostTag.roundRect.header, x, y, w, h, color.setWidth 32, t]
  | .color565 r g b =>
    .descriptor [HostTag.color565.header, r.setWidth 32, g.setWidth 32, b.setWidth 32]
  | .charSize scale => .descriptor [HostTag.charSize.header, scale.setWidth 32]
  | .drawChar ch x y fg bg scale =>
    .descriptor [HostTag.drawChar.header, ch.setWidth 32, x, y, fg.setWidth 32, bg.setWidth 32,
      scale.setWidth 32]
  | .drawText x y fg bg scale text =>
    .descriptor ([HostTag.drawText.header, x, y, fg.setWidth 32, bg.setWidth 32, scale.setWidth 32,
      wordCnt text.length] ++ packBytes text)
  | .textWidth scale text =>
    .descriptor ([HostTag.textWidth.header, scale.setWidth 32, wordCnt text.length] ++ packBytes text)
  | .reservedHostTag header operands => .descriptor (header :: operands)
  | .swreset => .command c.opSwreset
  | .slpout => .command c.opSlpout
  | .dispon => .command c.opDispon
  | .caset => .command c.opCaset
  | .raset => .command c.opRaset
  | .ramwr => .command c.opRamwr
  | .madctl => .command c.opMadctl
  | .colmod => .command c.opColmod
  | .vendor op => .command op
  | .unmodelled op => .command op

/-! ## Words as the opcode table numbers them -/

/-- The words of the number `w`, the first word in its low 32 bits: `k` of them. -/
def tableWords : Nat → Nat → List Word
  | 0, _ => []
  | k + 1, w => BitVec.ofNat 32 w :: tableWords k (w / 2 ^ 32)

/-- The number of operand words an operation has, given those delivered so far (R64): where a CNT
word decides it and none was delivered, the count is 0. -/
def HostTag.operandCount (t : HostTag) (ws : List Word) : Nat :=
  let cnt (k : Nat) : Nat := ((ws.getD k 0).extractLsb' 0 16).toNat
  match t with
  | .sendCmd => 1
  | .sendCmdParams => 2 + (cnt 1 + 3) / 4
  | .init => 0
  | .backlight => 1
  | .setWindow => 4
  | .pushPixels => 1 + (cnt 0 + 1) / 2
  | .fillRect => 5
  | .fillScreen => 1
  | .hline => 4
  | .vline => 4
  | .roundRect => 6
  | .color565 => 3
  | .charSize => 1
  | .drawChar => 6
  | .drawText => 6 + (cnt 5 + 3) / 4
  | .textWidth => 2 + (cnt 1 + 3) / 4

/-- Operand words of zeros up to the operation's length. -/
def padOperands (ws : List Word) : List Word :=
  match ws with
  | [] => []
  | h :: rest =>
    if h.extractLsb' 8 24 = 0 then
      match HostTag.ofCode (h.extractLsb' 0 8) with
      | some t => h :: rest ++ List.replicate (t.operandCount rest - rest.length) 0
      | none => ws
    else ws

/-- The encoding an opcode-table row's bits stand for: a row of at most 8 bits is a panel command
byte, any other a host descriptor whose missing operand words are zero. -/
def tableCode (nbits w : Nat) : Code :=
  if nbits ≤ 8 then .command (BitVec.ofNat 8 w)
  else .descriptor (padOperands (tableWords ((nbits + 31) / 32) w))

/-- The instruction the decoder reads from an opcode-table word, on this hardware's parameters. -/
def decodeTableWord (nbits w : Nat) : Option Instr :=
  match decode Config.hardware (tableCode nbits w) with
  | .ok i => some i
  | .error _ => none

end Sys2Proof
end

