-- ==== Sys2Proof/Machine/State.lean ====
section
/-! DEFINITION. The state of the machine, as plain data: the parameters, the host's side, the block
(10_state.md section 1), the bus trace, and the panel sink (10_state.md section 2). -/

namespace Sys2Proof.Machine

/-! ## The block -/

/-- `PHASE` (R15). The value 3 is never held. -/
inductive Phase where
  | uninit | ready | faulted
  deriving DecidableEq, Repr

/-- What `FAULT` holds (R16, R116). Codes 8..255 are never held. -/
inductive BlockFault where
  | none | illegalOp | notInitialized | windowUnderrun | windowOverrun | badWindow | badScale | busFault
  deriving DecidableEq, Repr

/-- The level of the data/command line while a byte is shifted out (R20, R53). -/
inductive DcLevel where
  | command | data
  deriving DecidableEq, Repr

/-- The block's registers (R15 to R19, R22). An `Option` field is one the spec lets hold ⊥ (R36). -/
structure Block where
  /-- `PHASE` -/
  phase : Phase
  /-- `FAULT` -/
  fault : BlockFault
  /-- `FAULT_TAG` -/
  faultTag : Byte
  /-- `WIN_VALID` -/
  winValid : Bool
  /-- `WIN_X0`, `WIN_Y0`, `WIN_X1`, `WIN_Y1` -/
  winX0 : Option Half
  winY0 : Option Half
  winX1 : Option Half
  winY1 : Option Half
  /-- `PEND` -/
  pend : Word
  /-- `BL` -/
  bl : Bool
  /-- `RES0` -/
  res0 : Option Word
  /-- `RES1` -/
  res1 : Option Word
  deriving DecidableEq, Repr

/-- The block's chip-select and data/command lines (R20, R36): `cs` is the asserted state, whatever the
line's polarity; `dc` is ⊥ until a byte is sent. -/
structure Lines where
  cs : Bool
  dc : Option DcLevel
  deriving DecidableEq, Repr

/-- A bus event (R23). -/
inductive BusEvent where
  | csAssert
  | csRelease
  | cmd (b : Byte)
  | dat (b : Byte)
  | delay (ms : Word)
  deriving DecidableEq, Repr

/-! ## The panel sink -/

/-- The commands whose data bytes the sink collects in `P_MODE` = `PARAMS(op, bytes)` (R26, R106 to R112). -/
inductive OpenCommand where
  | caset | raset | madctl | colmod
  | vendor (op : Byte)
  deriving DecidableEq, Repr

/-- `P_MODE` (R26). -/
inductive PanelMode where
  | idle
  | params (op : OpenCommand) (bytes : List Byte)
  | memWrite
  | discard
  deriving DecidableEq, Repr

/-- What `P_FAULT` holds (R34, R124). -/
inductive PanelFault where
  | none | noCs | settleViolation | badParams | oddByte | underrun | overrun | badRange
  deriving DecidableEq, Repr

/-- GRAM (R35): the written cells, each with the number `gramKey x y` of its column and row. A cell
that is not listed holds ⊥. Strictly rising in the number (`Memory.wf`). -/
abbrev Gram := List (Nat × Half)

/-- The panel sink's state (R26 to R35). An `Option` field is one the spec lets hold ⊥. -/
structure Panel where
  /-- `P_MODE` -/
  mode : PanelMode
  /-- `P_SC`, `P_EC`, `P_SP`, `P_EP` -/
  sc : Option Half
  ec : Option Half
  sp : Option Half
  ep : Option Half
  /-- `P_CX`, `P_CY` -/
  cx : Option Half
  cy : Option Half
  /-- `P_REMAIN` -/
  remain : Word
  /-- `P_HALF` -/
  half : Option Byte
  /-- `P_SLEEP` -/
  sleep : Option Bool
  /-- `P_DISPON` -/
  dispOn : Option Bool
  /-- `P_MADCTL` -/
  madctl : Option Byte
  /-- `P_COLMOD` -/
  colmod : Option Byte
  /-- `P_SETTLE` -/
  settle : Option Word
  /-- `P_CS` -/
  cs : Bool
  /-- `P_FAULT` -/
  fault : PanelFault
  /-- `P_REFUSED` -/
  refused : Bool
  /-- `GRAM` -/
  gram : Gram
  deriving DecidableEq, Repr

/-! ## The host -/

/-- What the world outside does, one input a turn: host operations (R61), the host's reads of what it
may read (R15, R16, R22), the block's reset (R132) and the panel's power-on (R133). -/
inductive HostInput where
  /-- a host operation, as descriptor words -/
  | operation (words : List Word)
  /-- a host operation whose descriptor is delivered as bytes (R61) -/
  | operationBytes (bytes : List Byte)
  /-- a host operation that the block's reset stops once `k` of its events are on the bus (R123) -/
  | operationCut (words : List Word) (k : Nat)
  | readRes0
  | readRes1
  /-- a read of `PHASE`, `FAULT` and `FAULT_TAG` -/
  | readStatus
  /-- the block's reset input, or its power-on -/
  | resetBlock
  /-- the panel's power-on -/
  | powerOnPanel
  deriving DecidableEq, Repr

/-- What a host read gave: a result register, or the codes of `PHASE`, `FAULT` and `FAULT_TAG`. -/
inductive HostRead where
  | result (v : Word)
  | status (phase : BitVec 2) (fault tag : Byte)
  deriving DecidableEq, Repr

/-- The one fault that "lives in the host, not in the block" (R116). -/
inductive HostFault where
  | none | resultUnwritten
  deriving DecidableEq, Repr

/-- The host: its inputs in program order, its position among them (R14), what its last read gave (none
before a read, and after one that gave no value), and its fault (R22, R116). -/
structure HostSide where
  inputs   : List HostInput
  pos      : Nat
  lastRead : Option HostRead
  fault    : HostFault
  deriving DecidableEq, Repr

/-! ## The machine -/

/-- The whole state. `cfg` holds the parameters, the immutable glyph ROM and `INIT_SEQ` among them
(R36, R51); no step changes it. `trace` is `TRACE` (R23) and `taken` how many of its events the panel
sink has consumed (R48). `busDraws` lists the environment's draws on the bus (R121) for the coming
operations that emit events; where it has run out, the draw is `Config.busDraw`. -/
structure State where
  cfg      : Config
  host     : HostSide
  block    : Block
  lines    : Lines
  trace    : List BusEvent
  taken    : Nat
  panel    : Panel
  busDraws : List (Option Nat)
  deriving DecidableEq, Repr

/-- Why the machine stops. -/
inductive Fault where
  /-- Raised by `step` when only the panel sink could move and `P_FAULT` is set, and by a panel
  command run on such a sink: "stuck, and that state is never final" (R97, R124). Safe: the
  spec's own stop. -/
  | panelStuck
  /-- Raised by a pixel byte in `MEMWRITE` while the address counter or the window holds ⊥, which no
  RAMWR leaves behind (R108). Safe: no state with the panel invariant raises it. -/
  | addressCounterUnset
  /-- Raised by a pixel word whose column or row lies outside the pixel grid (R46: no such address
  exists). Safe: no state with the panel invariant raises it. -/
  | outsideGram
  deriving DecidableEq, Repr

/-- Why an instruction has no meaning. -/
inductive Refusal where
  /-- Raised by an arm of `exec` for an instruction without a meaning; no arm raises it. Safe. -/
  | notModelled (mnemonic : String)
  deriving DecidableEq, Repr

/-- The outcome of a meaning. -/
abbrev Result := Host.Outcome State Fault Refusal

/-! ## Reset values (R36) -/

/-- The block's registers after its reset (R132). -/
def Block.reset : Block where
  phase := .uninit
  fault := .none
  faultTag := 0
  winValid := false
  winX0 := none
  winY0 := none
  winX1 := none
  winY1 := none
  pend := 0
  bl := false
  res0 := none
  res1 := none

/-- The block's lines after its reset: CS inactive, DC not observable. -/
def Lines.reset : Lines where
  cs := false
  dc := none

/-- The panel sink at the panel's power-on (R36, R133). -/
def Panel.powerOn : Panel where
  mode := .idle
  sc := none
  ec := none
  sp := none
  ep := none
  cx := none
  cy := none
  remain := 0
  half := none
  sleep := none
  dispOn := none
  madctl := none
  colmod := none
  settle := none
  cs := false
  fault := .none
  refused := false
  gram := []

/-- The host before its first input. -/
def HostSide.reset : HostSide where
  inputs := []
  pos := 0
  lastRead := none
  fault := .none

/-- The machine right after the block's reset and the panel's power-on. The host has issued nothing
yet; its operations come from outside (assumption log 5). No bus draw is listed, so every draw is
the free value `Config.busDraw` (assumption log 3). -/
def State.reset : State where
  cfg := Config.hardware
  host := HostSide.reset
  block := Block.reset
  lines := Lines.reset
  trace := []
  taken := 0
  panel := Panel.powerOn
  busDraws := []

end Sys2Proof.Machine
end

