-- ==== Sys2Proof/Machine/Operands.lean ====
section
/-! DEFINITION. The operand and value formats: parameter bytes, pixel bytes and words, glyph reading,
the clip and the fit test. All geometry is exact integer arithmetic (00_scope.md rule R12). -/

namespace Sys2Proof.Machine

/-! ## Values on the bus (R40, R54, R55) -/

/-- The two bytes of a 16-bit value, high byte first (R40). -/
def highLow (v : Half) : List Byte :=
  [v.extractLsb' 8 8, v.extractLsb' 0 8]

/-- `CoordParams(a, b)` (R54): start then end, each high byte first. -/
def coordParams (a b : Half) : List Byte :=
  highLow a ++ highLow b

/-- `Px(c)` (R55): a pixel word's two bytes, high byte first. -/
def px (c : Half) : List Byte :=
  highLow c

/-- The value of two consecutive bytes, high byte first (R41). -/
def joinBytes (hi lo : Byte) : Half :=
  hi ++ lo

/-- An exact coordinate as the 16-bit value a register or the bus takes. -/
def coord (v : Int) : Half :=
  BitVec.ofInt 16 v

/-! ## Colour (R56, R88) -/

/-- `((r & 0xF8) << 8) | ((g & 0xFC) << 3) | (b >> 3)`, 16 bits (R88). -/
def packColor (r g b : Byte) : Half :=
  (((r &&& 0xF8).setWidth 16) <<< 8) ||| (((g &&& 0xFC).setWidth 16) <<< 3) ||| ((b >>> 3).setWidth 16)

/-! ## The clip (R78) -/

/-- The half-open rectangle `Clip` returns. -/
structure ClipRect where
  cx0 : Int
  cy0 : Int
  cx1 : Int
  cy1 : Int
  deriving DecidableEq, Repr

/-- The intersection of [x, x+w) × [y, y+h) with the panel (R78). -/
def clip (c : Config) (x y w h : Int) : ClipRect where
  cx0 := max x 0
  cy0 := max y 0
  cx1 := min (x + w) c.panelW
  cy1 := min (y + h) c.panelH

/-- `empty = (cx1 <= cx0) || (cy1 <= cy0)` (R78). -/
def ClipRect.empty (r : ClipRect) : Bool :=
  r.cx1 ≤ r.cx0 || r.cy1 ≤ r.cy0

/-- The bursts of a fill of `n` words (R76): full bursts first, then the remainder. -/
def bursts (chunk n : Nat) : List Nat :=
  List.replicate (n / chunk) chunk ++ (if n % chunk = 0 then [] else [n % chunk])

/-- The pixel words of a fill, burst by burst, all of one colour (R76, R79). -/
def fillPixels (c : Config) (n : Nat) (color : Half) : List Half :=
  (bursts c.chunkPixels n).flatMap (fun k => List.replicate k color)

/-! ## Windows (R80) -/

/-- SET_WINDOW's bounds test (R80). -/
def windowInPanel (c : Config) (x0 y0 x1 y1 : Int) : Bool :=
  0 ≤ x0 && x0 ≤ x1 && x1 ≤ (c.panelW : Int) - 1 && 0 ≤ y0 && y0 ≤ y1 && y1 ≤ (c.panelH : Int) - 1

/-- The number of pixel words a window takes, "`(x1-x0+1)*(y1-y0+1)`" (R18). -/
def windowArea (x0 y0 x1 y1 : Int) : Int :=
  (x1 - x0 + 1) * (y1 - y0 + 1)

/-! ## Glyphs (R38, R57, R89, R90) -/

/-- The glyph of a code, the space glyph where the ROM has none (R38). -/
def glyphOf (rom : GlyphRom) (code : Byte) : Glyph :=
  if code = 0x20 then rom.space else (rom.others.lookup code).getD rom.space

/-- `GlyphRead(code, r)` (R38). -/
def glyphRead (rom : GlyphRom) (code : Byte) (r : Fin 16) : Half :=
  (glyphOf rom code).get r

/-- Column `col` of a glyph row, 0 the leftmost: bit 15 - col (R57), as a colour (R90). -/
def glyphColor (bits : Half) (col : Nat) (fg bg : Half) : Half :=
  if bits.getLsbD (15 - col) then fg else bg

/-- One output row of a glyph: each of the 16 columns `s` times (R90). -/
def glyphRow (bits : Half) (fg bg : Half) (s : Nat) : List Half :=
  (List.range 16).flatMap (fun col => List.replicate s (glyphColor bits col fg bg))

/-- `GlyphPixels(ch, fg, bg, s)` (R90): each source row's output row, `s` times. -/
def glyphPixels (rom : GlyphRom) (ch : Byte) (fg bg : Half) (s : Nat) : List Half :=
  (glyphOf rom ch).toList.flatMap (fun bits => (List.replicate s (glyphRow bits fg bg s)).flatten)

/-- The side of a glyph box at scale `s` (R89). -/
def glyphSide (s : Nat) : Int :=
  16 * (s : Int)

/-- The box fits the panel (R89). -/
def glyphFits (c : Config) (x y : Int) (s : Nat) : Bool :=
  0 ≤ x && 0 ≤ y && x + glyphSide s ≤ c.panelW && y + glyphSide s ≤ c.panelH

end Sys2Proof.Machine
end

