-- ==== Sys2Proof/Machine/Flags.lean ====
section
/-! DEFINITION. Status. The block has no condition flags (40_transport.md); what stands in their place are
its status codes, the tests an operation makes on them, and the output lines. -/

namespace Sys2Proof.Machine

/-! ## Codes, as the host reads them -/

/-- `PHASE`'s two bits (R15). -/
def phaseCode : Phase → BitVec 2
  | .uninit => 0
  | .ready => 1
  | .faulted => 2

/-- `FAULT`'s eight bits (R116). -/
def blockFaultCode : BlockFault → Byte
  | .none => 0
  | .illegalOp => 1
  | .notInitialized => 2
  | .windowUnderrun => 3
  | .windowOverrun => 4
  | .badWindow => 5
  | .badScale => 6
  | .busFault => 7

/-- `P_FAULT`'s code (R124). -/
def panelFaultCode : PanelFault → Nat
  | .none => 0
  | .noCs => 1
  | .settleViolation => 2
  | .badParams => 3
  | .oddByte => 4
  | .underrun => 5
  | .overrun => 6
  | .badRange => 7

/-! ## Lines -/

/-- The backlight output line: `BL` where `BL_ACTIVE_HIGH`, `!BL` otherwise (R19, R73). -/
def backlightLine (s : State) : Bool :=
  s.block.bl ^^ !s.cfg.blActiveHigh

/-- The chip-select line's level: active low (R20). -/
def csLevel (l : Lines) : Bool :=
  !l.cs

/-- The data/command line's level: low for a command byte, high for data (R20, R53). -/
def dcLevel : DcLevel → Bool
  | .command => false
  | .data => true

/-- What one bus event does to the lines (R20, R23): CS follows its two events and is inactive
during a delay; DC is the kind of the byte shifted out. -/
def driveLine (l : Lines) : BusEvent → Lines
  | .csAssert => { l with cs := true }
  | .csRelease => { l with cs := false }
  | .cmd _ => { l with dc := some .command }
  | .dat _ => { l with dc := some .data }
  | .delay _ => { l with cs := false }

/-- The lines after a list of events. -/
def driveLines (l : Lines) (es : List BusEvent) : Lines :=
  es.foldl driveLine l

/-! ## Tests on the status -/

/-- A stream is open (R77). -/
def streamOpen (b : Block) : Bool :=
  b.pend != 0

/-- The bus draw of the operation at hand (R121): the next one listed, else the free value of the
host's position. `none` is a healthy bus. -/
def busDrawOf (s : State) : Option Nat :=
  match s.busDraws with
  | d :: _ => d
  | [] => Config.busDraw s.host.pos

/-- `BusHealthy` (R121), for the operation at hand. -/
abbrev BusHealthy (s : State) : Prop :=
  busDrawOf s = none

end Sys2Proof.Machine
end

