-- ==== Sys2Proof/Machine/Ops.lean ====
section
/-! DEFINITION. The shared operations: GRAM, bus frames, the block's internal sequences, the prologue,
raising a fault, committing an operation's events, and the panel sink's checks. -/

namespace Sys2Proof.Machine

/-! ## GRAM (R35, R39) -/

/-- The number of the cell at column `x`, row `y`: no two cells share one, and it rises in raster order. -/
def gramKey (x y : Half) : Nat :=
  y.toNat * 65536 + x.toNat

/-- The cell with a number: a cell not listed holds ⊥ (R36, R39). -/
def gramRead : Gram → Nat → Option Half
  | [], _ => none
  | (a, v) :: rest, k => if a = k then some v else gramRead rest k

/-- `GRAM[x][y] <- v`, one whole cell (R44), keeping the cells in rising order. -/
def gramWrite : Gram → Nat → Half → Gram
  | [], k, v => [(k, v)]
  | (a, u) :: rest, k, v =>
    if k < a then (k, v) :: (a, u) :: rest
    else if k = a then (k, v) :: rest
    else (a, u) :: gramWrite rest k v

/-- The canonical form: cell numbers strictly rising. No listed cell equals what an unlisted one reads
as, since that is ⊥. -/
abbrev Memory.wf (g : Gram) : Prop :=
  g.Pairwise (fun a b => a.1 < b.1)

/-- Every listed cell lies in the pixel grid (R35, R46). -/
abbrev Memory.inGrid (c : Config) (g : Gram) : Prop :=
  ∀ cell ∈ g, cell.1 % 65536 < c.panelW ∧ cell.1 / 65536 < c.panelH

/-! ## Bus frames (R52; 00_scope.md section 5) -/

/-- `CmdFrame(op, params)`. -/
def cmdFrame (op : Byte) (params : List Byte) : List BusEvent :=
  [.csAssert, .cmd op] ++ params.map .dat ++ [.csRelease]

/-- `DataFrame(bytes)`; "A `DataFrame([])` emits nothing". -/
def dataFrame : List Byte → List BusEvent
  | [] => []
  | b :: bs => [.csAssert] ++ (b :: bs).map .dat ++ [.csRelease]

/-! ## An operation at work: its block registers and the events it has emitted so far -/

/-- The block's registers as an operation has left them, and its events in emission order. -/
structure Work where
  block : Block
  out   : List BusEvent
  deriving DecidableEq, Repr

/-- An operation about to start. -/
def Work.start (b : Block) : Work where
  block := b
  out := []

/-- `Emit`, for a list of events. -/
def Work.emit (es : List BusEvent) (w : Work) : Work :=
  { w with out := w.out ++ es }

/-- `WindowSetup(x0, y0, x1, y1)` (R74). -/
def windowSetup (c : Config) (x0 y0 x1 y1 : Int) (w : Work) : Work where
  block := { w.block with
    winX0 := some (coord x0), winY0 := some (coord y0)
    winX1 := some (coord x1), winY1 := some (coord y1)
    winValid := true
    pend := BitVec.ofInt 32 (windowArea x0 y0 x1 y1) }
  out := w.out
    ++ cmdFrame c.opCaset (coordParams (coord x0) (coord x1))
    ++ cmdFrame c.opRaset (coordParams (coord y0) (coord y1))
    ++ cmdFrame c.opRamwr []

/-- `Stream(pixels)` (R75): one data frame; an empty list sends nothing. -/
def stream (pixels : List Half) (w : Work) : Work where
  block := { w.block with pend := w.block.pend - BitVec.ofNat 32 pixels.length }
  out := w.out ++ dataFrame (pixels.flatMap px)

/-- `FillBody(x, y, w, h, color)` (R79). -/
def fillBody (c : Config) (x y w h : Int) (color : Half) (wk : Work) : Work :=
  let r := clip c x y w h
  if r.empty then wk
  else
    stream (fillPixels c ((r.cx1 - r.cx0) * (r.cy1 - r.cy0)).toNat color)
      (windowSetup c r.cx0 r.cy0 (r.cx1 - 1) (r.cy1 - 1) wk)

/-- `DrawCharBody(ch, x, y, fg, bg, s)` (R91). -/
def drawCharBody (c : Config) (ch : Byte) (x y : Int) (fg bg : Half) (s : Nat) (wk : Work) : Work :=
  if glyphFits c x y s then
    stream (glyphPixels c.glyphRom ch fg bg s)
      (windowSetup c x y (x + glyphSide s - 1) (y + glyphSide s - 1) wk)
  else wk

/-- DRAW_TEXT's loop (R95): the characters from `x` on, each `16 * scale` further right. -/
def drawTextBody (c : Config) (fg bg : Half) (s : Nat) (y : Int) : List Byte → Int → Work → Work
  | [], _, wk => wk
  | ch :: rest, x, wk =>
    drawTextBody c fg bg s y rest (x + glyphSide s) (drawCharBody c ch x y fg bg s wk)

/-- `RawCommandEffect(op)` (R70). -/
def rawCommandEffect (c : Config) (op : Byte) (w : Work) : Work :=
  if op = c.opSwreset ∨ op = c.opCaset ∨ op = c.opRaset then
    { w with block := { w.block with winValid := false } }
  else w

/-- The events of one step of `INIT_SEQ` (R59, R72). -/
def initStepEvents : InitStep → List BusEvent
  | .command op params => cmdFrame op params
  | .wait ms => [.delay ms]

/-! ## Faults (R119) -/

/-- `raise Fault(code)` by the operation with this tag (R119): the first fault is recorded, the block
stops until its reset (R120). There is no vector and no return. -/
def raiseFault (code : BlockFault) (tag : Byte) (s : State) : State :=
  { s with block := { s.block with
      fault := if s.block.fault = .none then code else s.block.fault
      faultTag := if s.block.fault = .none then tag else s.block.faultTag
      phase := .faulted } }

/-- `ILLEGAL_OP` for a descriptor that does not decode (R66, R117): no effect in `FAULTED`. -/
def raiseIllegal (tag : Byte) (s : State) : State :=
  if s.block.phase = .faulted then s else raiseFault .illegalOp tag s

/-! ## Reset (R132, R133) -/

/-- The block's reset: every block field of R36, its lines and its trace; no bus event, and the panel
keeps its state. It is the only way out of `FAULTED` (R120). -/
def resetBlock (s : State) : State :=
  { s with block := Block.reset, lines := Lines.reset, trace := [], taken := 0 }

/-- The panel's power-on: every panel-sink field of R36. Events already on the bus are gone. -/
def powerOnPanel (s : State) : State :=
  { s with panel := Panel.powerOn, taken := s.trace.length }

/-! ## Running a host operation -/

/-- The prologue for an operation that is not a drawing operation (R117): no effect in `FAULTED`. -/
def prologue (body : State → State) (s : State) : State :=
  if s.block.phase = .faulted then s else body s

/-- The prologue and the gate of a drawing operation (R25, R117). -/
def drawingPrologue (tag : Byte) (body : State → State) (s : State) : State :=
  match s.block.phase with
  | .faulted => s
  | .uninit => raiseFault .notInitialized tag s
  | .ready => body s

/-- `if PEND != 0: raise Fault(WINDOW_UNDERRUN)` (R77). -/
def underrunCheck (tag : Byte) (body : State → State) (s : State) : State :=
  if streamOpen s.block then raiseFault .windowUnderrun tag s else body s

/-- `if scale = 0: raise Fault(BAD_SCALE)` (R93 to R96). -/
def scaleCheck (tag : Byte) (scale : Byte) (body : State → State) (s : State) : State :=
  if scale = 0 then raiseFault .badScale tag s else body s

/-- Appending events to `TRACE` (R23), the lines following them. -/
def appendEvents (es : List BusEvent) (s : State) : State :=
  { s with trace := s.trace ++ es, lines := driveLines s.lines es }

/-- The end of an operation that was let run (R44, R121): its events and its registers at once. Where it
emits events the bus is drawn: a failing bus takes a prefix of them, no other register changes, and
the block faults `BUS_FAULT`. -/
def commit (tag : Byte) (w : Work) (s : State) : State :=
  match w.out with
  | [] => { s with block := w.block }
  | _ :: _ =>
    match busDrawOf s with
    | none => { appendEvents w.out s with block := w.block, busDraws := s.busDraws.tail }
    | some k =>
      raiseFault .busFault tag { appendEvents (w.out.take k) s with busDraws := s.busDraws.tail }

/-- An operation's own work, from the registers it finds. -/
def perform (tag : Byte) (work : Work → Work) (s : State) : State :=
  commit tag (work (Work.start s.block)) s

/-! ## The panel sink's checks (R98, R100, R101, R124) -/

/-- `raise PFault(code)`: the first fault is kept (R124). -/
def raisePanel (code : PanelFault) (p : Panel) : Panel :=
  { p with fault := if p.fault = .none then code else p.fault }

/-- The checks before any byte (R98, R100), in their order. -/
def byteCheck (p : Panel) : Option PanelFault :=
  if !p.cs then some .noCs
  else if p.settle.isSome then some .settleViolation
  else none

/-- Closing the command in progress at a command byte (R101). -/
def closingCheck (p : Panel) : Option PanelFault :=
  match p.mode with
  | .params .caset _ | .params .raset _ | .params .madctl _ | .params .colmod _ => some .badParams
  | .memWrite =>
    if p.half.isSome then some .oddByte
    else if p.remain != 0 then some .underrun
    else none
  | .idle | .discard | .params (.vendor _) _ => none

/-- All checks of a command byte, in the order of R124. -/
def commandCheck (p : Panel) : Option PanelFault :=
  match byteCheck p with
  | some code => some code
  | none => closingCheck p

/-- A command byte at the panel sink (R101): a stuck sink takes nothing; otherwise the checks, then
the command's own effect. -/
def panelCommand (effect : Panel → Panel) (s : State) : Result :=
  if s.panel.fault = .none then
    .next { s with panel :=
      match commandCheck s.panel with
      | some code => raisePanel code s.panel
      | none => effect s.panel }
  else .fault .panelStuck

end Sys2Proof.Machine
end

