-- ==== Sys2Proof/Machine/Blit.lean ====
section
/-! DEFINITION. Windowed Blit Renderer operations (41_blit.md). -/

namespace Sys2Proof.Machine

/-- SET_WINDOW's own work once no stream is open (R80): it never clips. -/
def setWindowBody (x0 y0 x1 y1 : Int) (s : State) : State :=
  let tag := HostTag.setWindow.code
  if windowInPanel s.cfg x0 y0 x1 y1 then perform tag (windowSetup s.cfg x0 y0 x1 y1) s
  else raiseFault .badWindow tag s

/-- SET_WINDOW (R80). -/
def execSetWindow (x0 y0 x1 y1 : Word) (s : State) : Result :=
  let tag := HostTag.setWindow.code
  .next (drawingPrologue tag (underrunCheck tag
    (setWindowBody x0.toInt y0.toInt x1.toInt y1.toInt)) s)

/-- PUSH_PIXELS's own work (R81): no more words than the window has left. -/
def pushPixelsBody (pixels : List Half) (s : State) : State :=
  let tag := HostTag.pushPixels.code
  if pixels.length > s.block.pend.toNat then raiseFault .windowOverrun tag s
  else perform tag (stream pixels) s

/-- PUSH_PIXELS (R81). -/
def execPushPixels (pixels : List Half) (s : State) : Result :=
  .next (drawingPrologue HostTag.pushPixels.code (pushPixelsBody pixels) s)

/-- FILL_RECT (R82). -/
def execFillRect (x y w h : Word) (color : Half) (s : State) : Result :=
  let tag := HostTag.fillRect.code
  .next (drawingPrologue tag (underrunCheck tag (perform tag
    (fillBody s.cfg x.toInt y.toInt w.toInt h.toInt color))) s)

/-- FILL_SCREEN (R84). -/
def execFillScreen (color : Half) (s : State) : Result :=
  let tag := HostTag.fillScreen.code
  .next (drawingPrologue tag (underrunCheck tag (perform tag
    (fillBody s.cfg 0 0 s.cfg.panelW s.cfg.panelH color))) s)

/-- HLINE (R85). -/
def execHline (x y w : Word) (color : Half) (s : State) : Result :=
  let tag := HostTag.hline.code
  .next (drawingPrologue tag (underrunCheck tag (perform tag
    (fillBody s.cfg x.toInt y.toInt w.toInt 1 color))) s)

/-- VLINE (R86). -/
def execVline (x y h : Word) (color : Half) (s : State) : Result :=
  let tag := HostTag.vline.code
  .next (drawingPrologue tag (underrunCheck tag (perform tag
    (fillBody s.cfg x.toInt y.toInt 1 h.toInt color))) s)

/-- The four bars of ROUND_RECT, in their order: top, bottom, left, right (R87). -/
def roundRectBody (c : Config) (x y w h : Int) (color : Half) (t : Int) (wk : Work) : Work :=
  let i : Int := c.borderInset
  wk
    |> fillBody c (x + i) y (w - 2 * i) t color
    |> fillBody c (x + i) (y + h - t) (w - 2 * i) t color
    |> fillBody c x (y + i) t (h - 2 * i) color
    |> fillBody c (x + w - t) (y + i) t (h - 2 * i) color

/-- ROUND_RECT (R87). -/
def execRoundRect (x y w h : Word) (color : Half) (t : Word) (s : State) : Result :=
  let tag := HostTag.roundRect.code
  .next (drawingPrologue tag (underrunCheck tag (perform tag
    (roundRectBody s.cfg x.toInt y.toInt w.toInt h.toInt color t.toInt))) s)

/-- COLOR565 (R88). -/
def execColor565 (r g b : Byte) (s : State) : Result :=
  .next (prologue (fun s =>
    { s with block := { s.block with res0 := some ((packColor r g b).setWidth 32) } }) s)

end Sys2Proof.Machine
end

