-- ==== Sys2Proof/Machine/Glyph.lean ====
section
/-! DEFINITION. Glyph Rasterizer operations (42_glyph.md). -/

namespace Sys2Proof.Machine

/-- CHAR_SIZE (R93). -/
def execCharSize (scale : Byte) (s : State) : Result :=
  .next (prologue (scaleCheck HostTag.charSize.code scale fun s =>
    { s with block := { s.block with
        res0 := some (BitVec.ofNat 32 (16 * scale.toNat))
        res1 := some (BitVec.ofNat 32 (16 * scale.toNat)) } }) s)

/-- DRAW_CHAR (R94). -/
def execDrawChar (ch : Byte) (x y : Word) (fg bg : Half) (scale : Byte) (s : State) : Result :=
  let tag := HostTag.drawChar.code
  .next (drawingPrologue tag (underrunCheck tag (scaleCheck tag scale (perform tag
    (drawCharBody s.cfg ch x.toInt y.toInt fg bg scale.toNat)))) s)

/-- DRAW_TEXT (R95). -/
def execDrawText (x y : Word) (fg bg : Half) (scale : Byte) (text : List Byte) (s : State) : Result :=
  let tag := HostTag.drawText.code
  .next (drawingPrologue tag (underrunCheck tag (scaleCheck tag scale (perform tag
    (drawTextBody s.cfg fg bg scale.toNat y.toInt text x.toInt)))) s)

/-- TEXT_WIDTH (R96): the number of codes, whatever the ROM holds. -/
def execTextWidth (scale : Byte) (text : List Byte) (s : State) : Result :=
  .next (prologue (scaleCheck HostTag.textWidth.code scale fun s =>
    { s with block := { s.block with
        res0 := some (BitVec.ofNat 32 (text.length * 16 * scale.toNat)) } }) s)

end Sys2Proof.Machine
end

