-- ==== Sys2Proof/Machine/PanelSink.lean ====
section
/-! DEFINITION. The panel sink (43_panel_commands.md): the command bytes, one meaning each, and the
other bus events. -/

namespace Sys2Proof.Machine

/-! ## Command bytes (R103 to R113) -/

/-- SWRESET (R103). -/
def swresetEffect (p : Panel) : Panel :=
  { p with
    sc := none, ec := none, sp := none, ep := none
    cx := none, cy := none, remain := 0, half := none
    sleep := some true, dispOn := some false
    madctl := none, colmod := none
    gram := []
    settle := some 0
    mode := .idle }

/-- RAMWR (R108): refused while no window was set or the orientation or colour mode is another. -/
def ramwrEffect (c : Config) (p : Panel) : Panel :=
  match p.sc, p.ec, p.sp, p.ep with
  | some sc, some ec, some sp, some ep =>
    if p.madctl = some c.madctlLandscape ∧ p.colmod = some c.colmod16bpp then
      { p with
        cx := some sc, cy := some sp
        remain := BitVec.ofInt 32 (windowArea sc.toNat sp.toNat ec.toNat ep.toNat)
        half := none
        mode := .memWrite }
    else { p with refused := true, mode := .discard }
  | _, _, _, _ => { p with refused := true, mode := .discard }

/-- `Cmd(OP_SWRESET)` (R103). -/
def execSwreset (s : State) : Result :=
  panelCommand swresetEffect s

/-- `Cmd(OP_SLPOUT)` (R104). -/
def execSlpout (s : State) : Result :=
  panelCommand (fun p => { p with sleep := some false, settle := some 0, mode := .idle }) s

/-- `Cmd(OP_DISPON)` (R105). -/
def execDispon (s : State) : Result :=
  panelCommand (fun p => { p with dispOn := some true, mode := .idle }) s

/-- `Cmd(OP_CASET)` (R106): its four bytes follow as data events. -/
def execCaset (s : State) : Result :=
  panelCommand (fun p => { p with mode := .params .caset [] }) s

/-- `Cmd(OP_RASET)` (R107): its four bytes follow as data events. -/
def execRaset (s : State) : Result :=
  panelCommand (fun p => { p with mode := .params .raset [] }) s

/-- `Cmd(OP_RAMWR)` (R108). -/
def execRamwr (s : State) : Result :=
  panelCommand (ramwrEffect s.cfg) s

/-- `Cmd(OP_MADCTL)` (R110): its byte follows as a data event. -/
def execMadctl (s : State) : Result :=
  panelCommand (fun p => { p with mode := .params .madctl [] }) s

/-- `Cmd(OP_COLMOD)` (R111): its byte follows as a data event. -/
def execColmod (s : State) : Result :=
  panelCommand (fun p => { p with mode := .params .colmod [] }) s

/-- A vendor command (R112): any bytes may follow, and none has a modelled effect. -/
def execVendor (op : Byte) (s : State) : Result :=
  panelCommand (fun p => { p with mode := .params (.vendor op) [] }) s

/-- A command byte the sink has no model for (R113): the refusal mark. -/
def execUnmodelled (_op : Byte) (s : State) : Result :=
  panelCommand (fun p => { p with refused := true, mode := .discard }) s

/-! ## Data bytes (R102, R106 to R111) -/

/-- `ParamCount(op)` (R102); a vendor command takes any number. -/
def paramCount : OpenCommand → Option Nat
  | .caset => some 4
  | .raset => some 4
  | .madctl => some 1
  | .colmod => some 1
  | .vendor _ => none

/-- Start and end address from their four bytes (R54). -/
def rangeOf : List Byte → Option (Half × Half)
  | [s1, s0, e1, e0] => some (joinBytes s1 s0, joinBytes e1 e0)
  | _ => none

/-- `Apply(OP_CASET, bytes)` (R106). -/
def applyCaset (c : Config) (bytes : List Byte) (p : Panel) : Panel :=
  match rangeOf bytes with
  | some (st, en) =>
    if st.toNat > en.toNat ∨ en.toNat ≥ c.panelW then raisePanel .badRange p
    else { p with sc := some st, ec := some en }
  | none => raisePanel .badParams p

/-- `Apply(OP_RASET, bytes)` (R107). -/
def applyRaset (c : Config) (bytes : List Byte) (p : Panel) : Panel :=
  match rangeOf bytes with
  | some (st, en) =>
    if st.toNat > en.toNat ∨ en.toNat ≥ c.panelH then raisePanel .badRange p
    else { p with sp := some st, ep := some en }
  | none => raisePanel .badParams p

/-- `Apply(op, bytes)` (R102) once all parameter bytes are there. -/
def applyParams (c : Config) (op : OpenCommand) (bytes : List Byte) (p : Panel) : Panel :=
  match op with
  | .caset => applyCaset c bytes p
  | .raset => applyRaset c bytes p
  | .madctl => { p with madctl := bytes.getLast? }
  | .colmod => { p with colmod := bytes.getLast? }
  | .vendor _ => p

/-- A parameter byte (R102): the last one applies the command. A fault in `Apply` ends the event. -/
def paramByte (c : Config) (op : OpenCommand) (bytes : List Byte) (d : Byte) (p : Panel) : Panel :=
  let bytes' := bytes ++ [d]
  if paramCount op = some bytes'.length then
    let q := applyParams c op bytes' p
    if q.fault = .none then { q with mode := .idle } else q
  else { p with mode := .params op bytes' }

/-- A pixel byte (R109): the high byte waits, the low byte writes the cell and moves the counter. -/
def pixelByte (c : Config) (d : Byte) (p : Panel) : Except Fault Panel :=
  match p.half with
  | none =>
    if p.remain = 0 then .ok (raisePanel .overrun p) else .ok { p with half := some d }
  | some hi =>
    match p.cx, p.cy, p.sc, p.ec with
    | some cx, some cy, some sc, some ec =>
      if cx.toNat < c.panelW ∧ cy.toNat < c.panelH then
        .ok { p with
          gram := gramWrite p.gram (gramKey cx cy) (joinBytes hi d)
          half := none
          remain := p.remain - 1
          cx := if cx.toNat + 1 > ec.toNat then some sc else some (cx + 1)
          cy := if cx.toNat + 1 > ec.toNat then some (cy + 1) else some cy }
      else .error .outsideGram
    | _, _, _, _ => .error .addressCounterUnset

/-- `Dat(d)` (R102). -/
def dataByte (c : Config) (d : Byte) (p : Panel) : Except Fault Panel :=
  match byteCheck p with
  | some code => .ok (raisePanel code p)
  | none =>
    match p.mode with
    | .idle => .ok (raisePanel .badParams p)
    | .discard => .ok p
    | .params op bytes => .ok (paramByte c op bytes d p)
    | .memWrite => pixelByte c d p

/-! ## The other events (R98, R99) -/

/-- `CsAssert` and `CsRelease` (R98). -/
def chipSelect (on : Bool) (p : Panel) : Panel :=
  { p with cs := on }

/-- `Delay(ms)` (R99): delays accumulate until the settling time has run out. -/
def delayEvent (c : Config) (ms : Word) (p : Panel) : Panel :=
  match p.settle with
  | none => p
  | some t =>
    if t.toNat + ms.toNat ≥ c.settleMs then { p with settle := none }
    else { p with settle := some (t + ms) }

end Sys2Proof.Machine
end

