-- ==== Sys2Proof/Machine/Transport.lean ====
section
/-! DEFINITION. Panel Transport operations (40_transport.md), and the reserved descriptors (R66). -/

namespace Sys2Proof.Machine

/-- SEND_CMD (R68). -/
def execSendCmd (op : Byte) (s : State) : Result :=
  let tag := HostTag.sendCmd.code
  .next (prologue (underrunCheck tag (perform tag fun w =>
    rawCommandEffect s.cfg op (w.emit (cmdFrame op [])))) s)

/-- SEND_CMD_PARAMS (R69). -/
def execSendCmdParams (op : Byte) (params : List Byte) (s : State) : Result :=
  let tag := HostTag.sendCmdParams.code
  .next (prologue (underrunCheck tag (perform tag fun w =>
    rawCommandEffect s.cfg op (w.emit (cmdFrame op params)))) s)

/-- INIT's own registers at its end (R72). -/
def initDone (w : Work) : Work :=
  { w with block := { w.block with winValid := false, phase := .ready } }

/-- INIT (R72): the whole of `INIT_SEQ`, every time. -/
def execInit (s : State) : Result :=
  let tag := HostTag.init.code
  .next (prologue (underrunCheck tag (perform tag fun w =>
    initDone (w.emit (s.cfg.initSeq.flatMap initStepEvents)))) s)

/-- BACKLIGHT (R73): the one operation that runs in every phase, `FAULTED` too (R117). -/
def execBacklight (on : Bool) (s : State) : Result :=
  .next { s with block := { s.block with bl := on } }

/-- A descriptor whose header names no operation: `ILLEGAL_OP`, no event (R66). -/
def execReservedHostTag (header : Word) (_operands : List Word) (s : State) : Result :=
  .next (raiseIllegal (header.extractLsb' 0 8) s)

end Sys2Proof.Machine
end

