-- ==== Sys2Proof/Machine/Dispatch.lean ====
section
/-! DEFINITION. The meaning of each instruction: one arm for each constructor of `Instr`. -/

namespace Sys2Proof.Machine

def exec (i : Instr) (s : State) : Host.Outcome State Fault Refusal :=
  match i with
  | .sendCmd op => Sys2Proof.Machine.execSendCmd op s
  | .sendCmdParams op params => Sys2Proof.Machine.execSendCmdParams op params s
  | .init => Sys2Proof.Machine.execInit s
  | .backlight on => Sys2Proof.Machine.execBacklight on s
  | .setWindow x0 y0 x1 y1 => Sys2Proof.Machine.execSetWindow x0 y0 x1 y1 s
  | .pushPixels pixels => Sys2Proof.Machine.execPushPixels pixels s
  | .fillRect x y w h color => Sys2Proof.Machine.execFillRect x y w h color s
  | .fillScreen color => Sys2Proof.Machine.execFillScreen color s
  | .hline x y w color => Sys2Proof.Machine.execHline x y w color s
  | .vline x y h color => Sys2Proof.Machine.execVline x y h color s
  | .roundRect x y w h color t => Sys2Proof.Machine.execRoundRect x y w h color t s
  | .color565 r g b => Sys2Proof.Machine.execColor565 r g b s
  | .charSize scale => Sys2Proof.Machine.execCharSize scale s
  | .drawChar ch x y fg bg scale => Sys2Proof.Machine.execDrawChar ch x y fg bg scale s
  | .drawText x y fg bg scale text => Sys2Proof.Machine.execDrawText x y fg bg scale text s
  | .textWidth scale text => Sys2Proof.Machine.execTextWidth scale text s
  | .reservedHostTag header operands => Sys2Proof.Machine.execReservedHostTag header operands s
  | .swreset => Sys2Proof.Machine.execSwreset s
  | .slpout => Sys2Proof.Machine.execSlpout s
  | .dispon => Sys2Proof.Machine.execDispon s
  | .caset => Sys2Proof.Machine.execCaset s
  | .raset => Sys2Proof.Machine.execRaset s
  | .ramwr => Sys2Proof.Machine.execRamwr s
  | .madctl => Sys2Proof.Machine.execMadctl s
  | .colmod => Sys2Proof.Machine.execColmod s
  | .vendor op => Sys2Proof.Machine.execVendor op s
  | .unmodelled op => Sys2Proof.Machine.execUnmodelled op s

end Sys2Proof.Machine
end

