-- ==== Sys2Proof/Machine/Agents.lean ====
section
/-! DEFINITION. The three agents (00_scope.md rule R5): what the panel sink does with the next event of
`TRACE`, what the host's next input does, and the places where each is fetched from. -/

namespace Sys2Proof.Machine

/-! ## The panel sink (R97) -/

/-- The next event for the sink (R48): none once it has consumed the trace, or once it is stuck (R97). -/
def nextPanelEvent (s : State) : Option BusEvent :=
  if s.panel.fault = .none then s.trace[s.taken]? else none

/-- The sink's position moves past the event it takes. -/
def takeEvent (s : State) : State :=
  { s with taken := s.taken + 1 }

/-- A change of the panel sink that may stop the machine. -/
def withPanel (r : Except Fault Panel) (s : State) : Result :=
  match r with
  | .ok p => .next { s with panel := p }
  | .error f => .fault f

/-- One bus event at the panel sink (R97). A command byte is an instruction of its own. -/
def consume (e : BusEvent) (s : State) : Result :=
  match e with
  | .csAssert => .next { s with panel := chipSelect true s.panel }
  | .csRelease => .next { s with panel := chipSelect false s.panel }
  | .delay ms => .next { s with panel := delayEvent s.cfg ms s.panel }
  | .cmd b => exec (decodeCommand s.cfg b) s
  | .dat d => withPanel (dataByte s.cfg d s.panel) s

/-! ## The host (R14, R61) -/

/-- The host's next input. -/
def nextInput (s : State) : Option HostInput :=
  s.host.inputs[s.host.pos]?

/-- The host's position moves on by one, whatever the input came to (R14). -/
def advanceHost (s : State) : State :=
  { s with host := { s.host with pos := s.host.pos + 1 } }

/-- `FAULT_TAG`'s value for a descriptor that does not decode (R16): bits 7:0 of its header, and a free
value where no header word was delivered. -/
def illegalTag (header : Option Word) (s : State) : Byte :=
  match header with
  | some h => h.extractLsb' 0 8
  | none => Config.noHeaderTag s.host.pos

/-- A host operation: the decoded instruction, or `ILLEGAL_OP` (R66, R117). -/
def runDecoded (d : Except DecodeError Instr) (header : Option Word) (s : State) : Result :=
  match d with
  | .ok i => exec i s
  | .error _ => .next (raiseIllegal (illegalTag header s) s)

/-- A read of a result register (R22). A register without a value gives none, and the read is the
host-side fault `RESULT_UNWRITTEN` (R116): it lives in the host, and touches neither the block nor the
sink. -/
def readResult (r : Option Word) (s : State) : State :=
  match r with
  | some v => { s with host := { s.host with lastRead := some (.result v) } }
  | none => { s with host := { s.host with lastRead := none, fault := .resultUnwritten } }

/-- A read of the status registers, as their codes (R15, R16, R116). -/
def readStatus (s : State) : State :=
  { s with host := { s.host with
      lastRead :=
        some (.status (phaseCode s.block.phase) (blockFaultCode s.block.fault) s.block.faultTag) } }

/-- `inp` put before the host's coming inputs. -/
def withNextInput (inp : HostInput) (h : HostSide) : HostSide :=
  { h with
    inputs := h.inputs.take h.pos ++ inp :: h.inputs.drop h.pos
    pos := (h.inputs.take h.pos).length }

/-- What an operation that is stopped after `k` events has put on the bus: a prefix of what it would have
sent on a healthy bus. Its register writes are not there yet. -/
def runPartly (k : Nat) (d : Except DecodeError Instr) (s : State) : State :=
  match d with
  | .error _ => s
  | .ok i =>
    match exec i { s with busDraws := none :: s.busDraws } with
    | .next t => appendEvents ((t.trace.drop s.trace.length).take k) s
    | .fault _ => s
    | .refused _ => s

/-- An operation that the block's reset stops (R123): its first `k` events, and then the reset, which is
the very next input. -/
def cutByReset (k : Nat) (d : Except DecodeError Instr) (s : State) : State :=
  { runPartly k d s with host := withNextInput .resetBlock s.host }

/-- One input of the host. -/
def takeInput (inp : HostInput) (s : State) : Result :=
  match inp with
  | .operation words => runDecoded (decodeDescriptor words) words.head? s
  | .operationBytes bytes => runDecoded (decodeBytes bytes) (headerOfBytes bytes) s
  | .operationCut words k => .next (cutByReset k (decodeDescriptor words) s)
  | .readRes0 => .next (readResult s.block.res0 s)
  | .readRes1 => .next (readResult s.block.res1 s)
  | .readStatus => .next (readStatus s)
  | .resetBlock => .next (resetBlock s)
  | .powerOnPanel => .next (powerOnPanel s)

/-- Nothing is left for the sink, nor for the host: the block waits for an operation (R132), unless the
sink is stuck, which is never final (R97, R124). -/
def noMove (s : State) : Result :=
  if s.panel.fault = .none then .next s else .fault .panelStuck

/-- One step of the machine. The sink moves first while it has an event to take, so it never lags behind
the block at an operation's start (R48 leaves the lag open; assumption log 7); then the host. -/
def stepAgents (s : State) : Result :=
  match nextPanelEvent s with
  | some e => consume e (takeEvent s)
  | none =>
    match nextInput s with
    | some inp => takeInput inp (advanceHost s)
    | none => noMove s

/-! ## Placing an instruction where the next step fetches it -/

/-- A command byte as the next event of the trace, at a sink that takes events. -/
def placeEvent (e : BusEvent) (s : State) : State :=
  { s with
    trace := s.trace.take s.taken ++ e :: s.trace.drop s.taken
    taken := (s.trace.take s.taken).length
    panel := { s.panel with fault := .none } }

/-- A host operation as the host's next input, with the trace consumed. -/
def placeOperation (words : List Word) (s : State) : State :=
  { s with
    host := withNextInput (.operation words) s.host
    taken := s.trace.length }

/-- An instruction's encoding, placed. -/
def placeCode (code : Code) (s : State) : State :=
  match code with
  | .descriptor words => placeOperation words s
  | .command b => placeEvent (.cmd b) s

end Sys2Proof.Machine
end

