-- ==== Sys2Proof/Machine/Step.lean ====
section
/-! DEFINITION. One step of the machine, and an instruction placed where the next step takes it from. -/

namespace Sys2Proof.Machine

/-- One step: `stepAgents`. -/
def step (s : State) : Host.Outcome State Fault Refusal :=
  stepAgents s

/-- `s` with the instruction an opcode-table word stands for placed as the very next thing its agent takes:
a host descriptor as the host's next input, a command byte as the panel sink's next event. -/
def State.withFetchWord (s : State) (nbits w : Nat) : State :=
  placeCode (tableCode nbits w) s

end Sys2Proof.Machine
end

