-- ==== Sys2Proof/Machine/Observe.lean ====
section
/-! DEFINITION. The observation of a run (43_panel_commands.md rule R115). -/

namespace Sys2Proof.Machine

/-- "when the host has no more operations and the panel sink has consumed all of `TRACE`". -/
def runEnded (s : State) : Bool :=
  decide (s.host.inputs.length ≤ s.host.pos) && decide (s.trace.length ≤ s.taken)

/-- No stream is open at the panel: `P_MODE` ≠ `MEMWRITE`, or `P_REMAIN` = 0 with `P_HALF` = ⊥. -/
def panelStreamClosed (p : Panel) : Bool :=
  decide (p.mode ≠ .memWrite) || (decide (p.remain = 0) && decide (p.half = none))

/-- The run gives an image (R115). -/
def hasImage (s : State) : Bool :=
  runEnded s && decide (s.block.fault = .none) && decide (s.panel.fault = .none) && !s.panel.refused
    && decide (s.block.pend = 0) && panelStreamClosed s.panel

/-- The image: GRAM, where there is one. A cell with ⊥ says nothing. -/
def image (s : State) : Option Gram :=
  if hasImage s then some s.panel.gram else none

/-- The image is shown: additionally `P_SLEEP` = 0, `P_DISPON` = 1 and `BL` = 1 (R115). R134 step 3 says
that only after INIT the observation shows an image; R115's conditions name no INIT and raw commands can
meet them. The model follows R115: DESIGN CHOICE, unsafe (assumption log 34). -/
def shown (s : State) : Bool :=
  hasImage s && decide (s.panel.sleep = some false) && decide (s.panel.dispOn = some true) && s.block.bl

end Sys2Proof.Machine
end

