-- ==== Sys2Proof/Safety.lean ====
section
/-! DEFINITION. The terms claims use: what a safe state is, the conditions an operation runs under, the
events and registers it is to leave (written out, not through the machine's own operations), and
the invariants of the machine. -/

namespace Sys2Proof

open Machine

/-! ## Safe states and conditions -/

/-- Nothing has gone wrong: neither the block nor the sink has faulted, the refusal mark is clear (R115),
and no host read has faulted (R22). -/
abbrev SafeState (s : State) : Prop :=
  s.block.fault = .none ∧ s.panel.fault = .none ∧ s.panel.refused = false ∧ s.host.fault = .none

/-- The block may emit: it has not faulted, no stream is open (R77) and the bus is healthy (R121). -/
abbrev CanEmit (s : State) : Prop :=
  s.block.phase ≠ .faulted ∧ s.block.pend = 0 ∧ BusHealthy s

/-- The block may draw: it is `READY` (R25), no stream is open and the bus is healthy. -/
abbrev CanDraw (s : State) : Prop :=
  s.block.phase = .ready ∧ s.block.pend = 0 ∧ BusHealthy s

/-- The sink takes no event now: it has consumed the trace, or it is stuck (R97). -/
abbrev HostTurn (s : State) : Prop :=
  s.panel.fault ≠ .none ∨ s.trace.length ≤ s.taken

/-- The panel sink accepts a command byte: CS asserted (R98), settled (R100), and nothing in progress
that a command byte would cut off (R101). -/
abbrev PanelAccepts (p : Panel) : Prop :=
  p.fault = .none ∧ p.cs = true ∧ p.settle = none ∧ closingCheck p = none

/-- The panel sink accepts a data byte (R98, R100). -/
abbrev PanelTakesData (p : Panel) : Prop :=
  p.fault = .none ∧ p.cs = true ∧ p.settle = none

/-- The coming events of the trace, not yet taken by the sink. -/
def pending (s : State) : List BusEvent :=
  s.trace.drop s.taken

/-- The tag of a host operation: bits 7:0 of its header word (R16, R64). Panel commands have none. -/
def Instr.hostTag : Instr → Byte
  | .sendCmd _ => 0x01
  | .sendCmdParams _ _ => 0x02
  | .init => 0x03
  | .backlight _ => 0x04
  | .setWindow _ _ _ _ => 0x10
  | .pushPixels _ => 0x11
  | .fillRect _ _ _ _ _ => 0x12
  | .fillScreen _ => 0x13
  | .hline _ _ _ _ => 0x14
  | .vline _ _ _ _ => 0x15
  | .roundRect _ _ _ _ _ _ => 0x16
  | .color565 _ _ _ => 0x17
  | .charSize _ => 0x20
  | .drawChar _ _ _ _ _ _ => 0x21
  | .drawText _ _ _ _ _ _ => 0x22
  | .textWidth _ _ => 0x23
  | .reservedHostTag header _ => header.extractLsb' 0 8
  | .swreset | .slpout | .dispon | .caset | .raset | .ramwr | .madctl | .colmod
  | .vendor _ | .unmodelled _ => 0

/-- The operations an open stream stops (R77). -/
def Instr.stoppedByStream : Instr → Bool
  | .sendCmd _ | .sendCmdParams _ _ | .init | .setWindow _ _ _ _ | .fillRect _ _ _ _ _
  | .fillScreen _ | .hline _ _ _ _ | .vline _ _ _ _ | .roundRect _ _ _ _ _ _
  | .drawChar _ _ _ _ _ _ | .drawText _ _ _ _ _ _ => true
  | .backlight _ | .pushPixels _ | .color565 _ _ _ | .charSize _ | .textWidth _ _
  | .reservedHostTag _ _ | .swreset | .slpout | .dispon | .caset | .raset | .ramwr | .madctl
  | .colmod | .vendor _ | .unmodelled _ => false

/-! ## The states operations leave -/

/-- `s` after an operation sent `es` on a healthy bus and left the block's registers as `b`. Nothing
else differs from `s`: not the parameters, the host, the sink's position, the panel or its GRAM. -/
def sent (s : State) (es : List BusEvent) (b : Block) : State :=
  { s with
    trace := s.trace ++ es
    lines := driveLines s.lines es
    block := b
    busDraws := s.busDraws.tail }

/-- `s` after a fault raised before any event (R119): only `FAULT`, `FAULT_TAG` and `PHASE` differ. -/
def stopped (s : State) (code : BlockFault) (tag : Byte) : State :=
  { s with block := { s.block with fault := code, faultTag := tag, phase := .faulted } }

/-- `s` after the host's next input was the panel's power-on (R133, R36), the sink now at place `k` of the
trace: the host's position and the whole panel sink, nothing else. -/
def poweredOn (s : State) (k : Nat) : State :=
  { s with
    host := { s.host with pos := s.host.pos + 1 }
    taken := k
    panel := { mode := .idle, sc := none, ec := none, sp := none, ep := none, cx := none, cy := none
               remain := 0, half := none, sleep := none, dispOn := none, madctl := none, colmod := none
               settle := none, cs := false, fault := .none, refused := false, gram := [] } }

/-- The two bytes of a number below 65536, high byte first (R40). -/
def beBytes (n : Nat) : List Byte :=
  [BitVec.ofNat 8 (n / 256), BitVec.ofNat 8 (n % 256)]

/-- The events of a window set-up (R74, R54): CASET with the columns, RASET with the rows, RAMWR. -/
def setupEvents (c : Config) (x0 y0 x1 y1 : Nat) : List BusEvent :=
  [.csAssert, .cmd c.opCaset] ++ (beBytes x0 ++ beBytes x1).map .dat ++ [.csRelease]
    ++ [.csAssert, .cmd c.opRaset] ++ (beBytes y0 ++ beBytes y1).map .dat ++ [.csRelease]
    ++ [.csAssert, .cmd c.opRamwr, .csRelease]

/-- The events of a pixel stream (R55, R75): one data frame, high byte first; none for no pixels. -/
def pixelEvents (pixels : List Half) : List BusEvent :=
  if pixels = [] then []
  else [.csAssert] ++ (pixels.flatMap (fun p => beBytes p.toNat)).map .dat ++ [.csRelease]

/-- The cell in column `i`, row `j` lies in [x, x+w) × [y, y+h). -/
abbrev inBox (x y w h : Int) (i j : Half) : Prop :=
  x ≤ i.toNat ∧ (i.toNat : Int) < x + w ∧ y ≤ j.toNat ∧ (j.toNat : Int) < y + h

/-- A window, inclusive bounds. -/
structure Window where
  x0 : Nat
  y0 : Nat
  x1 : Nat
  y1 : Nat
  deriving DecidableEq, Repr

/-- "`(x1-x0+1)*(y1-y0+1)`" (R18). -/
def Window.area (win : Window) : Nat :=
  (win.x1 - win.x0 + 1) * (win.y1 - win.y0 + 1)

/-- The block's registers after a window set-up with `owed` pixel words still to come (R74). -/
def withWindow (b : Block) (win : Window) (owed : Nat) : Block :=
  { b with
    winValid := true
    winX0 := some (BitVec.ofNat 16 win.x0), winY0 := some (BitVec.ofNat 16 win.y0)
    winX1 := some (BitVec.ofNat 16 win.x1), winY1 := some (BitVec.ofNat 16 win.y1)
    pend := BitVec.ofNat 32 owed }

/-- The window of a fill (R78, R79): the intersection with the panel, `none` where it is empty. -/
def fillWindow (c : Config) (x y w h : Int) : Option Window :=
  if max x 0 < min (x + w) c.panelW ∧ max y 0 < min (y + h) c.panelH then
    some { x0 := (max x 0).toNat, y0 := (max y 0).toNat
           x1 := (min (x + w) c.panelW - 1).toNat, y1 := (min (y + h) c.panelH - 1).toNat }
  else none

/-- The window of a glyph (R89, R91): the whole box, `none` where any edge is off the panel. -/
def glyphWindow (c : Config) (x y : Int) (s : Nat) : Option Window :=
  if 0 ≤ x ∧ 0 ≤ y ∧ x + 16 * s ≤ c.panelW ∧ y + 16 * s ≤ c.panelH then
    some { x0 := x.toNat, y0 := y.toNat
           x1 := (x + 16 * s - 1).toNat, y1 := (y + 16 * s - 1).toNat }
  else none

/-- A window set-up followed by all of its pixels; nothing where there is no window. -/
def paintEvents (c : Config) (win : Option Window) (pixels : Window → List Half) : List BusEvent :=
  match win with
  | none => []
  | some w => setupEvents c w.x0 w.y0 w.x1 w.y1 ++ pixelEvents (pixels w)

/-- The registers after it: the window recorded, nothing owed. -/
def paintRegs (win : Option Window) (b : Block) : Block :=
  match win with
  | none => b
  | some w => withWindow b w 0

/-- The pixels of a fill: one word for each cell of the window, all equal (R79, R83). -/
def solid (color : Half) (win : Window) : List Half :=
  List.replicate win.area color

/-- Pixel `k` of a glyph in raster order over its 16s × 16s box (R90): output pixel (i, j) is the
foreground where bit 15 - (i div s) of row (j div s) is 1. -/
def glyphPixel (rom : GlyphRom) (ch : Byte) (fg bg : Half) (s k : Nat) : Half :=
  let i := k % (16 * s)
  let j := k / (16 * s)
  if (glyphRead rom ch (Fin.ofNat 16 (j / s))).getLsbD (15 - i / s) then fg else bg

/-- The 256·s² pixels of a glyph (R90). -/
def glyphPixelList (rom : GlyphRom) (ch : Byte) (fg bg : Half) (s : Nat) : List Half :=
  (List.range (256 * s * s)).map (glyphPixel rom ch fg bg s)

/-- The events and the registers of a list of paints, one after another. -/
def paintAllRegs (wins : List (Option Window)) (b : Block) : Block :=
  wins.foldl (fun b win => paintRegs win b) b

/-- The windows of ROUND_RECT's bars: top, bottom, left, right (R87). -/
def barWindows (c : Config) (x y w h t : Int) : List (Option Window) :=
  let i : Int := c.borderInset
  [fillWindow c (x + i) y (w - 2 * i) t,
   fillWindow c (x + i) (y + h - t) (w - 2 * i) t,
   fillWindow c x (y + i) t (h - 2 * i),
   fillWindow c (x + w - t) (y + i) t (h - 2 * i)]

/-! ## The block's invariant -/

/-- The window the record holds (R17): inside the panel, start before end. -/
abbrev RecordedWindow (c : Config) (b : Block) (win : Window) : Prop :=
  b.winX0 = some (BitVec.ofNat 16 win.x0) ∧ b.winY0 = some (BitVec.ofNat 16 win.y0)
    ∧ b.winX1 = some (BitVec.ofNat 16 win.x1) ∧ b.winY1 = some (BitVec.ofNat 16 win.y1)
    ∧ win.x0 ≤ win.x1 ∧ win.x1 < c.panelW ∧ win.y0 ≤ win.y1 ∧ win.y1 < c.panelH

/-- What the block's registers satisfy between operations. -/
structure BlockInv (c : Config) (b : Block) : Prop where
  /-- `PHASE` is `FAULTED` exactly while `FAULT` holds a code (R119, R120) -/
  faulted : b.phase = .faulted ↔ b.fault ≠ .none
  /-- `FAULT_TAG` is 0 until a fault (R16) -/
  tag : b.fault = .none → b.faultTag = 0
  /-- a valid record is a window of the panel (R17, R46) -/
  window : b.winValid = true → ∃ win, RecordedWindow c b win
  /-- words are owed only to the recorded window, and no more than it takes (R18) -/
  owed : b.pend ≠ 0 → b.winValid = true ∧ b.phase ≠ .uninit
    ∧ ∃ win, RecordedWindow c b win ∧ b.pend.toNat ≤ win.area

/-! ## The panel sink's invariant -/

/-- A start and an end address (R106, R107): both ⊥, or in order and inside the panel. -/
abbrev RangeOk (st en : Option Half) (bound : Nat) : Prop :=
  (st = none ∧ en = none)
    ∨ ∃ a b : Half, st = some a ∧ en = some b ∧ a.toNat ≤ b.toNat ∧ b.toNat < bound

/-- The address counter of a memory write (R109): inside the window, or just past its last row; what
remains is what raster order still has to visit. -/
abbrev CounterOk (p : Panel) : Prop :=
  ∃ sc ec sp ep cx cy : Half,
    p.sc = some sc ∧ p.ec = some ec ∧ p.sp = some sp ∧ p.ep = some ep
      ∧ p.cx = some cx ∧ p.cy = some cy
      ∧ sc.toNat ≤ cx.toNat ∧ cx.toNat ≤ ec.toNat
      ∧ sp.toNat ≤ cy.toNat ∧ cy.toNat ≤ ep.toNat + 1
      ∧ p.remain.toNat + (cx.toNat - sc.toNat)
          = (ep.toNat + 1 - cy.toNat) * (ec.toNat - sc.toNat + 1)

/-- What the panel sink's state satisfies between events. -/
structure PanelInv (c : Config) (p : Panel) : Prop where
  columns : RangeOk p.sc p.ec c.panelW
  rows : RangeOk p.sp p.ep c.panelH
  counter : p.mode = .memWrite → CounterOk p
  /-- a memory write runs only in the configured orientation and colour mode (R108, R138) -/
  modes : p.mode = .memWrite → p.madctl = some c.madctlLandscape ∧ p.colmod = some c.colmod16bpp
  /-- a lone high byte waits only inside an unfilled window (R29, R109) -/
  half : p.half ≠ none → p.mode = .memWrite ∧ p.remain ≠ 0
  /-- `DISCARD` exists only after the refusal mark is set (R114) -/
  discard : p.mode = .discard → p.refused = true
  /-- a fixed-count command never holds all its bytes (R102) -/
  params : ∀ op bytes n, p.mode = .params op bytes → paramCount op = some n → bytes.length < n
  /-- the settling time has not run out (R32) -/
  settling : ∀ t, p.settle = some t → t = 0 ∨ t.toNat < c.settleMs
  /-- GRAM is in canonical form, inside the grid (R35) -/
  gramForm : Memory.wf p.gram
  gramGrid : Memory.inGrid c p.gram

/-! ## The trace's invariant -/

/-- Where a trace stands in the framing of R52. -/
inductive FrameState where
  | outside | opened | command | data
  deriving DecidableEq, Repr

/-- One event in the framing of R52; `none` where the framing forbids it. -/
def frameNext (st : FrameState) (e : BusEvent) : Option FrameState :=
  match st with
  | .outside =>
    match e with
    | .csAssert => some .opened
    | .delay _ => some .outside
    | .csRelease | .cmd _ | .dat _ => none
  | .opened =>
    match e with
    | .cmd _ => some .command
    | .dat _ => some .data
    | .csAssert | .csRelease | .delay _ => none
  | .command =>
    match e with
    | .dat _ => some .command
    | .csRelease => some .outside
    | .csAssert | .cmd _ | .delay _ => none
  | .data =>
    match e with
    | .dat _ => some .data
    | .csRelease => some .outside
    | .csAssert | .cmd _ | .delay _ => none

/-- A list of events in the framing of R52. -/
def frameRun : FrameState → List BusEvent → Option FrameState
  | st, [] => some st
  | st, e :: es =>
    match frameNext st e with
    | some st' => frameRun st' es
    | none => none

/-- What the trace, the lines and the sink's place in the trace satisfy. -/
structure TraceInv (s : State) : Prop where
  taken : s.taken ≤ s.trace.length
  /-- the trace is whole frames and delays; only a failed bus, or a reset that comes next, stops inside
  a frame (R52, R121, R123) -/
  framed : ∃ st, frameRun .outside s.trace = some st
    ∧ (st ≠ .outside → s.block.fault = .busFault ∨ nextInput s = some .resetBlock)
  /-- the lines stand as the events of the trace leave them (R20, R23) -/
  lines : s.lines = driveLines Lines.reset s.trace
  /-- inside a frame the sink sees CS asserted, unless no event is left for it (R33, R98) -/
  panelCs : ∃ st, frameRun .outside (s.trace.take s.taken) = some st
    ∧ (st ≠ .outside → s.panel.cs = true ∨ s.taken = s.trace.length)
  /-- the block never makes the sink raise `P_NO_CS` (R98) -/
  noCs : s.panel.fault ≠ .noCs

/-- The invariant of the whole machine. -/
structure Inv (s : State) : Prop where
  fits : s.cfg.panelFits
  block : BlockInv s.cfg s.block
  panel : PanelInv s.cfg s.panel
  trace : TraceInv s

end Sys2Proof
end

