-- ==== Sys2Proof/Certificates/Slice0/Obligations.lean ====
section
/-! DEFINITION. The statements for the provers: each formalises rules of spec/, named in its docstring. -/

open Sys2Proof Sys2Proof.Machine

/-! ## Encoding -/

/-- Encoding a well-formed instruction, host descriptor or command byte, and decoding gives it back, with
every operand at every value (30_encoding.md; R60 to R65). -/
def Obligations.EncodedInstructionDecodesBack : Prop :=
  ∀ (c : Config) (i : Instr), c.namedDistinct → i.wf c = true → decode c (encode c i) = .ok i

/-- Whatever decodes is well-formed and is the encoding of what it decodes to: no reserved bit, padding
or length is let through, and every descriptor and command byte has at most one reading (R65, R66). -/
def Obligations.DecodedCodeIsTheEncoding : Prop :=
  ∀ (c : Config) (code : Code) (i : Instr),
    decode c code = .ok i → i.wf c = true ∧ encode c i = code

/-- Every header whose tag is in the list of R66, or that has a nonzero bit above the tag, names no
operation: whatever words follow, it is the table's reserved row. That such a descriptor decodes to a
row of its own is the model's reading of the opcode table (assumption log 30); R66 itself says only
that it is `ILLEGAL_OP`. -/
def Obligations.ReservedHeadersAreTheReservedRow : Prop :=
  ∀ (h : Word) (ws : List Word),
    (h.toNat / 256 ≠ 0 ∨ h.toNat = 0 ∨ (0x05 ≤ h.toNat ∧ h.toNat ≤ 0x0F)
      ∨ (0x18 ≤ h.toNat ∧ h.toNat ≤ 0x1F) ∨ (0x24 ≤ h.toNat ∧ h.toNat ≤ 0xFF)) →
    decodeDescriptor (h :: ws) = .ok (.reservedHostTag h ws)

/-- Sanity: descriptors written out from R61 to R64 decode to the operations they stand for, one word or
byte of each family (95_test_vectors.md V-E1, V-E2, V-E4, V-E6, V-E7, and R60). -/
def Obligations.WrittenOutWordsDecode : Prop :=
  decodeDescriptor [0x00000001, 0x00000029] = .ok (.sendCmd 0x29)
    ∧ decodeDescriptor [0x00000002, 0x00000036, 0x00000001, 0x28000000]
        = .ok (.sendCmdParams 0x36 [0x28])
    ∧ decodeDescriptor [0x00000010, 0x000001D6, 0x0000013B, 0x000001DF, 0x0000013F]
        = .ok (.setWindow 470 315 479 319)
    ∧ decodeDescriptor [0x00000012, 0xFFFFFFF6, 0xFFFFFFFB, 0x00000014, 0x0000000A, 0x0000001F]
        = .ok (.fillRect (-10) (-5) 20 10 0x001F)
    ∧ decodeDescriptor [0x00000022, 0x0000000A, 0x0000000A, 0x0000FFFF, 0x00000000, 0x00000001,
        0x00000003, 0x434F3200] = .ok (.drawText 10 10 0xFFFF 0x0000 1 [0x43, 0x4F, 0x32])
    ∧ decodeTableWord 8 0x2A = some .caset ∧ decodeTableWord 8 0x3A = some .colmod

/-! ## The step -/

/-- When it is the host's turn and its next input is an operation whose words, or whose bytes with each
word high byte first (R61), decode to `i`, a step is `exec i` once the host's position has moved on by
one (R14). -/
def Obligations.StepRunsTheDecodedOperation : Prop :=
  ∀ (s : State) (words : List Word) (i : Instr),
    HostTurn s → decodeDescriptor words = .ok i →
    (s.host.inputs[s.host.pos]? = some (.operation words)
      ∨ s.host.inputs[s.host.pos]? = some (.operationBytes
          (words.flatMap fun w => beBytes (w.toNat / 65536) ++ beBytes (w.toNat % 65536)))) →
    step s = exec i { s with host := { s.host with pos := s.host.pos + 1 } }

/-- When the sink takes events and the next event of the trace is a command byte, a step is `exec` of
the command the byte decodes to, once the sink's position has moved past the event (R97, R101). -/
def Obligations.StepRunsTheDecodedCommand : Prop :=
  ∀ (s : State) (b : Byte) (i : Instr),
    s.panel.fault = .none → s.trace[s.taken]? = some (.cmd b) → decode s.cfg (.command b) = .ok i →
    step s = exec i { s with taken := s.taken + 1 }

/-- `withFetchWord` places the table word's instruction so that the very next step runs it (the model's
own fetch; assumption log 5). -/
def Obligations.PlacedInstructionRunsNext : Prop :=
  ∀ (s : State) (nbits w : Nat) (i : Instr),
    decode s.cfg (tableCode nbits w) = .ok i →
    step (s.withFetchWord nbits w)
      = exec i (if nbits ≤ 8 then takeEvent (s.withFetchWord nbits w)
                else advanceHost (s.withFetchWord nbits w))

/-- A descriptor that does not decode emits nothing, and in every phase but `FAULTED` it is the fault
`ILLEGAL_OP` with the header's low byte as its tag; in `FAULTED` it has no effect (R66, R117, R119). The
host's position moves on either way (R14). So it is for a descriptor delivered as words and for one
delivered as bytes, the header's low byte then being the fourth. Where no header word was delivered
the tag is left open (assumption log 6). Bytes that end inside a word do not decode (assumption
log 22). -/
def Obligations.IllegalDescriptorFaults : Prop :=
  (∀ (s : State) (inp : HostInput), HostTurn s → s.host.inputs[s.host.pos]? = some inp →
    ((∃ ws e, inp = .operation ws ∧ decodeDescriptor ws = .error e)
      ∨ ∃ bs e, inp = .operationBytes bs ∧ decodeBytes bs = .error e) →
    let moved : State := { s with host := { s.host with pos := s.host.pos + 1 } }
    (s.block.phase = .faulted → step s = .next moved)
    ∧ (s.block.phase ≠ .faulted → s.block.fault = .none →
      ∃ tag, step s = .next (stopped moved .illegalOp tag)
        ∧ (∀ h ws, inp = .operation (h :: ws) → tag = BitVec.ofNat 8 (h.toNat % 256))
        ∧ (∀ a b c d rest, inp = .operationBytes (a :: b :: c :: d :: rest) → tag = d)))
  ∧ (∃ e, decodeDescriptor [] = .error e)
  ∧ (∀ bs : List Byte, bs = [] ∨ bs.length % 4 ≠ 0 → ∃ e, decodeBytes bs = .error e)

/-- CS events set and clear `P_CS` and change nothing else; delays accumulate towards `SETTLE_MS` and then
the panel has settled; nothing else changes (R98, R99). That a sum past 32 bits counts as settled is the
model's reading (assumption log 17). -/
def Obligations.ChipSelectAndDelayEvents : Prop :=
  ∀ (s : State), s.panel.fault = .none →
    (s.trace[s.taken]? = some .csAssert →
      step s = .next { s with taken := s.taken + 1, panel := { s.panel with cs := true } })
    ∧ (s.trace[s.taken]? = some .csRelease →
      step s = .next { s with taken := s.taken + 1, panel := { s.panel with cs := false } })
    ∧ (∀ ms, s.trace[s.taken]? = some (.delay ms) → s.cfg.settleFits →
      step s = .next { s with taken := s.taken + 1, panel := { s.panel with settle :=
        match s.panel.settle with
        | none => none
        | some t => if s.cfg.settleMs ≤ t.toNat + ms.toNat then none
                    else some (BitVec.ofNat 32 (t.toNat + ms.toNat)) } })

/-- A read of a result register gives the host its value and changes nothing else; while the register
holds no value the read gives none and is the host-side fault `RESULT_UNWRITTEN` (R22, R116), after
which the host goes on (assumption log 32). A read of the status registers gives the numbers of R15
and R116, and the tag; the sink's codes are numbered as in R124. -/
def Obligations.ResultReadsGiveTheValueOrFault : Prop :=
  ∀ (s : State), HostTurn s →
    (s.host.inputs[s.host.pos]? = some .readRes0 →
      (s.block.res0 = none → step s = .next { s with host :=
          { s.host with pos := s.host.pos + 1, lastRead := none, fault := .resultUnwritten } })
      ∧ ∀ v, s.block.res0 = some v → step s = .next { s with host :=
          { s.host with pos := s.host.pos + 1, lastRead := some (.result v) } })
    ∧ (s.host.inputs[s.host.pos]? = some .readRes1 →
      (s.block.res1 = none → step s = .next { s with host :=
          { s.host with pos := s.host.pos + 1, lastRead := none, fault := .resultUnwritten } })
      ∧ ∀ v, s.block.res1 = some v → step s = .next { s with host :=
          { s.host with pos := s.host.pos + 1, lastRead := some (.result v) } })
    ∧ (s.host.inputs[s.host.pos]? = some .readStatus →
      ∃ (phase : BitVec 2) (code : Byte), step s = .next { s with host :=
          { s.host with
            pos := s.host.pos + 1, lastRead := some (.status phase code s.block.faultTag) } }
        ∧ (s.block.phase, phase) ∈ [(.uninit, 0), (.ready, 1), (.faulted, (2 : BitVec 2))]
        ∧ (s.block.fault, code) ∈ [(.none, 0), (.illegalOp, 1), (.notInitialized, 2),
            (.windowUnderrun, 3), (.windowOverrun, 4), (.badWindow, 5), (.badScale, 6),
            (.busFault, (7 : Byte))])
    ∧ (s.panel.fault, panelFaultCode s.panel.fault) ∈ [(.none, 0), (.noCs, 1), (.settleViolation, 2),
        (.badParams, 3), (.oddByte, 4), (.underrun, 5), (.overrun, 6), (.badRange, (7 : Nat))]

/-- The block's reset sets every block field to its reset value, empties the trace and emits nothing; it
leaves the panel, its GRAM and the parameters as they are (R132, R36). The sink's position in the
empty trace is left open here. -/
def Obligations.BlockResetSetsEveryField : Prop :=
  ∀ (s : State), HostTurn s → s.host.inputs[s.host.pos]? = some .resetBlock →
    ∃ k : Nat, step s = .next { s with
      host := { s.host with pos := s.host.pos + 1 }
      block := { phase := .uninit, fault := .none, faultTag := 0, winValid := false
                 winX0 := none, winY0 := none, winX1 := none, winY1 := none
                 pend := 0, bl := false, res0 := none, res1 := none }
      lines := { cs := false, dc := none }
      trace := []
      taken := k }

/-! ## Faults of the block -/

/-- In `FAULTED`, an operation other than BACKLIGHT emits nothing and writes nothing; BACKLIGHT writes
`BL` (R117). -/
def Obligations.FaultedBlockObeysOnlyBacklight : Prop :=
  ∀ (s : State) (i : Instr), s.block.phase = .faulted → i.isHostOp = true →
    (∀ on, i = .backlight on →
      exec i s = .next { s with block := { s.block with bl := on } })
    ∧ ((∀ on, i ≠ .backlight on) → exec i s = .next s)

/-- A drawing operation in `UNINIT` raises `NOT_INITIALIZED`, whatever its operands and whatever else is
wrong with it; the other operations run there and do not raise it (R25, R118, R119). -/
def Obligations.DrawingBeforeInitFaults : Prop :=
  ∀ (s : State) (i : Instr), s.block.phase = .uninit → s.block.fault = .none → i.isHostOp = true →
    (i.isDrawing = true → exec i s = .next (stopped s .notInitialized i.hostTag))
    ∧ (i.isDrawing = false → ∃ t, exec i s = .next t ∧ t.block.fault ≠ .notInitialized)

/-- While a stream is open, the eleven operations of R77 raise `WINDOW_UNDERRUN` before they emit
anything, once the gate of `UNINIT` has let them through (R77, R118, R119). -/
def Obligations.OpenStreamStopsOtherOperations : Prop :=
  ∀ (s : State) (i : Instr), s.block.phase ≠ .faulted → s.block.fault = .none →
    s.block.pend ≠ 0 → i.stoppedByStream = true →
    (i.isDrawing = true → s.block.phase = .ready) →
    exec i s = .next (stopped s .windowUnderrun i.hostTag)

/-- A window outside the panel, or with a start after its end, is `BAD_WINDOW` (R80); more words than
the window has left is `WINDOW_OVERRUN` (R81); both before any event. -/
def Obligations.BadWindowsAndOverrunsFault : Prop :=
  (∀ (s : State) (x0 y0 x1 y1 : Word), s.block.phase = .ready → s.block.fault = .none →
    s.block.pend = 0 →
    ¬(0 ≤ x0.toInt ∧ x0.toInt ≤ x1.toInt ∧ x1.toInt ≤ (s.cfg.panelW : Int) - 1
      ∧ 0 ≤ y0.toInt ∧ y0.toInt ≤ y1.toInt ∧ y1.toInt ≤ (s.cfg.panelH : Int) - 1) →
    exec (.setWindow x0 y0 x1 y1) s = .next (stopped s .badWindow 0x10))
  ∧ (∀ (s : State) (pixels : List Half), s.block.phase = .ready → s.block.fault = .none →
    s.block.pend.toNat < pixels.length →
    exec (.pushPixels pixels) s = .next (stopped s .windowOverrun 0x11))

/-- Scale 0 is `BAD_SCALE` for the four operations that have one, with no event and no result (R93 to
R96). -/
def Obligations.ZeroScaleFaults : Prop :=
  (∀ (s : State), s.block.phase ≠ .faulted → s.block.fault = .none →
    exec (.charSize 0) s = .next (stopped s .badScale 0x20)
      ∧ ∀ text, exec (.textWidth 0 text) s = .next (stopped s .badScale 0x23))
  ∧ (∀ (s : State) (x y : Word) (fg bg : Half), s.block.phase = .ready → s.block.fault = .none →
    s.block.pend = 0 →
    (∀ ch, exec (.drawChar ch x y fg bg 0) s = .next (stopped s .badScale 0x21))
      ∧ ∀ text, exec (.drawText x y fg bg 0 text) s = .next (stopped s .badScale 0x22))

/-- A failing bus: where an operation would have sent `es` on a healthy bus, it appends a prefix of `es`
and raises `BUS_FAULT`; the block's other registers keep their values from before (R121). The block's
reset that comes inside an operation also leaves a prefix of its events, and is then the next input
(R123). The model's choices in this: a draw of `k` at or past the last event still faults (assumption
log 3), the lines stay where the prefix ended (log 28), and the reset is taken once the sink has
taken the prefix (log 11). -/
def Obligations.FailingBusSendsAPrefix : Prop :=
  ∀ (s t : State) (i : Instr) (es : List BusEvent) (k : Nat),
    i.isHostOp = true →
    (∀ ds : List (Option Nat), s.block.fault = .none → es ≠ [] →
      exec i { s with busDraws := none :: ds } = .next t → t.trace = s.trace ++ es →
      exec i { s with busDraws := some k :: ds } = .next
        { stopped s .busFault i.hostTag with
          trace := s.trace ++ es.take k
          lines := driveLines s.lines (es.take k)
          busDraws := ds })
    ∧ (∀ words : List Word, HostTurn s →
      s.host.inputs[s.host.pos]? = some (.operationCut words k) → decodeDescriptor words = .ok i →
      exec i { s with
        host := { s.host with pos := s.host.pos + 1 }, busDraws := none :: s.busDraws } = .next t →
      t.trace = s.trace ++ es →
      ∃ h : HostSide, h.inputs[h.pos]? = some .resetBlock ∧ h.pos = s.host.pos + 1
        ∧ h.inputs.drop (h.pos + 1) = s.host.inputs.drop (s.host.pos + 1)
        ∧ step s = .next { s with
          host := h
          trace := s.trace ++ es.take k
          lines := driveLines s.lines (es.take k) })

/-! ## What each host operation does -/

/-- SEND_CMD and SEND_CMD_PARAMS send one command frame with the bytes as given, and clear `WIN_VALID` for
SWRESET, CASET and RASET only; no other register changes (R68, R69, R70). -/
def Obligations.SendCommandsResult : Prop :=
  ∀ (s : State) (op : Byte) (params : List Byte), CanEmit s →
    exec (.sendCmdParams op params) s = .next
      (sent s ([.csAssert, .cmd op] ++ params.map .dat ++ [.csRelease])
        { s.block with winValid := s.block.winValid
            && !(op == s.cfg.opSwreset || op == s.cfg.opCaset || op == s.cfg.opRaset) })
    ∧ exec (.sendCmd op) s = exec (.sendCmdParams op []) s

/-- INIT sends the whole of `INIT_SEQ`, a command frame or a delay a step, in order, then is `READY` with
no valid window; it runs so in `READY` too (R72). -/
def Obligations.InitResult : Prop :=
  ∀ (s : State), CanEmit s → s.cfg.initSeq ≠ [] →
    exec .init s = .next
      (sent s
        (s.cfg.initSeq.flatMap fun
          | .command op params => [.csAssert, .cmd op] ++ params.map .dat ++ [.csRelease]
          | .wait ms => [.delay ms])
        { s.block with phase := .ready, winValid := false })

/-- BACKLIGHT writes `BL` in every phase and whatever stream is open, and nothing else: no event. The line
is then at `on`, or at its complement where the line is active low (R73, R19). -/
def Obligations.BacklightResult : Prop :=
  ∀ (s : State) (on : Bool),
    exec (.backlight on) s = .next { s with block := { s.block with bl := on } }
    ∧ backlightLine { s with block := { s.block with bl := on } }
        = if s.cfg.blActiveHigh then on else !on

/-- SET_WINDOW with bounds inside the panel sends the window set-up, records the window and owes
`(x1-x0+1)*(y1-y0+1)` words (R74, R80, R54). -/
def Obligations.SetWindowResult : Prop :=
  ∀ (s : State) (x0 y0 x1 y1 : Word), CanDraw s → s.cfg.panelFits →
    0 ≤ x0.toInt → x0.toInt ≤ x1.toInt → x1.toInt ≤ (s.cfg.panelW : Int) - 1 →
    0 ≤ y0.toInt → y0.toInt ≤ y1.toInt → y1.toInt ≤ (s.cfg.panelH : Int) - 1 →
    exec (.setWindow x0 y0 x1 y1) s = .next
      (sent s (setupEvents s.cfg x0.toNat y0.toNat x1.toNat y1.toNat)
        (withWindow s.block ⟨x0.toNat, y0.toNat, x1.toNat, y1.toNat⟩
          (Window.area ⟨x0.toNat, y0.toNat, x1.toNat, y1.toNat⟩)))

/-- PUSH_PIXELS streams its words in one data frame, high byte first, and owes so many fewer; an empty
list sends nothing and changes nothing (R81, R75, R55). -/
def Obligations.PushPixelsResult : Prop :=
  ∀ (s : State) (pixels : List Half), s.block.phase = .ready →
    pixels.length ≤ s.block.pend.toNat →
    (pixels ≠ [] → BusHealthy s →
      exec (.pushPixels pixels) s = .next
        (sent s (pixelEvents pixels)
          { s.block with pend := BitVec.ofNat 32 (s.block.pend.toNat - pixels.length) }))
    ∧ (pixels = [] → exec (.pushPixels pixels) s = .next s)

/-- FILL_RECT, for every rectangle: the window of its intersection with the panel and one word of the
colour for each cell of it; where the intersection is empty nothing at all happens (R78, R79, R82). -/
def Obligations.FillRectResult : Prop :=
  ∀ (s : State) (x y w h : Word) (color : Half), s.cfg.panelFits →
    (CanDraw s → ∀ win, fillWindow s.cfg x.toInt y.toInt w.toInt h.toInt = some win →
      exec (.fillRect x y w h color) s = .next
        (sent s (paintEvents s.cfg (some win) (solid color)) (withWindow s.block win 0)))
    ∧ (s.block.phase = .ready → s.block.pend = 0 →
      fillWindow s.cfg x.toInt y.toInt w.toInt h.toInt = none →
      exec (.fillRect x y w h color) s = .next s)

/-- FILL_SCREEN, HLINE and VLINE do exactly what FILL_RECT does with the whole panel, with height 1 and
with width 1, and each of them completes (R84, R85, R86). -/
def Obligations.DegenerateFillsAreFillRects : Prop :=
  ∀ (s : State) (x y len : Word) (color : Half), CanDraw s → s.cfg.panelFits →
    (∃ t, exec (.fillScreen color) s = .next t
      ∧ exec (.fillRect 0 0 (BitVec.ofNat 32 s.cfg.panelW) (BitVec.ofNat 32 s.cfg.panelH) color) s
          = .next t)
    ∧ (∃ t, exec (.hline x y len color) s = .next t
      ∧ exec (.fillRect x y len 1 color) s = .next t)
    ∧ (∃ t, exec (.vline x y len color) s = .next t
      ∧ exec (.fillRect x y 1 len color) s = .next t)

/-- ROUND_RECT draws its four bars in the order top, bottom, left, right, each clipped on its own, an
empty one sending nothing; the record is the last non-empty bar's window (R87). -/
def Obligations.RoundRectDrawsFourBars : Prop :=
  ∀ (s : State) (x y w h : Word) (color : Half) (t : Word), s.cfg.panelFits →
    let wins := barWindows s.cfg x.toInt y.toInt w.toInt h.toInt t.toInt
    (CanDraw s → (∃ win ∈ wins, win ≠ none) →
      exec (.roundRect x y w h color t) s = .next
        (sent s (wins.flatMap fun win => paintEvents s.cfg win (solid color))
          (paintAllRegs wins s.block)))
    ∧ (s.block.phase = .ready → s.block.pend = 0 → (∀ win ∈ wins, win = none) →
      exec (.roundRect x y w h color t) s = .next s)

/-- ROUND_RECT taken through to the pixels: after the sink's steps the cells of the panel that lie in one
of the four bars hold the colour, and no other cell has changed. So no cell of the four inset × inset
corner squares has, whatever the thickness and however the bars are clipped (R87). -/
def Obligations.RoundRectLeavesItsCorners : Prop :=
  ∀ (s : State) (x y w h : Word) (color : Half) (t : Word), CanDraw s → s.taken = s.trace.length →
    s.panel.fault = .none → s.panel.settle = none → closingCheck s.panel = none →
    s.panel.madctl = some s.cfg.madctlLandscape → s.panel.colmod = some s.cfg.colmod16bpp →
    s.cfg.namedDistinct → s.cfg.panelFits →
    let b : Int := s.cfg.borderInset
    ∃ u n v, exec (.roundRect x y w h color t) s = .next u ∧ Host.Core.run core n u = .next v
      ∧ v.taken = v.trace.length ∧ v.trace = u.trace ∧ v.panel.fault = .none
      ∧ (∀ i j : Half, gramRead v.panel.gram (gramKey i j) =
          if (i.toNat < s.cfg.panelW ∧ j.toNat < s.cfg.panelH)
              ∧ (inBox (x.toInt + b) y.toInt (w.toInt - 2 * b) t.toInt i j
                ∨ inBox (x.toInt + b) (y.toInt + h.toInt - t.toInt) (w.toInt - 2 * b) t.toInt i j
                ∨ inBox x.toInt (y.toInt + b) t.toInt (h.toInt - 2 * b) i j
                ∨ inBox (x.toInt + w.toInt - t.toInt) (y.toInt + b) t.toInt (h.toInt - 2 * b) i j)
          then some color else gramRead s.panel.gram (gramKey i j))
      ∧ (∀ i j : Half,
          inBox x.toInt y.toInt b b i j ∨ inBox (x.toInt + w.toInt - b) y.toInt b b i j
            ∨ inBox x.toInt (y.toInt + h.toInt - b) b b i j
            ∨ inBox (x.toInt + w.toInt - b) (y.toInt + h.toInt - b) b b i j →
          gramRead v.panel.gram (gramKey i j) = gramRead s.panel.gram (gramKey i j))

/-- `Clip`'s corners are those of the rule, in exact arithmetic, and its rectangle is the intersection with
the panel: a cell lies in it exactly when it lies in the requested rectangle and on the panel. It is
empty exactly when no cell does, and so for every size that is not positive (R78). -/
def Obligations.ClipIsTheIntersection : Prop :=
  ∀ (c : Config) (x y w h : Int),
    ((clip c x y w h).cx0 = max x 0 ∧ (clip c x y w h).cy0 = max y 0
      ∧ (clip c x y w h).cx1 = min (x + w) c.panelW ∧ (clip c x y w h).cy1 = min (y + h) c.panelH)
    ∧ (w ≤ 0 ∨ h ≤ 0 → (clip c x y w h).empty = true)
    ∧ (∀ px py : Int,
      ((clip c x y w h).cx0 ≤ px ∧ px < (clip c x y w h).cx1
        ∧ (clip c x y w h).cy0 ≤ py ∧ py < (clip c x y w h).cy1)
      ↔ (x ≤ px ∧ px < x + w ∧ y ≤ py ∧ py < y + h
        ∧ 0 ≤ px ∧ px < c.panelW ∧ 0 ≤ py ∧ py < c.panelH))
    ∧ ((clip c x y w h).empty = true
      ↔ ¬∃ px py : Int, x ≤ px ∧ px < x + w ∧ y ≤ py ∧ py < y + h
        ∧ 0 ≤ px ∧ px < c.panelW ∧ 0 ≤ py ∧ py < c.panelH)

/-- Bursts do not show: the pixel words of a fill are the same whatever `CHUNK_PIXELS` is, and no burst
is larger than it (R7, R76). -/
def Obligations.BurstsDoNotShow : Prop :=
  ∀ (c : Config) (n : Nat) (color : Half),
    fillPixels c n color = List.replicate n color
    ∧ (0 < c.chunkPixels → ∀ k ∈ bursts c.chunkPixels n, 0 < k ∧ k ≤ c.chunkPixels)

/-- COLOR565 writes the top 5, 6 and 5 bits of red, green and blue, side by side with red highest, to
`RES0`, in `UNINIT` and while a stream is open too; no event, nothing else (R88, R56). -/
def Obligations.ColorPackingResult : Prop :=
  ∀ (s : State) (r g b : Byte), s.block.phase ≠ .faulted →
    exec (.color565 r g b) s = .next { s with block := { s.block with
      res0 := some (BitVec.ofNat 32
        (r.toNat / 8 * 2048 + g.toNat / 4 * 32 + b.toNat / 8)) } }

/-- CHAR_SIZE and TEXT_WIDTH write 16·scale, and the number of codes times 16·scale, exactly; no event,
nothing else (R93, R96). -/
def Obligations.SizeAndWidthResults : Prop :=
  ∀ (s : State) (scale : Byte), s.block.phase ≠ .faulted → scale ≠ 0 →
    (∃ v : Word, v.toNat = 16 * scale.toNat
      ∧ exec (.charSize scale) s
          = .next { s with block := { s.block with res0 := some v, res1 := some v } })
    ∧ ∀ text : List Byte, text.length ≤ 65535 →
      ∃ v : Word, v.toNat = text.length * 16 * scale.toNat
        ∧ exec (.textWidth scale text) s = .next { s with block := { s.block with res0 := some v } }

/-- `GlyphRead` gives the ROM's row where the code has a glyph, and the space glyph's row where it has
none (R38). -/
def Obligations.GlyphLookupFallsBackToSpace : Prop :=
  ∀ (rom : GlyphRom) (code : Byte) (r : Fin 16),
    (∀ g rest before, code ≠ 0x20 → rom.others = before ++ (code, g) :: rest →
      (∀ e ∈ before, e.1 ≠ code) → glyphRead rom code r = g.get r)
    ∧ (code = 0x20 ∨ (∀ e ∈ rom.others, e.1 ≠ code) → glyphRead rom code r = rom.space.get r)

/-- DRAW_CHAR sends one window for the scaled box and its 256·scale² pixels, pixel (i, j) the foreground
exactly where bit 15 - (i div scale) of row (j div scale) is 1; a box that does not fit is skipped
whole (R89, R90, R91, R94). -/
def Obligations.DrawCharResult : Prop :=
  ∀ (s : State) (ch : Byte) (x y : Word) (fg bg : Half) (scale : Byte), scale ≠ 0 → s.cfg.panelFits →
    (CanDraw s → ∀ win, glyphWindow s.cfg x.toInt y.toInt scale.toNat = some win →
      exec (.drawChar ch x y fg bg scale) s = .next
        (sent s
          (setupEvents s.cfg win.x0 win.y0 win.x1 win.y1
            ++ pixelEvents (glyphPixelList s.cfg.glyphRom ch fg bg scale.toNat))
          (withWindow s.block win 0)))
    ∧ (s.block.phase = .ready → s.block.pend = 0 →
      glyphWindow s.cfg x.toInt y.toInt scale.toNat = none →
      exec (.drawChar ch x y fg bg scale) s = .next s)

/-- DRAW_TEXT draws character k at x + k·16·scale, each drawn or skipped on its own, with no wrapping
(R95). -/
def Obligations.DrawTextResult : Prop :=
  ∀ (s : State) (x y : Word) (fg bg : Half) (scale : Byte) (text : List Byte), scale ≠ 0 →
    s.cfg.panelFits →
    let win := fun k : Nat => glyphWindow s.cfg (x.toInt + k * 16 * scale.toNat) y.toInt scale.toNat
    (CanDraw s → (∃ k < text.length, win k ≠ none) →
      exec (.drawText x y fg bg scale text) s = .next
        (sent s
          ((text.zipIdx).flatMap fun chk =>
            paintEvents s.cfg (win chk.2)
              (fun _ => glyphPixelList s.cfg.glyphRom chk.1 fg bg scale.toNat))
          (paintAllRegs ((List.range text.length).map win) s.block)))
    ∧ (s.block.phase = .ready → s.block.pend = 0 → (∀ k < text.length, win k = none) →
      exec (.drawText x y fg bg scale text) s = .next s)

/-- A reserved descriptor raises `ILLEGAL_OP` with its header's low byte as the tag, and emits nothing
(R66, R119). -/
def Obligations.ReservedDescriptorFaults : Prop :=
  ∀ (s : State) (h : Word) (ws : List Word), s.block.phase ≠ .faulted → s.block.fault = .none →
    exec (.reservedHostTag h ws) s
      = .next (stopped s .illegalOp (BitVec.ofNat 8 (h.toNat % 256)))

/-- An operation's events depend on its operands and the parameters alone: from any two states of one
configuration in which the block may draw, it sends the same events (R92; "no hidden state"). -/
def Obligations.SameOperationSendsTheSameEvents : Prop :=
  ∀ (s t s' t' : State) (i : Instr), i.isHostOp = true → s.cfg = t.cfg →
    CanDraw s → CanDraw t → exec i s = .next s' → exec i t = .next t' →
    ∃ es, s'.trace = s.trace ++ es ∧ t'.trace = t.trace ++ es

/-! ## What each panel command does -/

/-- SWRESET, SLPOUT and DISPON at a sink that accepts a command (R103, R104, R105). -/
def Obligations.ParameterlessCommandResults : Prop :=
  ∀ (s : State), PanelAccepts s.panel →
    exec .swreset s = .next { s with panel := { s.panel with
        sc := none, ec := none, sp := none, ep := none, cx := none, cy := none, remain := 0
        half := none, sleep := some true, dispOn := some false, madctl := none, colmod := none
        gram := [], settle := some 0, mode := .idle } }
    ∧ exec .slpout s = .next { s with panel := { s.panel with
        sleep := some false, settle := some 0, mode := .idle } }
    ∧ exec .dispon s = .next { s with panel := { s.panel with dispOn := some true, mode := .idle } }

/-- The command bytes that collect data bytes open their command and change nothing else (R106, R107,
R110, R111, R112); an unmodelled byte sets the refusal mark and opens `DISCARD` (R113). -/
def Obligations.OpeningCommandResults : Prop :=
  ∀ (s : State) (op : Byte), PanelAccepts s.panel →
    exec .caset s = .next { s with panel := { s.panel with mode := .params .caset [] } }
    ∧ exec .raset s = .next { s with panel := { s.panel with mode := .params .raset [] } }
    ∧ exec .madctl s = .next { s with panel := { s.panel with mode := .params .madctl [] } }
    ∧ exec .colmod s = .next { s with panel := { s.panel with mode := .params .colmod [] } }
    ∧ exec (.vendor op) s = .next { s with panel := { s.panel with mode := .params (.vendor op) [] } }
    ∧ exec (.unmodelled op) s
        = .next { s with panel := { s.panel with refused := true, mode := .discard } }

/-- RAMWR loads the counter with the window's start and `P_REMAIN` with its size, in the configured
orientation and colour mode; with no window, or in another mode, it sets the refusal mark and
writes nothing (R108). -/
def Obligations.MemoryWriteResult : Prop :=
  ∀ (s : State), PanelAccepts s.panel → PanelInv s.cfg s.panel → s.cfg.panelFits →
    (∀ sc ec sp ep : Half, s.panel.sc = some sc → s.panel.ec = some ec → s.panel.sp = some sp →
      s.panel.ep = some ep → s.panel.madctl = some s.cfg.madctlLandscape →
      s.panel.colmod = some s.cfg.colmod16bpp →
      exec .ramwr s = .next { s with panel := { s.panel with
        cx := some sc, cy := some sp
        remain := BitVec.ofNat 32 ((ec.toNat - sc.toNat + 1) * (ep.toNat - sp.toNat + 1))
        half := none, mode := .memWrite } })
    ∧ (s.panel.sc = none ∨ s.panel.sp = none ∨ s.panel.madctl ≠ some s.cfg.madctlLandscape
        ∨ s.panel.colmod ≠ some s.cfg.colmod16bpp →
      exec .ramwr s = .next { s with panel := { s.panel with refused := true, mode := .discard } })

/-- CASET and RASET with their four bytes, high byte first: the range is taken where it is in order and
inside the panel, and is `P_BAD_RANGE` otherwise, leaving the old range (R106, R107, R102). What
`P_MODE` a faulted range leaves is not said here (assumption log 12). -/
def Obligations.RangeCommandsApply : Prop :=
  ∀ (s : State) (st en : Half), PanelAccepts s.panel → s.cfg.namedDistinct →
    (∀ rest, pending s = .cmd s.cfg.opCaset :: (beBytes st.toNat ++ beBytes en.toNat).map .dat ++ rest →
      (st.toNat ≤ en.toNat → en.toNat < s.cfg.panelW →
        Host.Core.run core 5 s = .next { s with
          taken := s.taken + 5
          panel := { s.panel with sc := some st, ec := some en, mode := .idle } })
      ∧ (en.toNat < st.toNat ∨ s.cfg.panelW ≤ en.toNat → ∃ m, Host.Core.run core 5 s = .next { s with
          taken := s.taken + 5
          panel := { s.panel with fault := .badRange, mode := m } }))
    ∧ (∀ rest, pending s = .cmd s.cfg.opRaset :: (beBytes st.toNat ++ beBytes en.toNat).map .dat ++ rest →
      (st.toNat ≤ en.toNat → en.toNat < s.cfg.panelH →
        Host.Core.run core 5 s = .next { s with
          taken := s.taken + 5
          panel := { s.panel with sp := some st, ep := some en, mode := .idle } })
      ∧ (en.toNat < st.toNat ∨ s.cfg.panelH ≤ en.toNat → ∃ m, Host.Core.run core 5 s = .next { s with
          taken := s.taken + 5
          panel := { s.panel with fault := .badRange, mode := m } }))

/-- MADCTL and COLMOD with their byte take any byte; a vendor command takes any number of bytes and
changes nothing but `P_MODE` (R110, R111, R112). The vendor clause is no fact of the panel: that such a
command has no effect is the spec's own assumption (R112; assumption log 18), and that `vendorApart` lets
the set hold a sleep-in byte, which R131 bars, is the model's choice (assumption log 33). -/
def Obligations.ModeAndVendorCommandsApply : Prop :=
  ∀ (s : State), PanelAccepts s.panel → s.cfg.namedDistinct → s.cfg.vendorApart →
    (∀ d rest, pending s = .cmd s.cfg.opMadctl :: .dat d :: rest →
      Host.Core.run core 2 s = .next { s with
        taken := s.taken + 2, panel := { s.panel with madctl := some d, mode := .idle } })
    ∧ (∀ d rest, pending s = .cmd s.cfg.opColmod :: .dat d :: rest →
      Host.Core.run core 2 s = .next { s with
        taken := s.taken + 2, panel := { s.panel with colmod := some d, mode := .idle } })
    ∧ (∀ op bytes rest, op ∈ s.cfg.vendorOpaque →
      pending s = .cmd op :: bytes.map .dat ++ rest →
      Host.Core.run core (1 + bytes.length) s = .next { s with
        taken := s.taken + (1 + bytes.length)
        panel := { s.panel with mode := .params (.vendor op) bytes } })

/-- The checks on a command byte, in the order of R124: CS not asserted, not settled, then the command
it would cut off. Nothing but `P_FAULT` changes, for every command (R98, R100, R101, R124). -/
def Obligations.CommandByteChecks : Prop :=
  ∀ (s : State) (i : Instr), i.isHostOp = false → s.panel.fault = .none →
    (s.panel.cs = false →
      exec i s = .next { s with panel := { s.panel with fault := .noCs } })
    ∧ (s.panel.cs = true → s.panel.settle ≠ none →
      exec i s = .next { s with panel := { s.panel with fault := .settleViolation } })
    ∧ (s.panel.cs = true → s.panel.settle = none →
      (∀ op bytes n, s.panel.mode = .params op bytes → paramCount op = some n →
        exec i s = .next { s with panel := { s.panel with fault := .badParams } })
      ∧ (s.panel.mode = .memWrite → s.panel.half ≠ none →
        exec i s = .next { s with panel := { s.panel with fault := .oddByte } })
      ∧ (s.panel.mode = .memWrite → s.panel.half = none → s.panel.remain ≠ 0 →
        exec i s = .next { s with panel := { s.panel with fault := .underrun } }))

/-- The checks on a data byte: CS, settling, no open command, a filled window; in `DISCARD` it is
absorbed (R98, R100, R102, R109, R114). -/
def Obligations.DataByteChecks : Prop :=
  ∀ (s : State) (d : Byte), s.panel.fault = .none → s.trace[s.taken]? = some (.dat d) →
    let after (code : PanelFault) : State :=
      { s with taken := s.taken + 1, panel := { s.panel with fault := code } }
    (s.panel.cs = false → step s = .next (after .noCs))
    ∧ (s.panel.cs = true → s.panel.settle ≠ none → step s = .next (after .settleViolation))
    ∧ (s.panel.cs = true → s.panel.settle = none →
      (s.panel.mode = .idle → step s = .next (after .badParams))
      ∧ (s.panel.mode = .discard → step s = .next { s with taken := s.taken + 1 })
      ∧ (s.panel.mode = .memWrite → s.panel.half = none → s.panel.remain = 0 →
        step s = .next (after .overrun)))

/-- Two pixel bytes in an unfilled memory write put their word, high byte first, in the cell under the
address counter and in no other, and move the counter on in raster order (R109, R39). The sink need
only satisfy its invariant. -/
def Obligations.PixelWordWritesItsCell : Prop :=
  ∀ (s : State) (v : Half) (cx cy sc ec : Half) (rest : List BusEvent), PanelTakesData s.panel →
    PanelInv s.cfg s.panel → s.cfg.panelFits → s.panel.mode = .memWrite → s.panel.half = none →
    s.panel.remain ≠ 0 →
    s.panel.cx = some cx → s.panel.cy = some cy → s.panel.sc = some sc → s.panel.ec = some ec →
    pending s = (beBytes v.toNat).map .dat ++ rest →
    ∃ g, Host.Core.run core 2 s = .next { s with
        taken := s.taken + 2
        panel := { s.panel with
          gram := g
          remain := s.panel.remain - 1
          cx := if cx = ec then some sc else some (cx + 1)
          cy := if cx = ec then some (cy + 1) else some cy } }
      ∧ gramRead g (gramKey cx cy) = some v
      ∧ ∀ x y : Half, (x ≠ cx ∨ y ≠ cy) →
          gramRead g (gramKey x y) = gramRead s.panel.gram (gramKey x y)

/-! ## The whole machine -/

/-- No step changes a parameter, the glyph ROM or `INIT_SEQ` (R51). -/
def Obligations.StepKeepsTheParameters : Prop :=
  ∀ (s t : State), step s = .next t → t.cfg = s.cfg

/-- The block and the panel do not touch each other: a host operation leaves the whole panel sink, its
GRAM and its place in the trace as they are, and a step of the sink leaves the block, its lines, the
trace and the host as they are (R37, R39, R21). -/
def Obligations.BlockAndPanelAreApart : Prop :=
  (∀ (i : Instr) (s t : State), i.isHostOp = true → exec i s = .next t →
    t.panel = s.panel ∧ t.taken = s.taken ∧ t.host = s.host)
  ∧ (∀ (s t : State) (e : BusEvent), s.panel.fault = .none → s.trace[s.taken]? = some e →
    step s = .next t →
    t.block = s.block ∧ t.lines = s.lines ∧ t.trace = s.trace ∧ t.host = s.host
      ∧ t.busDraws = s.busDraws ∧ t.taken = s.taken + 1)

/-- INIT is the only way to `READY` (R15, R134). -/
def Obligations.OnlyInitMakesReady : Prop :=
  ∀ (s t : State), step s = .next t → t.block.phase = .ready → s.block.phase ≠ .ready →
    ∃ inp, s.host.inputs[s.host.pos]? = some inp
      ∧ (inp = .operation [0x00000003] ∨ inp = .operationBytes [0, 0, 0, 3])

/-- `FAULTED` lasts until the block's reset, which clears the code and the tag of the fault: until then no
step writes the block but for `BL`, raises another fault, or emits an event (R120, R16). -/
def Obligations.FaultLastsUntilReset : Prop :=
  ∀ (s t : State), step s = .next t → s.block.phase = .faulted →
    (t.block = { s.block with bl := t.block.bl } ∧ t.trace = s.trace ∧ t.lines = s.lines)
    ∨ (s.host.inputs[s.host.pos]? = some .resetBlock
      ∧ t.block.phase = .uninit ∧ t.block.fault = .none ∧ t.block.faultTag = 0)

/-- The sink's fault and the refusal mark are sticky: nothing but the panel's power-on clears them, not
even SWRESET (R34, R124, R125). The power-on sets every field of the sink as R36 says, and changes
nothing of the block (R133); where in the trace the sink then stands is left open (assumption
log 15). -/
def Obligations.PanelMarksAreSticky : Prop :=
  (∀ (s t : State), step s = .next t →
    ((s.panel.fault ≠ .none → t.panel.fault = s.panel.fault)
      ∧ (s.panel.refused = true → t.panel.refused = true))
    ∨ (HostTurn s ∧ s.host.inputs[s.host.pos]? = some .powerOnPanel ∧ ∃ k, t = poweredOn s k))
  ∧ (∀ s : State, HostTurn s → s.host.inputs[s.host.pos]? = some .powerOnPanel →
    ∃ k, step s = .next (poweredOn s k))

/-- The trace only grows, but for the block's reset, which empties it (R23, R132). -/
def Obligations.TraceOnlyGrows : Prop :=
  ∀ (s t : State), step s = .next t →
    (∃ es, t.trace = s.trace ++ es)
    ∨ (s.host.inputs[s.host.pos]? = some .resetBlock ∧ t.trace = [])

/-- The machine after reset meets the invariant, and its parameters meet what R60 and R71 demand of them:
distinct opcodes apart from the vendor set (R60), and an `INIT_SEQ` under the seven constraints, with the
default waits of exactly `SETTLE_MS` (R71). What R131 demands of the vendor set, no sleep-in opcode, is
not said here, since the spec gives that opcode no byte (assumption log 33). That the machine after reset
has these parameters (assumption log 2; the opcode bytes are the spec's from general knowledge,
assumption log 19) and these values in the model's own fields (assumption log 10) is the model's choice. -/
def Obligations.ResetMeetsInvariant : Prop :=
  Inv State.reset
    ∧ State.reset.cfg.namedDistinct ∧ State.reset.cfg.vendorApart ∧ State.reset.cfg.settleFits
    ∧ State.reset.cfg.initSeqLegal
    ∧ State.reset.cfg.initSeq.take 4
        = [.command 0x01 [], .wait 200, .command 0x11 [], .wait 200]
    ∧ State.reset.cfg.initSeq.getLast? = some (.command 0x29 [])

/-- Every step keeps the block's part of the invariant: fault status and phase agree, a recorded window
is one of the panel's, and what is owed is owed to it (R15 to R18). -/
def Obligations.StepKeepsBlockInvariant : Prop :=
  ∀ (s t : State), s.cfg.panelFits → BlockInv s.cfg s.block → step s = .next t →
    BlockInv t.cfg t.block

/-- Every step keeps the panel sink's part of the invariant: ranges inside the panel, the address counter
inside the window with exactly what raster order has left, GRAM in canonical form inside the grid
(R26 to R35, R109). -/
def Obligations.StepKeepsPanelInvariant : Prop :=
  ∀ (s t : State), s.cfg.panelFits → PanelInv s.cfg s.panel → step s = .next t →
    PanelInv t.cfg t.panel

/-- Every step keeps the whole invariant, the trace's framing with it: whole frames with one command or
only data, nothing but delays between them, CS asserted under every byte, so the block never makes the
sink raise `P_NO_CS` (R52, R98). The lines follow the events, so a trace that a failed bus or a reset
stops inside a frame leaves them there: the model's choice (assumption log 28). -/
def Obligations.StepKeepsInvariant : Prop :=
  ∀ (s t : State), Inv s → step s = .next t → Inv t

/-- In states with the invariant a step stops only as the spec says: where the sink is stuck and the host
has no input left (R97, R124). No operation, command, event or host read stops or is refused. That a
stuck sink stops the machine only then is the model's reading (assumption log 13). -/
def Obligations.InvariantStatesStopOnlyAsSpecified : Prop :=
  ∀ (s : State), Inv s →
    (∀ r, step s ≠ .refused r)
    ∧ ∀ f, step s = .fault f ↔
      f = .panelStuck ∧ s.panel.fault ≠ .none ∧ s.host.inputs[s.host.pos]? = none

/-- How far the sink lags behind does not matter: a host operation and the sink's next event commute,
with the same state in the end (R48). -/
def Obligations.SinkLagDoesNotMatter : Prop :=
  ∀ (s u v : State) (i : Instr) (e : BusEvent), i.isHostOp = true →
    s.trace[s.taken]? = some e → s.panel.fault = .none →
    consume e (takeEvent s) = .next u → exec i s = .next v →
    ∃ w, exec i u = .next w ∧ v.trace[v.taken]? = some e ∧ consume e (takeEvent v) = .next w

/-! ## From an operation to the pixels -/

/-- A whole window's stream at the panel: after the set-up of a window inside the panel and its pixels, the
sink has filled the window in raster order, left to right and top to bottom, and written no other
cell (R74, R75, R106 to R109). -/
def Obligations.StreamFillsItsWindowInRasterOrder : Prop :=
  ∀ (s : State) (win : Window) (pixels : List Half), s.panel.fault = .none → s.panel.settle = none →
    closingCheck s.panel = none → s.panel.madctl = some s.cfg.madctlLandscape →
    s.panel.colmod = some s.cfg.colmod16bpp → s.cfg.namedDistinct → s.cfg.panelFits →
    win.x0 ≤ win.x1 → win.x1 < s.cfg.panelW → win.y0 ≤ win.y1 → win.y1 < s.cfg.panelH →
    pixels.length = win.area →
    pending s = setupEvents s.cfg win.x0 win.y0 win.x1 win.y1 ++ pixelEvents pixels →
    ∃ n t, Host.Core.run core n s = .next t ∧ t.taken = t.trace.length ∧ t.trace = s.trace
      ∧ t.block = s.block ∧ t.panel.fault = .none ∧ t.panel.refused = s.panel.refused
      ∧ t.panel.mode = .memWrite ∧ t.panel.remain = 0 ∧ t.panel.half = none
      ∧ ∀ x y : Half, gramRead t.panel.gram (gramKey x y) =
          if win.x0 ≤ x.toNat ∧ x.toNat ≤ win.x1 ∧ win.y0 ≤ y.toNat ∧ y.toNat ≤ win.y1 then
            pixels[(y.toNat - win.y0) * (win.x1 - win.x0 + 1) + (x.toNat - win.x0)]?
          else gramRead s.panel.gram (gramKey x y)

/-- FILL_RECT inside the panel, taken through to the pixels: it sends exactly w·h pixel words, all equal to
the colour, into the window (x, y, x+w-1, y+h-1), and after the sink's steps `GRAM[i][j]` = color for
every cell of the rectangle, and no other cell has changed (R83). -/
def Obligations.FillRectPaintsExactlyItsRectangle : Prop :=
  ∀ (s : State) (x y w h : Word) (color : Half), CanDraw s → s.taken = s.trace.length →
    s.panel.fault = .none → s.panel.settle = none → closingCheck s.panel = none →
    s.panel.madctl = some s.cfg.madctlLandscape → s.panel.colmod = some s.cfg.colmod16bpp →
    s.cfg.namedDistinct → s.cfg.panelFits →
    0 ≤ x.toInt → 0 ≤ y.toInt → 1 ≤ w.toInt → 1 ≤ h.toInt →
    x.toInt + w.toInt ≤ s.cfg.panelW → y.toInt + h.toInt ≤ s.cfg.panelH →
    ∃ t n u, exec (.fillRect x y w h color) s = .next t
      ∧ t.trace = s.trace
          ++ (setupEvents s.cfg x.toNat y.toNat (x.toNat + w.toNat - 1) (y.toNat + h.toNat - 1)
            ++ pixelEvents (List.replicate (w.toNat * h.toNat) color))
      ∧ Host.Core.run core n t = .next u
      ∧ u.taken = u.trace.length ∧ u.trace = t.trace ∧ u.panel.fault = .none
      ∧ ∀ i j : Half, gramRead u.panel.gram (gramKey i j) =
          if x.toInt ≤ i.toNat ∧ (i.toNat : Int) < x.toInt + w.toInt
              ∧ y.toInt ≤ j.toNat ∧ (j.toNat : Int) < y.toInt + h.toInt then some color
          else gramRead s.panel.gram (gramKey i j)

/-- DRAW_CHAR whose box fits, taken through to the pixels: cell (x+i, y+j) of the box holds the foreground
where bit 15 - (i div scale) of the glyph's row (j div scale) is 1 and the background elsewhere, and
no other cell has changed (R90, R94, R109). -/
def Obligations.DrawCharPaintsExactlyItsGlyph : Prop :=
  ∀ (s : State) (ch : Byte) (x y : Word) (fg bg : Half) (scale : Byte), CanDraw s →
    s.taken = s.trace.length → s.panel.fault = .none → s.panel.settle = none →
    closingCheck s.panel = none → s.panel.madctl = some s.cfg.madctlLandscape →
    s.panel.colmod = some s.cfg.colmod16bpp → s.cfg.namedDistinct → s.cfg.panelFits → scale ≠ 0 →
    0 ≤ x.toInt → 0 ≤ y.toInt → x.toInt + 16 * scale.toNat ≤ s.cfg.panelW →
    y.toInt + 16 * scale.toNat ≤ s.cfg.panelH →
    ∃ t n u, exec (.drawChar ch x y fg bg scale) s = .next t ∧ Host.Core.run core n t = .next u
      ∧ u.taken = u.trace.length ∧ u.trace = t.trace ∧ u.panel.fault = .none
      ∧ (∀ i j : Nat, i < 16 * scale.toNat → j < 16 * scale.toNat →
          gramRead u.panel.gram
              (gramKey (BitVec.ofNat 16 (x.toNat + i)) (BitVec.ofNat 16 (y.toNat + j)))
            = some (if (glyphRead s.cfg.glyphRom ch (Fin.ofNat 16 (j / scale.toNat))).getLsbD
                (15 - i / scale.toNat) then fg else bg))
      ∧ ∀ px py : Half,
          ¬(x.toInt ≤ px.toNat ∧ (px.toNat : Int) < x.toInt + 16 * scale.toNat
            ∧ y.toInt ≤ py.toNat ∧ (py.toNat : Int) < y.toInt + 16 * scale.toNat) →
          gramRead u.panel.gram (gramKey px py) = gramRead s.panel.gram (gramKey px py)

/-- INIT brings the panel up from every state of the sink in which a command byte does not fault: no fault
yet, settled (R135), and no command a byte would cut off. After the sink has taken INIT's events it is
awake, on, in landscape and 16-bit colour, settled, with no window and an empty GRAM (R71, R72, R133,
R138). That the vendor commands in `INIT_SEQ` change none of this is the spec's own assumption (R112;
assumption log 18), and that none of them is a sleep-in opcode, which R131 bars and `vendorApart` does
not test, is the model's choice (assumption log 33). -/
def Obligations.InitBringsThePanelUp : Prop :=
  ∀ (s : State), CanEmit s → s.taken = s.trace.length → s.panel.fault = .none →
    s.panel.settle = none → closingCheck s.panel = none →
    s.cfg.namedDistinct → s.cfg.vendorApart → s.cfg.settleFits → s.cfg.initSeqLegal →
    ∃ t n u, exec .init s = .next t ∧ Host.Core.run core n t = .next u
      ∧ u.taken = u.trace.length ∧ u.trace = t.trace ∧ u.block = t.block
      ∧ u.panel = { s.panel with
          mode := .idle, sc := none, ec := none, sp := none, ep := none, cx := none, cy := none
          remain := 0, half := none, sleep := some false, dispOn := some true
          madctl := some s.cfg.madctlLandscape, colmod := some s.cfg.colmod16bpp
          settle := none, cs := false, gram := [] }

/-- The observation gives an image exactly when the host and the sink are done, neither agent has faulted,
the refusal mark is clear, nothing is owed and no memory write is short; it is shown exactly when the
panel is awake and on and the backlight is on too (R115). That this asks for no INIT, where step 3 of
R134 says that only after one an image is shown, is the model's choice between the two rules (assumption
log 34). -/
def Obligations.ImageExactlyWhenTheRunIsClean : Prop :=
  ∀ (s : State),
    (image s = some s.panel.gram ↔
      s.host.inputs.length ≤ s.host.pos ∧ s.trace.length ≤ s.taken
      ∧ s.block.fault = .none ∧ s.panel.fault = .none ∧ s.panel.refused = false ∧ s.block.pend = 0
      ∧ (s.panel.mode = .memWrite → s.panel.remain = 0 ∧ s.panel.half = none))
    ∧ (shown s = true ↔ image s = some s.panel.gram ∧ s.panel.sleep = some false
      ∧ s.panel.dispOn = some true ∧ s.block.bl = true)
end

