-- ==== Sys2Proof/Laws/State.lean ====
section
/-! SUPPORT. The small lemmas of the state's updates: one for each field an update sets or keeps, true by
`rfl`, so that no later proof unfolds a record update. -/

namespace Sys2Proof.Machine

/-! ### `raiseFault` -/

@[simp] theorem raiseFault_cfg (code : BlockFault) (tag : Byte) (s : State) : (raiseFault code tag s).cfg = s.cfg := rfl
@[simp] theorem raiseFault_host (code : BlockFault) (tag : Byte) (s : State) : (raiseFault code tag s).host = s.host := rfl
@[simp] theorem raiseFault_lines (code : BlockFault) (tag : Byte) (s : State) : (raiseFault code tag s).lines = s.lines := rfl
@[simp] theorem raiseFault_trace (code : BlockFault) (tag : Byte) (s : State) : (raiseFault code tag s).trace = s.trace := rfl
@[simp] theorem raiseFault_taken (code : BlockFault) (tag : Byte) (s : State) : (raiseFault code tag s).taken = s.taken := rfl
@[simp] theorem raiseFault_panel (code : BlockFault) (tag : Byte) (s : State) : (raiseFault code tag s).panel = s.panel := rfl
@[simp] theorem raiseFault_busDraws (code : BlockFault) (tag : Byte) (s : State) : (raiseFault code tag s).busDraws = s.busDraws := rfl

/-! ### `appendEvents` -/

@[simp] theorem appendEvents_cfg (es : List BusEvent) (s : State) : (appendEvents es s).cfg = s.cfg := rfl
@[simp] theorem appendEvents_host (es : List BusEvent) (s : State) : (appendEvents es s).host = s.host := rfl
@[simp] theorem appendEvents_block (es : List BusEvent) (s : State) : (appendEvents es s).block = s.block := rfl
@[simp] theorem appendEvents_lines (es : List BusEvent) (s : State) : (appendEvents es s).lines = driveLines s.lines es := rfl
@[simp] theorem appendEvents_trace (es : List BusEvent) (s : State) : (appendEvents es s).trace = s.trace ++ es := rfl
@[simp] theorem appendEvents_taken (es : List BusEvent) (s : State) : (appendEvents es s).taken = s.taken := rfl
@[simp] theorem appendEvents_panel (es : List BusEvent) (s : State) : (appendEvents es s).panel = s.panel := rfl
@[simp] theorem appendEvents_busDraws (es : List BusEvent) (s : State) : (appendEvents es s).busDraws = s.busDraws := rfl

/-! ### `resetBlock` -/

@[simp] theorem resetBlock_cfg (s : State) : (resetBlock s).cfg = s.cfg := rfl
@[simp] theorem resetBlock_host (s : State) : (resetBlock s).host = s.host := rfl
@[simp] theorem resetBlock_block (s : State) : (resetBlock s).block = Block.reset := rfl
@[simp] theorem resetBlock_lines (s : State) : (resetBlock s).lines = Lines.reset := rfl
@[simp] theorem resetBlock_trace (s : State) : (resetBlock s).trace = [] := rfl
@[simp] theorem resetBlock_taken (s : State) : (resetBlock s).taken = 0 := rfl
@[simp] theorem resetBlock_panel (s : State) : (resetBlock s).panel = s.panel := rfl
@[simp] theorem resetBlock_busDraws (s : State) : (resetBlock s).busDraws = s.busDraws := rfl

/-! ### `powerOnPanel` -/

@[simp] theorem powerOnPanel_cfg (s : State) : (powerOnPanel s).cfg = s.cfg := rfl
@[simp] theorem powerOnPanel_host (s : State) : (powerOnPanel s).host = s.host := rfl
@[simp] theorem powerOnPanel_block (s : State) : (powerOnPanel s).block = s.block := rfl
@[simp] theorem powerOnPanel_lines (s : State) : (powerOnPanel s).lines = s.lines := rfl
@[simp] theorem powerOnPanel_trace (s : State) : (powerOnPanel s).trace = s.trace := rfl
@[simp] theorem powerOnPanel_taken (s : State) : (powerOnPanel s).taken = s.trace.length := rfl
@[simp] theorem powerOnPanel_panel (s : State) : (powerOnPanel s).panel = Panel.powerOn := rfl
@[simp] theorem powerOnPanel_busDraws (s : State) : (powerOnPanel s).busDraws = s.busDraws := rfl

/-! ### `takeEvent` -/

@[simp] theorem takeEvent_cfg (s : State) : (takeEvent s).cfg = s.cfg := rfl
@[simp] theorem takeEvent_host (s : State) : (takeEvent s).host = s.host := rfl
@[simp] theorem takeEvent_block (s : State) : (takeEvent s).block = s.block := rfl
@[simp] theorem takeEvent_lines (s : State) : (takeEvent s).lines = s.lines := rfl
@[simp] theorem takeEvent_trace (s : State) : (takeEvent s).trace = s.trace := rfl
@[simp] theorem takeEvent_taken (s : State) : (takeEvent s).taken = s.taken + 1 := rfl
@[simp] theorem takeEvent_panel (s : State) : (takeEvent s).panel = s.panel := rfl
@[simp] theorem takeEvent_busDraws (s : State) : (takeEvent s).busDraws = s.busDraws := rfl

/-! ### `advanceHost` -/

@[simp] theorem advanceHost_cfg (s : State) : (advanceHost s).cfg = s.cfg := rfl
@[simp] theorem advanceHost_block (s : State) : (advanceHost s).block = s.block := rfl
@[simp] theorem advanceHost_lines (s : State) : (advanceHost s).lines = s.lines := rfl
@[simp] theorem advanceHost_trace (s : State) : (advanceHost s).trace = s.trace := rfl
@[simp] theorem advanceHost_taken (s : State) : (advanceHost s).taken = s.taken := rfl
@[simp] theorem advanceHost_panel (s : State) : (advanceHost s).panel = s.panel := rfl
@[simp] theorem advanceHost_busDraws (s : State) : (advanceHost s).busDraws = s.busDraws := rfl

/-! ### `readResult` -/

@[simp] theorem readResult_cfg (r : Option Word) (s : State) : (readResult r s).cfg = s.cfg := by
  cases r <;> rfl
@[simp] theorem readResult_block (r : Option Word) (s : State) : (readResult r s).block = s.block := by
  cases r <;> rfl
@[simp] theorem readResult_lines (r : Option Word) (s : State) : (readResult r s).lines = s.lines := by
  cases r <;> rfl
@[simp] theorem readResult_trace (r : Option Word) (s : State) : (readResult r s).trace = s.trace := by
  cases r <;> rfl
@[simp] theorem readResult_taken (r : Option Word) (s : State) : (readResult r s).taken = s.taken := by
  cases r <;> rfl
@[simp] theorem readResult_panel (r : Option Word) (s : State) : (readResult r s).panel = s.panel := by
  cases r <;> rfl
@[simp] theorem readResult_busDraws (r : Option Word) (s : State) :
    (readResult r s).busDraws = s.busDraws := by
  cases r <;> rfl

/-! ### `readStatus` -/

@[simp] theorem readStatus_cfg (s : State) : (readStatus s).cfg = s.cfg := rfl
@[simp] theorem readStatus_block (s : State) : (readStatus s).block = s.block := rfl
@[simp] theorem readStatus_lines (s : State) : (readStatus s).lines = s.lines := rfl
@[simp] theorem readStatus_trace (s : State) : (readStatus s).trace = s.trace := rfl
@[simp] theorem readStatus_taken (s : State) : (readStatus s).taken = s.taken := rfl
@[simp] theorem readStatus_panel (s : State) : (readStatus s).panel = s.panel := rfl
@[simp] theorem readStatus_busDraws (s : State) : (readStatus s).busDraws = s.busDraws := rfl

/-! ### `raiseFault` on the block's registers -/

@[simp] theorem raiseFault_block_winValid (code : BlockFault) (tag : Byte) (s : State) :
    (raiseFault code tag s).block.winValid = s.block.winValid := rfl
@[simp] theorem raiseFault_block_winX0 (code : BlockFault) (tag : Byte) (s : State) :
    (raiseFault code tag s).block.winX0 = s.block.winX0 := rfl
@[simp] theorem raiseFault_block_winY0 (code : BlockFault) (tag : Byte) (s : State) :
    (raiseFault code tag s).block.winY0 = s.block.winY0 := rfl
@[simp] theorem raiseFault_block_winX1 (code : BlockFault) (tag : Byte) (s : State) :
    (raiseFault code tag s).block.winX1 = s.block.winX1 := rfl
@[simp] theorem raiseFault_block_winY1 (code : BlockFault) (tag : Byte) (s : State) :
    (raiseFault code tag s).block.winY1 = s.block.winY1 := rfl
@[simp] theorem raiseFault_block_pend (code : BlockFault) (tag : Byte) (s : State) :
    (raiseFault code tag s).block.pend = s.block.pend := rfl
@[simp] theorem raiseFault_block_bl (code : BlockFault) (tag : Byte) (s : State) :
    (raiseFault code tag s).block.bl = s.block.bl := rfl
@[simp] theorem raiseFault_block_res0 (code : BlockFault) (tag : Byte) (s : State) :
    (raiseFault code tag s).block.res0 = s.block.res0 := rfl
@[simp] theorem raiseFault_block_res1 (code : BlockFault) (tag : Byte) (s : State) :
    (raiseFault code tag s).block.res1 = s.block.res1 := rfl
@[simp] theorem raiseFault_block_phase (code : BlockFault) (tag : Byte) (s : State) :
    (raiseFault code tag s).block.phase = .faulted := rfl
@[simp] theorem raiseFault_block_fault (code : BlockFault) (tag : Byte) (s : State) :
    (raiseFault code tag s).block.fault = if s.block.fault = .none then code else s.block.fault := rfl
@[simp] theorem raiseFault_block_faultTag (code : BlockFault) (tag : Byte) (s : State) :
    (raiseFault code tag s).block.faultTag = if s.block.fault = .none then tag else s.block.faultTag := rfl

/-! ### the host's position -/

@[simp] theorem advanceHost_inputs (s : State) : (advanceHost s).host.inputs = s.host.inputs := rfl
@[simp] theorem advanceHost_pos (s : State) : (advanceHost s).host.pos = s.host.pos + 1 := rfl
@[simp] theorem advanceHost_hostFault (s : State) : (advanceHost s).host.fault = s.host.fault := rfl
@[simp] theorem advanceHost_lastRead (s : State) : (advanceHost s).host.lastRead = s.host.lastRead := rfl

/-! ### `raisePanel` -/

@[simp] theorem raisePanel_mode (code : PanelFault) (p : Panel) : (raisePanel code p).mode = p.mode := rfl
@[simp] theorem raisePanel_sc (code : PanelFault) (p : Panel) : (raisePanel code p).sc = p.sc := rfl
@[simp] theorem raisePanel_ec (code : PanelFault) (p : Panel) : (raisePanel code p).ec = p.ec := rfl
@[simp] theorem raisePanel_sp (code : PanelFault) (p : Panel) : (raisePanel code p).sp = p.sp := rfl
@[simp] theorem raisePanel_ep (code : PanelFault) (p : Panel) : (raisePanel code p).ep = p.ep := rfl
@[simp] theorem raisePanel_cx (code : PanelFault) (p : Panel) : (raisePanel code p).cx = p.cx := rfl
@[simp] theorem raisePanel_cy (code : PanelFault) (p : Panel) : (raisePanel code p).cy = p.cy := rfl
@[simp] theorem raisePanel_remain (code : PanelFault) (p : Panel) : (raisePanel code p).remain = p.remain := rfl
@[simp] theorem raisePanel_half (code : PanelFault) (p : Panel) : (raisePanel code p).half = p.half := rfl
@[simp] theorem raisePanel_sleep (code : PanelFault) (p : Panel) : (raisePanel code p).sleep = p.sleep := rfl
@[simp] theorem raisePanel_dispOn (code : PanelFault) (p : Panel) : (raisePanel code p).dispOn = p.dispOn := rfl
@[simp] theorem raisePanel_madctl (code : PanelFault) (p : Panel) : (raisePanel code p).madctl = p.madctl := rfl
@[simp] theorem raisePanel_colmod (code : PanelFault) (p : Panel) : (raisePanel code p).colmod = p.colmod := rfl
@[simp] theorem raisePanel_settle (code : PanelFault) (p : Panel) : (raisePanel code p).settle = p.settle := rfl
@[simp] theorem raisePanel_cs (code : PanelFault) (p : Panel) : (raisePanel code p).cs = p.cs := rfl
@[simp] theorem raisePanel_refused (code : PanelFault) (p : Panel) : (raisePanel code p).refused = p.refused := rfl
@[simp] theorem raisePanel_gram (code : PanelFault) (p : Panel) : (raisePanel code p).gram = p.gram := rfl
@[simp] theorem raisePanel_fault (code : PanelFault) (p : Panel) :
    (raisePanel code p).fault = if p.fault = .none then code else p.fault := rfl

/-- A fault raised on a sink without one changes `P_FAULT` alone. -/
theorem raisePanel_of_none {code : PanelFault} {p : Panel} (h : p.fault = .none) :
    raisePanel code p = { p with fault := code } := by
  simp [raisePanel, h]

/-- A fault raised on a block without one. -/
theorem raiseFault_of_none {code : BlockFault} {tag : Byte} {s : State} (h : s.block.fault = .none) :
    raiseFault code tag s = stopped s code tag := by
  simp [raiseFault, stopped, h]

/-! ### `Work` -/

@[simp] theorem Work.start_block (b : Block) : (Work.start b).block = b := rfl
@[simp] theorem Work.start_out (b : Block) : (Work.start b).out = [] := rfl
@[simp] theorem Work.emit_block (es : List BusEvent) (w : Work) : (w.emit es).block = w.block := rfl
@[simp] theorem Work.emit_out (es : List BusEvent) (w : Work) : (w.emit es).out = w.out ++ es := rfl

end Sys2Proof.Machine
end

