-- ==== Sys2Proof/Laws/Paint.lean ====
section
/-! SUPPORT. The block's internal sequences, each said once: what a window set-up, a stream, a fill, a
glyph and a text leave in the registers and send on the bus, in the terms of `Safety`. -/

namespace Sys2Proof.Machine

/-! ## Bytes and pixels -/

/-- The two bytes of a 16-bit value, high byte first, by number. -/
theorem highLow_eq (v : Half) : highLow v = beBytes v.toNat := by
  have h1 : v.extractLsb' 8 8 = BitVec.ofNat 8 (v.toNat / 256) := by
    apply BitVec.eq_of_toNat_eq
    simp [BitVec.extractLsb'_toNat, Nat.shiftRight_eq_div_pow]
  have h2 : v.extractLsb' 0 8 = BitVec.ofNat 8 (v.toNat % 256) := by
    apply BitVec.eq_of_toNat_eq
    simp [BitVec.extractLsb'_toNat]
  simp [highLow, beBytes, h1, h2]

/-- A coordinate that fits 16 bits is its own 16-bit value. -/
theorem coord_ofNat (n : Nat) : coord n = BitVec.ofNat 16 n := by
  simp [coord]

theorem coord_toNat {n : Nat} (h : n < 65536) : (BitVec.ofNat 16 n).toNat = n := by
  simp; omega

theorem dataFrame_px (pixels : List Half) : dataFrame (pixels.flatMap px) = pixelEvents pixels := by
  cases pixels with
  | nil => rfl
  | cons p ps =>
    have h : px = fun p : Half => beBytes p.toNat := funext fun p => highLow_eq p
    simp [pixelEvents, h, beBytes, dataFrame]

/-! ## The clip and the bursts -/

theorem fillPixels_eq (c : Config) (n : Nat) (color : Half) :
    fillPixels c n color = List.replicate n color := by
  have key : ∀ m k : Nat, (List.replicate m k).flatMap (fun k => List.replicate k color)
      = List.replicate (m * k) color := by
    intro m k
    induction m with
    | zero => simp
    | succ m ih => simp [List.replicate_succ, ih, Nat.succ_mul, Nat.add_comm]
  rw [fillPixels, bursts, List.flatMap_append, key]
  have h := Nat.div_add_mod n c.chunkPixels
  split
  · rename_i h0
    simp only [List.flatMap_nil, List.append_nil]
    congr 1
    rw [Nat.mul_comm]; omega
  · simp only [List.flatMap_cons, List.flatMap_nil, List.append_nil, List.replicate_append_replicate]
    congr 1
    rw [Nat.mul_comm]; omega

/-- The clip is empty exactly where a fill has no window. -/
theorem clip_empty (c : Config) (x y w h : Int) :
    (clip c x y w h).empty
      = !decide (max x 0 < min (x + w) c.panelW ∧ max y 0 < min (y + h) c.panelH) := by
  rw [Bool.eq_iff_iff]
  simp only [ClipRect.empty, Bool.or_eq_true, decide_eq_true_eq, Bool.not_eq_true',
    decide_eq_false_iff_not]
  simp only [clip]
  omega

/-! ## Sequences -/

/-- `WindowSetup` on bounds that fit 16 bits. -/
theorem windowSetup_eq (c : Config) (win : Window) (w : Work)
    (h0 : win.x0 ≤ win.x1) (h1 : win.x1 < 65536) (h2 : win.y0 ≤ win.y1) (h3 : win.y1 < 65536) :
    windowSetup c win.x0 win.y0 win.x1 win.y1 w =
      { block := withWindow w.block win win.area
        out := w.out ++ setupEvents c win.x0 win.y0 win.x1 win.y1 } := by
  have ha : windowArea win.x0 win.y0 win.x1 win.y1 = (win.area : Int) := by
    simp only [windowArea, Window.area]
    push_cast [Nat.cast_sub h0, Nat.cast_sub h2]
    rfl
  simp only [windowSetup, withWindow, ha, coord_ofNat, cmdFrame, coordParams, highLow_eq, setupEvents,
    coord_toNat (show win.x0 < 65536 by omega), coord_toNat h1,
    coord_toNat (show win.y0 < 65536 by omega), coord_toNat h3, BitVec.ofInt_natCast]
  simp [List.append_assoc]

/-- `Stream` after a set-up of the window it fills. -/
theorem stream_eq (pixels : List Half) (b : Block) (win : Window) (out : List BusEvent)
    (h : pixels.length = win.area) :
    stream pixels { block := withWindow b win win.area, out := out } =
      { block := withWindow b win 0, out := out ++ pixelEvents pixels } := by
  simp [stream, withWindow, dataFrame_px, h]

/-- A window of the panel: in order, inside, and so within 16 bits. -/
abbrev WindowIn (c : Config) (win : Window) : Prop :=
  win.x0 ≤ win.x1 ∧ win.x1 < c.panelW ∧ win.y0 ≤ win.y1 ∧ win.y1 < c.panelH

/-- A set-up and the whole of its window's pixels. -/
theorem paint_eq {c : Config} {win : Window} (pixels : List Half) (wk : Work) (hc : c.panelFits)
    (hw : WindowIn c win) (hl : pixels.length = win.area) :
    stream pixels (windowSetup c win.x0 win.y0 win.x1 win.y1 wk) =
      { block := paintRegs (some win) wk.block
        out := wk.out ++ paintEvents c (some win) (fun _ => pixels) } := by
  obtain ⟨h0, h1, h2, h3⟩ := hw
  have := hc.1
  have := hc.2
  rw [windowSetup_eq c win wk h0 (by omega) h2 (by omega), stream_eq _ _ _ _ hl]
  simp [paintRegs, paintEvents, List.append_assoc]

/-- A fill's window is one of the panel. -/
theorem fillWindow_in {c : Config} {x y w h : Int} {win : Window} (hw : fillWindow c x y w h = some win) :
    WindowIn c win := by
  unfold fillWindow at hw
  split at hw
  · cases hw
    rename_i h
    refine ⟨?_, ?_, ?_, ?_⟩ <;> dsimp only <;> omega
  · cases hw

/-- A glyph's window is one of the panel. -/
theorem glyphWindow_in {c : Config} {x y : Int} {s : Nat} {win : Window} (hs : 0 < s)
    (hw : glyphWindow c x y s = some win) : WindowIn c win := by
  unfold glyphWindow at hw
  split at hw
  · cases hw
    rename_i h
    refine ⟨?_, ?_, ?_, ?_⟩ <;> dsimp only <;> omega
  · cases hw

/-- `FillBody`, whatever the rectangle. -/
theorem fillBody_eq (c : Config) (x y w h : Int) (color : Half) (wk : Work) (hc : c.panelFits) :
    fillBody c x y w h color wk =
      { block := paintRegs (fillWindow c x y w h) wk.block
        out := wk.out ++ paintEvents c (fillWindow c x y w h) (solid color) } := by
  by_cases hne : max x 0 < min (x + w) c.panelW ∧ max y 0 < min (y + h) c.panelH
  · have hem : (clip c x y w h).empty = false := by
      simp only [clip_empty, decide_eq_true hne, Bool.not_true]
    have hwin : fillWindow c x y w h = some
        { x0 := (max x 0).toNat, y0 := (max y 0).toNat
          x1 := (min (x + w) c.panelW - 1).toNat, y1 := (min (y + h) c.panelH - 1).toNat } := by
      simp only [fillWindow, if_pos hne]
    have hin := fillWindow_in hwin
    simp only [fillBody, hem, hwin]
    have e1 : (clip c x y w h).cx0 = ((max x 0).toNat : Int) := by simp only [clip]; omega
    have e2 : (clip c x y w h).cy0 = ((max y 0).toNat : Int) := by simp only [clip]; omega
    have e3 : (clip c x y w h).cx1 - 1 = ((min (x + w) c.panelW - 1).toNat : Int) := by
      simp only [clip]; omega
    have e4 : (clip c x y w h).cy1 - 1 = ((min (y + h) c.panelH - 1).toNat : Int) := by
      simp only [clip]; omega
    have ea : (((clip c x y w h).cx1 - (clip c x y w h).cx0)
        * ((clip c x y w h).cy1 - (clip c x y w h).cy0)).toNat = Window.area
          { x0 := (max x 0).toNat, y0 := (max y 0).toNat
            x1 := (min (x + w) c.panelW - 1).toNat, y1 := (min (y + h) c.panelH - 1).toNat } := by
      have f1 : (clip c x y w h).cx1 - (clip c x y w h).cx0
          = (((min (x + w) c.panelW - 1).toNat - (max x 0).toNat + 1 : Nat) : Int) := by
        simp only [clip]; omega
      have f2 : (clip c x y w h).cy1 - (clip c x y w h).cy0
          = (((min (y + h) c.panelH - 1).toNat - (max y 0).toNat + 1 : Nat) : Int) := by
        simp only [clip]; omega
      rw [f1, f2, ← Int.natCast_mul, Int.toNat_natCast]
      rfl
    rw [e3, e4, e1, e2, e1, e2] at *
    simp only [ea, fillPixels_eq, Bool.false_eq_true, if_false]
    exact paint_eq _ wk hc hin (by simp)
  · have hem : (clip c x y w h).empty = true := by
      simp only [clip_empty, decide_eq_false hne, Bool.not_false]
    have hwin : fillWindow c x y w h = none := by simp only [fillWindow, if_neg hne]
    simp [fillBody, hem, hwin, paintRegs, paintEvents]

/-! ## Glyphs -/

/-- An element of lists of one length `m` strung together. -/
theorem getElem?_flatMap_const {α β : Type} {f : α → List β} {m : Nat} (hm : 0 < m) (l : List α)
    (hf : ∀ a ∈ l, (f a).length = m) (k : Nat) :
    (l.flatMap f)[k]? = (l[k / m]?).bind (fun a => (f a)[k % m]?) := by
  induction l generalizing k with
  | nil => simp
  | cons a l ih =>
    have ha : (f a).length = m := hf a (by simp)
    rw [List.flatMap_cons, List.getElem?_append, ha]
    split
    · rename_i hk
      simp [Nat.div_eq_of_lt hk, Nat.mod_eq_of_lt hk]
    · rename_i hk
      rw [ih (fun b hb => hf b (by simp [hb])) (k - m)]
      have h1 : k / m = (k - m) / m + 1 := by
        rw [Nat.div_eq k m, if_pos ⟨hm, by omega⟩]
      have h2 : k % m = (k - m) % m := by
        rw [Nat.mod_eq k m, if_pos ⟨hm, by omega⟩]
      rw [h1, h2]
      simp

theorem glyphRow_length (bits fg bg : Half) (s : Nat) : (glyphRow bits fg bg s).length = 16 * s := by
  simp [glyphRow]
  omega

/-- Output pixel `i` of a row: the colour of column `i div s` (R90). -/
theorem glyphRow_getElem? {s : Nat} (bits fg bg : Half) {i : Nat} (hs : 0 < s) (hi : i < 16 * s) :
    (glyphRow bits fg bg s)[i]? = some (glyphColor bits (i / s) fg bg) := by
  have h1 : i / s < 16 := by rw [Nat.div_lt_iff_lt_mul hs]; exact hi
  rw [glyphRow, getElem?_flatMap_const hs _ (by simp)]
  simp [h1, Nat.mod_lt _ hs]

theorem glyphPixels_length (rom : GlyphRom) (ch : Byte) (fg bg : Half) (s : Nat) :
    (glyphPixels rom ch fg bg s).length = 256 * s * s := by
  have : ∀ bits, ((List.replicate s (glyphRow bits fg bg s)).flatten).length = s * (16 * s) := by
    intro bits; simp [glyphRow_length]
  simp only [glyphPixels, List.length_flatMap, this]
  simp
  ring

/-- `GlyphPixels` pixel by pixel (R90). -/
theorem glyphPixels_eq (rom : GlyphRom) (ch : Byte) (fg bg : Half) {s : Nat} (hs : 0 < s) :
    glyphPixels rom ch fg bg s = glyphPixelList rom ch fg bg s := by
  apply List.ext_getElem?
  intro k
  by_cases hk : k < 256 * s * s
  · have hm : 0 < s * (16 * s) := by positivity
    have hlen : ∀ bits ∈ (glyphOf rom ch).toList,
        ((List.replicate s (glyphRow bits fg bg s)).flatten).length = s * (16 * s) := by
      intro bits _; simp [glyphRow_length]
    have hrow : k / (s * (16 * s)) < 16 := by
      rw [Nat.div_lt_iff_lt_mul hm]; calc k < 256 * s * s := hk
        _ = 16 * (s * (16 * s)) := by ring
    have hin : k % (s * (16 * s)) / (16 * s) < s := by
      rw [Nat.div_lt_iff_lt_mul (by positivity)]; exact Nat.mod_lt _ hm
    have hcol : k % (s * (16 * s)) % (16 * s) = k % (16 * s) := Nat.mod_mul_left_mod _ _ _
    have hrow2 : k / (16 * s) / s = k / (s * (16 * s)) := by
      rw [Nat.div_div_eq_div_mul, Nat.mul_comm]
    rw [glyphPixels, getElem?_flatMap_const hm _ hlen]
    have hflat : ∀ bits, ((List.replicate s (glyphRow bits fg bg s)).flatten)[k % (s * (16 * s))]?
        = some (glyphColor bits (k % (16 * s) / s) fg bg) := by
      intro bits
      have h := getElem?_flatMap_const (f := fun r : List Half => r) (m := 16 * s) (by positivity)
        (List.replicate s (glyphRow bits fg bg s)) (by intro r hr; rw [List.eq_of_mem_replicate hr, glyphRow_length])
        (k % (s * (16 * s)))
      rw [List.flatMap_id'] at h
      rw [h]
      simp only [List.getElem?_replicate, hin, if_true, Option.bind_some, hcol]
      exact glyphRow_getElem? bits fg bg hs (Nat.mod_lt _ (by positivity))
    simp only [hflat]
    have hidx : ((glyphOf rom ch).toList)[k / (s * (16 * s))]?
        = some ((glyphOf rom ch).get (Fin.ofNat 16 (k / (s * (16 * s))))) := by
      rw [List.getElem?_eq_getElem (by simpa using hrow)]
      simp [Vector.get, Fin.ofNat, Nat.mod_eq_of_lt hrow]
    rw [hidx]
    simp [glyphPixelList, hk, glyphPixel, glyphRead, glyphColor, hrow2]
  · rw [List.getElem?_eq_none (by rw [glyphPixels_length]; omega),
      List.getElem?_eq_none (by simp [glyphPixelList]; omega)]

/-- The area of a glyph's window. -/
theorem glyphWindow_area {c : Config} {x y : Int} {s : Nat} {win : Window} (hs : 0 < s)
    (hw : glyphWindow c x y s = some win) : win.area = 256 * s * s := by
  unfold glyphWindow at hw
  split at hw
  · cases hw
    rename_i h
    have e1 : (x + 16 * (s : Int) - 1).toNat - x.toNat + 1 = 16 * s := by omega
    have e2 : (y + 16 * (s : Int) - 1).toNat - y.toNat + 1 = 16 * s := by omega
    simp only [Window.area, e1, e2]
    ring
  · cases hw

/-- The fit test of R89. -/
theorem glyphFits_iff (c : Config) (x y : Int) (s : Nat) :
    glyphFits c x y s = true ↔ 0 ≤ x ∧ 0 ≤ y ∧ x + 16 * s ≤ c.panelW ∧ y + 16 * s ≤ c.panelH := by
  simp only [glyphFits, Bool.and_eq_true, decide_eq_true_eq, and_assoc]
  rfl

/-- `DrawCharBody`, whatever the box. -/
theorem drawCharBody_eq (c : Config) (ch : Byte) (x y : Int) (fg bg : Half) {s : Nat} (wk : Work)
    (hc : c.panelFits) (hs : 0 < s) :
    drawCharBody c ch x y fg bg s wk =
      { block := paintRegs (glyphWindow c x y s) wk.block
        out := wk.out ++ paintEvents c (glyphWindow c x y s)
          (fun _ => glyphPixelList c.glyphRom ch fg bg s) } := by
  by_cases hf : 0 ≤ x ∧ 0 ≤ y ∧ x + 16 * s ≤ c.panelW ∧ y + 16 * s ≤ c.panelH
  · have hfit : glyphFits c x y s = true := (glyphFits_iff c x y s).2 hf
    have hwin : glyphWindow c x y s = some
        { x0 := x.toNat, y0 := y.toNat
          x1 := (x + 16 * s - 1).toNat, y1 := (y + 16 * s - 1).toNat } := by
      simp only [glyphWindow, if_pos hf]
    have hlen : (glyphPixelList c.glyphRom ch fg bg s).length = _ :=
      (by simp [glyphPixelList] : _ = 256 * s * s).trans (glyphWindow_area hs hwin).symm
    have e1 : (x.toNat : Int) = x := by omega
    have e2 : (y.toNat : Int) = y := by omega
    have e3 : ((x + 16 * (s : Int) - 1).toNat : Int) = x + 16 * s - 1 := by omega
    have e4 : ((y + 16 * (s : Int) - 1).toNat : Int) = y + 16 * s - 1 := by omega
    have hp := paint_eq (glyphPixelList c.glyphRom ch fg bg s) wk hc (glyphWindow_in hs hwin) hlen
    simp only [e1, e2, e3, e4] at hp
    simp only [drawCharBody, hfit, if_true, glyphSide, glyphPixels_eq _ _ _ _ hs, hp, hwin]
  · have hfit : glyphFits c x y s = false := by
      rw [Bool.eq_false_iff, ne_eq, glyphFits_iff]; exact hf
    have hwin : glyphWindow c x y s = none := by simp only [glyphWindow, if_neg hf]
    simp [drawCharBody, hfit, hwin, paintRegs, paintEvents]

/-- DRAW_TEXT's loop from character `k` on. -/
theorem drawTextBody_eq (c : Config) (fg bg : Half) {s : Nat} (y : Int) (hc : c.panelFits) (hs : 0 < s)
    (text : List Byte) (x : Int) (k : Nat) (wk : Work) :
    drawTextBody c fg bg s y text (x + k * 16 * s) wk =
      { block := paintAllRegs ((text.zipIdx k).map fun chk => glyphWindow c (x + chk.2 * 16 * s) y s)
          wk.block
        out := wk.out ++ (text.zipIdx k).flatMap fun chk =>
          paintEvents c (glyphWindow c (x + chk.2 * 16 * s) y s)
            (fun _ => glyphPixelList c.glyphRom chk.1 fg bg s) } := by
  induction text generalizing k wk with
  | nil => simp [drawTextBody, paintAllRegs]
  | cons ch rest ih =>
    have e : x + k * 16 * s + glyphSide s = x + ((k + 1 : Nat) : Int) * 16 * s := by
      simp only [glyphSide]; push_cast; ring
    rw [drawTextBody, e, ih (k + 1), drawCharBody_eq c ch _ _ _ _ _ hc hs]
    simp [paintAllRegs, List.zipIdx_cons, List.append_assoc]

/-- ROUND_RECT's four bars. -/
theorem roundRectBody_eq (c : Config) (x y w h : Int) (color : Half) (t : Int) (wk : Work)
    (hc : c.panelFits) :
    roundRectBody c x y w h color t wk =
      { block := paintAllRegs (barWindows c x y w h t) wk.block
        out := wk.out ++ (barWindows c x y w h t).flatMap fun win => paintEvents c win (solid color) } := by
  simp [roundRectBody, fillBody_eq _ _ _ _ _ _ _ hc, barWindows, paintAllRegs, List.append_assoc]

end Sys2Proof.Machine
end

