-- ==== Sys2Proof/Laws/HostOps.lean ====
section
/-! SUPPORT. The block's shared operations: the gates, committing an operation's events, and, said once,
everything a host operation can do. -/

namespace Sys2Proof.Machine

/-! ## Gates -/

theorem prologue_run {body : State → State} {s : State} (h : s.block.phase ≠ .faulted) :
    prologue body s = body s := if_neg h

theorem prologue_faulted {body : State → State} {s : State} (h : s.block.phase = .faulted) :
    prologue body s = s := if_pos h

theorem drawingPrologue_ready {tag : Byte} {body : State → State} {s : State}
    (h : s.block.phase = .ready) : drawingPrologue tag body s = body s := by
  simp [drawingPrologue, h]

theorem drawingPrologue_uninit {tag : Byte} {body : State → State} {s : State}
    (h : s.block.phase = .uninit) : drawingPrologue tag body s = raiseFault .notInitialized tag s := by
  simp [drawingPrologue, h]

theorem drawingPrologue_faulted {tag : Byte} {body : State → State} {s : State}
    (h : s.block.phase = .faulted) : drawingPrologue tag body s = s := by
  simp [drawingPrologue, h]

theorem underrunCheck_closed {tag : Byte} {body : State → State} {s : State} (h : s.block.pend = 0) :
    underrunCheck tag body s = body s := by
  simp [underrunCheck, streamOpen, h]

theorem underrunCheck_open {tag : Byte} {body : State → State} {s : State} (h : s.block.pend ≠ 0) :
    underrunCheck tag body s = raiseFault .windowUnderrun tag s := by
  have hb : streamOpen s.block = true := by simpa [streamOpen] using h
  simp [underrunCheck, hb]

theorem scaleCheck_ok {tag scale : Byte} {body : State → State} {s : State} (h : scale ≠ 0) :
    scaleCheck tag scale body s = body s := if_neg h

theorem scaleCheck_zero {tag : Byte} {body : State → State} {s : State} :
    scaleCheck tag 0 body s = raiseFault .badScale tag s := if_pos rfl

theorem raiseIllegal_run {tag : Byte} {s : State} (h : s.block.phase ≠ .faulted) :
    raiseIllegal tag s = raiseFault .illegalOp tag s := if_neg h

theorem raiseIllegal_faulted {tag : Byte} {s : State} (h : s.block.phase = .faulted) :
    raiseIllegal tag s = s := if_pos h

/-! ## Committing -/

theorem commit_nil {tag : Byte} {w : Work} {s : State} (h : w.out = []) :
    commit tag w s = { s with block := w.block } := by
  simp [commit, h]

theorem commit_healthy {tag : Byte} {w : Work} {s : State} (h : w.out ≠ []) (hb : busDrawOf s = none) :
    commit tag w s = sent s w.out w.block := by
  unfold commit
  split
  · contradiction
  · rw [hb]; rfl

theorem commit_failing {tag : Byte} {w : Work} {s : State} {k : Nat} (h : w.out ≠ [])
    (hb : busDrawOf s = some k) :
    commit tag w s =
      raiseFault .busFault tag { appendEvents (w.out.take k) s with busDraws := s.busDraws.tail } := by
  unfold commit
  split
  · contradiction
  · rw [hb]

/-- Everything committing can do. -/
theorem commit_cases (tag : Byte) (w : Work) (s : State) :
    (w.out = [] ∧ commit tag w s = { s with block := w.block })
    ∨ (w.out ≠ [] ∧ busDrawOf s = none ∧ commit tag w s = sent s w.out w.block)
    ∨ (w.out ≠ [] ∧ ∃ k, busDrawOf s = some k ∧ commit tag w s =
        raiseFault .busFault tag { appendEvents (w.out.take k) s with busDraws := s.busDraws.tail }) := by
  by_cases h : w.out = []
  · exact .inl ⟨h, commit_nil h⟩
  · cases hb : busDrawOf s with
    | none => exact .inr (.inl ⟨h, rfl, commit_healthy h hb⟩)
    | some k => exact .inr (.inr ⟨h, k, rfl, commit_failing h hb⟩)

/-! ## Everything a host operation can do -/

/-- The work of the host operations that emit: the registers and the events, and the conditions under
which an operation does that work. -/
inductive HostWork (s : State) : Instr → Work → Prop where
  | send (i : Instr) (op : Byte) (params : List Byte) (v : Bool) (hv : v = true → s.block.winValid = true)
      (hi : i = .sendCmd op ∨ i = .sendCmdParams op params) (hp : s.block.phase ≠ .faulted)
      (hs : s.block.pend = 0) :
      HostWork s i { block := { s.block with winValid := v }, out := cmdFrame op params }
  | init (hp : s.block.phase ≠ .faulted) (hs : s.block.pend = 0) :
      HostWork s .init
        { block := { s.block with winValid := false, phase := .ready }
          out := s.cfg.initSeq.flatMap initStepEvents }
  | setWindow (i : Instr) (win : Window) (hd : i.isDrawing = true) (hw : WindowIn s.cfg win)
      (hp : s.block.phase = .ready) (hs : s.block.pend = 0) :
      HostWork s i
        { block := withWindow s.block win win.area
          out := setupEvents s.cfg win.x0 win.y0 win.x1 win.y1 }
  | push (pixels : List Half) (hp : s.block.phase = .ready) (hn : pixels.length ≤ s.block.pend.toNat) :
      HostWork s (.pushPixels pixels)
        { block := { s.block with pend := s.block.pend - BitVec.ofNat 32 pixels.length }
          out := pixelEvents pixels }
  | paints (i : Instr) (wins : List (Option Window × (Window → List Half))) (hd : i.isDrawing = true)
      (hw : ∀ e ∈ wins, ∀ win, e.1 = some win → WindowIn s.cfg win ∧ (e.2 win).length = win.area)
      (hp : s.block.phase = .ready) (hs : s.block.pend = 0) :
      HostWork s i
        { block := paintAllRegs (wins.map (·.1)) s.block
          out := wins.flatMap fun e => paintEvents s.cfg e.1 e.2 }

/-- Everything a host operation can do to the state. -/
inductive HostEffect (s : State) (i : Instr) : State → Prop where
  /-- no effect at all -/
  | same : HostEffect s i s
  /-- a fault before any event -/
  | fault (code : BlockFault) (hc : code ≠ .none) (hp : s.block.phase ≠ .faulted) :
      HostEffect s i (raiseFault code i.hostTag s)
  /-- the backlight or the result registers -/
  | regs (bl : Bool) (r0 r1 : Option Word) :
      HostEffect s i { s with block := { s.block with bl := bl, res0 := r0, res1 := r1 } }
  /-- work that emits -/
  | work (w : Work) (hw : HostWork s i w) : HostEffect s i (commit i.hostTag w s)

/-- An operation's gate: what its body does once through, a fault, or nothing. -/
theorem effect_drawing {s : State} {i : Instr} {tag : Byte} {body : State → State} (ht : i.hostTag = tag)
    (h : s.block.phase = .ready → HostEffect s i (body s)) :
    HostEffect s i (drawingPrologue tag body s) := by
  subst ht
  cases hp : s.block.phase with
  | uninit => rw [drawingPrologue_uninit hp]; exact .fault _ (by simp) (by simp [hp])
  | ready => rw [drawingPrologue_ready hp]; exact h hp
  | faulted => rw [drawingPrologue_faulted hp]; exact .same

theorem effect_prologue {s : State} {i : Instr} {body : State → State}
    (h : s.block.phase ≠ .faulted → HostEffect s i (body s)) : HostEffect s i (prologue body s) := by
  by_cases hp : s.block.phase = .faulted
  · rw [prologue_faulted hp]; exact .same
  · rw [prologue_run hp]; exact h hp

theorem effect_underrun {s : State} {i : Instr} {tag : Byte} {body : State → State} (ht : i.hostTag = tag)
    (hp : s.block.phase ≠ .faulted) (h : s.block.pend = 0 → HostEffect s i (body s)) :
    HostEffect s i (underrunCheck tag body s) := by
  subst ht
  by_cases hs : s.block.pend = 0
  · rw [underrunCheck_closed hs]; exact h hs
  · rw [underrunCheck_open hs]; exact .fault _ (by simp) hp

theorem effect_scale {s : State} {i : Instr} {tag scale : Byte} {body : State → State}
    (ht : i.hostTag = tag) (hp : s.block.phase ≠ .faulted) (h : scale ≠ 0 → HostEffect s i (body s)) :
    HostEffect s i (scaleCheck tag scale body s) := by
  subst ht
  by_cases hs : scale = 0
  · subst hs; rw [scaleCheck_zero]; exact .fault _ (by simp) hp
  · rw [scaleCheck_ok hs]; exact h hs

theorem ready_ne_faulted {s : State} (h : s.block.phase = .ready) : s.block.phase ≠ .faulted := by
  simp [h]

/-- One fill as work. -/
theorem effect_fill {s : State} {i : Instr} {tag : Byte} (x y w h : Int) (color : Half)
    (ht : i.hostTag = tag) (hd : i.isDrawing = true) (hc : s.cfg.panelFits)
    (hp : s.block.phase = .ready) (hs : s.block.pend = 0) :
    HostEffect s i (perform tag (fillBody s.cfg x y w h color) s) := by
  subst ht
  rw [perform, fillBody_eq _ _ _ _ _ _ _ hc]
  have hw := HostWork.paints i [(fillWindow s.cfg x y w h, solid color)] hd
    (by
      intro e he win hwin
      simp only [List.mem_singleton] at he
      subst he
      exact ⟨fillWindow_in hwin, by simp [solid]⟩) hp hs
  simpa [paintAllRegs] using HostEffect.work _ hw

/-- Everything a host operation can do. -/
theorem exec_hostOp {i : Instr} {s : State} (hi : i.isHostOp = true) (hc : s.cfg.panelFits) :
    ∃ t, exec i s = .next t ∧ HostEffect s i t := by
  cases i with
  | sendCmd op =>
    refine ⟨_, rfl, effect_prologue fun hp => effect_underrun rfl hp fun hs => ?_⟩
    have hw := HostWork.send (.sendCmd op) op []
      (rawCommandEffect s.cfg op ((Work.start s.block).emit (cmdFrame op []))).block.winValid
      (by simp only [rawCommandEffect]; split <;> simp) (.inl rfl) hp hs
    convert HostEffect.work _ hw using 1
    simp only [perform, rawCommandEffect]
    split <;> rfl
  | sendCmdParams op params =>
    refine ⟨_, rfl, effect_prologue fun hp => effect_underrun rfl hp fun hs => ?_⟩
    have hw := HostWork.send (.sendCmdParams op params) op params
      (rawCommandEffect s.cfg op ((Work.start s.block).emit (cmdFrame op params))).block.winValid
      (by simp only [rawCommandEffect]; split <;> simp) (.inr rfl) hp hs
    convert HostEffect.work _ hw using 1
    simp only [perform, rawCommandEffect]
    split <;> rfl
  | init =>
    refine ⟨_, rfl, effect_prologue fun hp => effect_underrun rfl hp fun hs => ?_⟩
    exact HostEffect.work _ (HostWork.init hp hs)
  | backlight on => exact ⟨_, rfl, .regs on s.block.res0 s.block.res1⟩
  | setWindow x0 y0 x1 y1 =>
    refine ⟨_, rfl, effect_drawing rfl fun hp => effect_underrun rfl (ready_ne_faulted hp) fun hs => ?_⟩
    simp only [setWindowBody]
    split
    · rename_i hin
      simp only [windowInPanel, Bool.and_eq_true, decide_eq_true_eq] at hin
      obtain ⟨⟨⟨⟨⟨h0, h1⟩, h2⟩, h3⟩, h4⟩, h5⟩ := hin
      have hf1 := hc.1
      have hf2 := hc.2
      have hwin : WindowIn s.cfg ⟨x0.toInt.toNat, y0.toInt.toNat, x1.toInt.toNat, y1.toInt.toNat⟩ := by
        refine ⟨?_, ?_, ?_, ?_⟩ <;> dsimp only <;> omega
      have hw := HostWork.setWindow (.setWindow x0 y0 x1 y1) _ rfl hwin hp hs
      have he := windowSetup_eq s.cfg ⟨x0.toInt.toNat, y0.toInt.toNat, x1.toInt.toNat, y1.toInt.toNat⟩
        (Work.start s.block) (by dsimp only; omega) (by dsimp only; omega) (by dsimp only; omega)
        (by dsimp only; omega)
      have e0 : (x0.toInt.toNat : Int) = x0.toInt := by omega
      have e1 : (y0.toInt.toNat : Int) = y0.toInt := by omega
      have e2 : (x1.toInt.toNat : Int) = x1.toInt := by omega
      have e3 : (y1.toInt.toNat : Int) = y1.toInt := by omega
      simp only [e0, e1, e2, e3, Work.start_block, Work.start_out, List.nil_append] at he
      rw [perform, he]
      exact HostEffect.work _ hw
    · exact .fault _ (by simp) (ready_ne_faulted hp)
  | pushPixels pixels =>
    refine ⟨_, rfl, effect_drawing rfl fun hp => ?_⟩
    simp only [pushPixelsBody]
    split
    · exact .fault _ (by simp) (ready_ne_faulted hp)
    · rename_i hn
      have hw := HostWork.push pixels hp (Nat.le_of_not_lt hn)
      convert HostEffect.work _ hw using 1
      simp [perform, stream, dataFrame_px, Instr.hostTag, HostTag.code]
  | fillRect x y w h color =>
    exact ⟨_, rfl, effect_drawing rfl fun hp => effect_underrun rfl (ready_ne_faulted hp) fun hs =>
      effect_fill _ _ _ _ _ rfl rfl hc hp hs⟩
  | fillScreen color =>
    exact ⟨_, rfl, effect_drawing rfl fun hp => effect_underrun rfl (ready_ne_faulted hp) fun hs =>
      effect_fill _ _ _ _ _ rfl rfl hc hp hs⟩
  | hline x y w color =>
    exact ⟨_, rfl, effect_drawing rfl fun hp => effect_underrun rfl (ready_ne_faulted hp) fun hs =>
      effect_fill _ _ _ _ _ rfl rfl hc hp hs⟩
  | vline x y h color =>
    exact ⟨_, rfl, effect_drawing rfl fun hp => effect_underrun rfl (ready_ne_faulted hp) fun hs =>
      effect_fill _ _ _ _ _ rfl rfl hc hp hs⟩
  | roundRect x y w h color t =>
    refine ⟨_, rfl, effect_drawing rfl fun hp => effect_underrun rfl (ready_ne_faulted hp) fun hs => ?_⟩
    rw [perform, roundRectBody_eq _ _ _ _ _ _ _ _ hc]
    have hw := HostWork.paints (.roundRect x y w h color t)
      ((barWindows s.cfg x.toInt y.toInt w.toInt h.toInt t.toInt).map fun win => (win, solid color)) rfl
      (by
        intro e he win hwin
        obtain ⟨win', hmem, rfl⟩ := List.mem_map.1 he
        dsimp only at hwin
        subst hwin
        refine ⟨?_, by simp [solid]⟩
        simp only [barWindows, List.mem_cons, List.not_mem_nil, or_false] at hmem
        rcases hmem with h | h | h | h <;> exact fillWindow_in h.symm) hp hs
    simpa [Function.comp_def, List.flatMap_map, Instr.hostTag, HostTag.code] using HostEffect.work _ hw
  | color565 r g b => exact ⟨_, rfl, effect_prologue fun _ => .regs s.block.bl _ s.block.res1⟩
  | charSize scale =>
    exact ⟨_, rfl, effect_prologue fun hp => effect_scale rfl hp fun _ => .regs s.block.bl _ _⟩
  | drawChar ch x y fg bg scale =>
    refine ⟨_, rfl, effect_drawing rfl fun hp => effect_underrun rfl (ready_ne_faulted hp) fun hs =>
      effect_scale rfl (ready_ne_faulted hp) fun hsc => ?_⟩
    have h0 : 0 < scale.toNat := Nat.pos_of_ne_zero fun h => hsc (BitVec.eq_of_toNat_eq (by simpa using h))
    rw [perform, drawCharBody_eq _ _ _ _ _ _ _ hc h0]
    have hw := HostWork.paints (.drawChar ch x y fg bg scale)
      [(glyphWindow s.cfg x.toInt y.toInt scale.toNat,
        fun _ => glyphPixelList s.cfg.glyphRom ch fg bg scale.toNat)] rfl
      (by
        intro e he win hwin
        simp only [List.mem_singleton] at he
        subst he
        exact ⟨glyphWindow_in h0 hwin, by simp [glyphPixelList, glyphWindow_area h0 hwin]⟩) hp hs
    simpa [paintAllRegs, Instr.hostTag, HostTag.code] using HostEffect.work _ hw
  | drawText x y fg bg scale text =>
    refine ⟨_, rfl, effect_drawing rfl fun hp => effect_underrun rfl (ready_ne_faulted hp) fun hs =>
      effect_scale rfl (ready_ne_faulted hp) fun hsc => ?_⟩
    have h0 : 0 < scale.toNat := Nat.pos_of_ne_zero fun h => hsc (BitVec.eq_of_toNat_eq (by simpa using h))
    have he := drawTextBody_eq s.cfg fg bg y.toInt hc h0 text x.toInt 0 (Work.start s.block)
    simp only [Nat.cast_zero, zero_mul, add_zero] at he
    rw [perform, he]
    have hw := HostWork.paints (.drawText x y fg bg scale text)
      ((text.zipIdx).map fun chk =>
        (glyphWindow s.cfg (x.toInt + chk.2 * 16 * scale.toNat) y.toInt scale.toNat,
          fun _ => glyphPixelList s.cfg.glyphRom chk.1 fg bg scale.toNat)) rfl
      (by
        intro e he win hwin
        obtain ⟨chk, _, rfl⟩ := List.mem_map.1 he
        exact ⟨glyphWindow_in h0 hwin, by simp [glyphPixelList, glyphWindow_area h0 hwin]⟩) hp hs
    simpa [Function.comp_def, List.flatMap_map, Instr.hostTag, HostTag.code] using
      HostEffect.work _ hw
  | textWidth scale text =>
    exact ⟨_, rfl, effect_prologue fun hp => effect_scale rfl hp fun _ => .regs s.block.bl _ s.block.res1⟩
  | reservedHostTag header operands =>
    refine ⟨_, rfl, ?_⟩
    by_cases hp : s.block.phase = .faulted
    · rw [raiseIllegal_faulted hp]; exact .same
    · rw [raiseIllegal_run hp]; exact .fault _ (by simp) hp
  | swreset => cases hi
  | slpout => cases hi
  | dispon => cases hi
  | caset => cases hi
  | raset => cases hi
  | ramwr => cases hi
  | madctl => cases hi
  | colmod => cases hi
  | vendor op => cases hi
  | unmodelled op => cases hi

end Sys2Proof.Machine
end

