-- ==== Sys2Proof/Laws/BlockInvariant.lean ====
section
/-! SUPPORT. The block's invariant through each thing an operation can do. -/

namespace Sys2Proof.Machine

theorem blockInv_raiseFault {c : Config} {code tag} {s : State} (hc : code ≠ .none)
    (h : BlockInv c s.block) : BlockInv c (raiseFault code tag s).block := by
  refine ⟨?_, ?_, h.window, ?_⟩
  · simp; split <;> simp_all
  · intro hn; simp at hn; split at hn <;> simp_all
  · intro hp
    obtain ⟨h1, h2, h3⟩ := h.owed hp
    exact ⟨h1, by simp, h3⟩

theorem blockInv_withWindow {c : Config} {b : Block} {win : Window} {n : Nat} (hw : WindowIn c win)
    (h : BlockInv c b) (hr : b.phase ≠ .uninit) (hn : n ≤ win.area) :
    BlockInv c (withWindow b win n) := by
  refine ⟨h.faulted, h.tag, fun _ => ⟨win, rfl, rfl, rfl, rfl, hw⟩, fun hp =>
      ⟨rfl, hr, win, ⟨rfl, rfl, rfl, rfl, hw⟩, ?_⟩⟩
  simp only [withWindow, BitVec.toNat_ofNat]
  exact (Nat.mod_le _ _).trans hn

theorem blockInv_paintAllRegs {c : Config} (wins : List (Option Window)) {b : Block}
    (hw : ∀ win ∈ wins, ∀ w, win = some w → WindowIn c w) (hr : b.phase ≠ .uninit) (h : BlockInv c b) :
    BlockInv c (paintAllRegs wins b) ∧ (paintAllRegs wins b).phase = b.phase ∧ (paintAllRegs wins b).fault
        = b.fault := by
  induction wins generalizing b with
  | nil => exact ⟨h, rfl, rfl⟩
  | cons win wins ih =>
    have hw' : ∀ win ∈ wins, ∀ w, win = some w → WindowIn c w := fun w h => hw w (by simp [h])
    cases win with
    | none => exact ih hw' hr h
    | some w =>
      have := ih (b := withWindow b w 0) hw' hr (blockInv_withWindow (hw (some w) (by simp) w rfl) h hr
          (Nat.zero_le _))
      exact this

theorem blockInv_work {s : State} {i : Instr} {w : Work}
    (h : BlockInv s.cfg s.block) (hw : HostWork s i w) : BlockInv s.cfg w.block := by
  cases hw with
  | send _ op params v hv hi hp hs =>
    refine ⟨h.faulted, h.tag, fun hv' => h.window (hv hv'), fun hp' => absurd hs hp'⟩
  | init hp hs =>
    have hf : s.block.fault = .none := by by_contra hn; exact hp (h.faulted.2 hn)
    refine ⟨?_, h.tag, fun hv' => (by cases hv'), fun hp' => absurd hs hp'⟩
    simp [hf]
  | setWindow _ win hd hw hp hs =>
    exact blockInv_withWindow hw h (by simp [hp]) le_rfl
  | push pixels hp hn =>
    refine ⟨h.faulted, h.tag, h.window, ?_⟩
    intro hp'
    have hlt := s.block.pend.isLt
    have e : (s.block.pend - BitVec.ofNat 32 pixels.length).toNat = s.block.pend.toNat - pixels.length := by
      simp [BitVec.toNat_sub]; omega
    have hne : s.block.pend ≠ 0 := by
      intro h0
      apply hp'
      have : s.block.pend.toNat = 0 := by simp [h0]
      apply BitVec.eq_of_toNat_eq
      rw [e]; simp; omega
    obtain ⟨h1, h2, win, h3, h4⟩ := h.owed hne
    exact ⟨h1, h2, win, h3, by rw [e]; omega⟩
  | paints _ wins hd hw hp hs =>
    refine (blockInv_paintAllRegs _ ?_ (by simp [hp]) h).1
    intro win hm w he
    obtain ⟨e, hem, rfl⟩ := List.mem_map.1 hm
    exact (hw e hem w he).1

theorem blockInv_exec {s t : State} {i : Instr} (hi : i.isHostOp = true) (hc : s.cfg.panelFits)
    (h : BlockInv s.cfg s.block) (ht : exec i s = .next t) : BlockInv s.cfg t.block := by
  obtain ⟨t', h1, h2⟩ := exec_hostOp hi hc
  rw [ht] at h1; cases h1
  cases h2 with
  | same => exact h
  | fault code hc' hp => exact blockInv_raiseFault hc' h
  | regs bl r0 r1 => exact ⟨h.faulted, h.tag, h.window, h.owed⟩
  | work w hw =>
    rcases commit_cases i.hostTag w s with ⟨_, hc'⟩ | ⟨_, _, hc'⟩ | ⟨_, k, _, hc'⟩ <;> rw [hc']
    · exact blockInv_work h hw
    · exact blockInv_work h hw
    · exact blockInv_raiseFault (by simp) h

end Sys2Proof.Machine
end

