-- ==== Sys2Proof/Laws/Codec.lean ====
section
/-! SUPPORT. The encoding tables: fields, packed elements and tags read back what was written, and what is
read is what was written. -/

namespace Sys2Proof

/-! ## Operand fields -/

theorem high24_setWidth (b : Byte) : (b.setWidth 32).extractLsb' 8 24 = (0 : BitVec 24) := by
  ext i hi; simp

theorem low8_setWidth (b : Byte) : (b.setWidth 32).extractLsb' 0 8 = b := by
  refine BitVec.eq_of_getLsbD_eq fun i hi => ?_
  simp [hi, Nat.lt_trans hi (by decide : 8 < 32)]

theorem high16_setWidth (b : Half) : (b.setWidth 32).extractLsb' 16 16 = (0 : BitVec 16) := by
  ext i hi; simp

theorem low16_setWidth (b : Half) : (b.setWidth 32).extractLsb' 0 16 = b := by
  refine BitVec.eq_of_getLsbD_eq fun i hi => ?_
  simp [hi, Nat.lt_trans hi (by decide : 16 < 32)]

theorem setWidth_low8 {w : Word} (h : w.extractLsb' 8 24 = (0 : BitVec 24)) :
    (w.extractLsb' 0 8).setWidth 32 = w := by
  ext i hi
  by_cases h8 : i < 8
  · simp [h8, hi]
  · have := congrArg (fun v => v.getLsbD (i - 8)) h
    simp only [BitVec.getLsbD_extractLsb'] at this
    have e : 8 + (i - 8) = i := by omega
    rw [e] at this
    have h24 : i - 8 < 24 := by omega
    simp [h24] at this
    rw [BitVec.getLsbD_eq_getElem hi] at this
    simp [h8, this]

theorem setWidth_low16 {w : Word} (h : w.extractLsb' 16 16 = (0 : BitVec 16)) :
    (w.extractLsb' 0 16).setWidth 32 = w := by
  ext i hi
  by_cases h8 : i < 16
  · simp [h8, hi]
  · have := congrArg (fun v => v.getLsbD (i - 16)) h
    simp only [BitVec.getLsbD_extractLsb'] at this
    have e : 16 + (i - 16) = i := by omega
    rw [e] at this
    have h24 : i - 16 < 16 := by omega
    simp [h24] at this
    rw [BitVec.getLsbD_eq_getElem hi] at this
    simp [h8, this]

theorem fieldU8_setWidth (b : Byte) : fieldU8 (b.setWidth 32) = .ok b := by
  simp [fieldU8, high24_setWidth, low8_setWidth]

theorem fieldC16_setWidth (b : Half) : fieldC16 (b.setWidth 32) = .ok b := by
  simp [fieldC16, high16_setWidth, low16_setWidth]

theorem fieldB1_wordB1 (b : Bool) : fieldB1 (wordB1 b) = .ok b := by
  cases b <;> decide

theorem wordCnt_eq {n : Nat} (h : n ≤ 65535) : wordCnt n = (BitVec.ofNat 16 n).setWidth 32 := by
  apply BitVec.eq_of_toNat_eq
  simp [wordCnt]; omega

theorem fieldCnt_wordCnt {n : Nat} (h : n ≤ 65535) : fieldCnt (wordCnt n) = .ok n := by
  rw [fieldCnt, wordCnt_eq h, high16_setWidth, low16_setWidth]
  simp; omega

theorem fieldU8_ok {w : Word} {b : Byte} (h : fieldU8 w = .ok b) : b.setWidth 32 = w := by
  unfold fieldU8 at h
  split at h
  · rename_i h0
    cases h
    exact setWidth_low8 h0
  · cases h

theorem fieldC16_ok {w : Word} {b : Half} (h : fieldC16 w = .ok b) : b.setWidth 32 = w := by
  unfold fieldC16 at h
  split at h
  · rename_i h0
    cases h
    exact setWidth_low16 h0
  · cases h

theorem fieldB1_ok {w : Word} {b : Bool} (h : fieldB1 w = .ok b) : wordB1 b = w := by
  unfold fieldB1 at h
  split at h
  · rename_i h0
    cases h
    have h1 : w = (BitVec.ofBool (w.getLsbD 0)).setWidth 32 := by
      ext i hi
      by_cases h1 : i = 0
      · subst h1; simp
      · have := congrArg (fun v => v.getLsbD (i - 1)) h0
        simp only [BitVec.getLsbD_extractLsb'] at this
        have e : 1 + (i - 1) = i := by omega
        rw [e] at this
        have h31 : i - 1 < 31 := by omega
        simp [h31] at this
        rw [BitVec.getLsbD_eq_getElem hi] at this
        simp [this, h1]
    conv_rhs => rw [h1]
    cases w.getLsbD 0 <;> decide
  · cases h

theorem fieldCnt_ok {w : Word} {n : Nat} (h : fieldCnt w = .ok n) : n ≤ 65535 ∧ wordCnt n = w := by
  unfold fieldCnt at h
  split at h
  · rename_i h0
    cases h
    have hlt := (w.extractLsb' 0 16).isLt
    refine ⟨by omega, ?_⟩
    rw [wordCnt_eq (by omega)]
    simp only [BitVec.ofNat_toNat, BitVec.setWidth_eq]
    exact setWidth_low16 h0
  · cases h

/-! ## Packed elements -/

/-- The bits of four bytes joined into a word. -/
theorem getLsbD_append4 (a b c d : Byte) (i : Nat) :
    (a ++ b ++ c ++ d : Word).getLsbD i =
      if i < 8 then d.getLsbD i else if i < 16 then c.getLsbD (i - 8)
      else if i < 24 then b.getLsbD (i - 16) else a.getLsbD (i - 24) := by
  have h : BitVec.getLsbD (w := 8 + 8 + 8 + 8) (a ++ b ++ c ++ d) i =
      if i < 8 then d.getLsbD i else if i - 8 < 8 then c.getLsbD (i - 8)
      else if i - 8 - 8 < 8 then b.getLsbD (i - 8 - 8) else a.getLsbD (i - 8 - 8 - 8) := by
    simp only [BitVec.getLsbD_append]
  refine h.trans ?_
  have e1 : i - 8 - 8 = i - 16 := by omega
  have e2 : i - 8 - 8 - 8 = i - 24 := by omega
  rw [e2, e1]
  split_ifs <;> first | rfl | omega

/-- The bits of two pixels joined into a word. -/
theorem getLsbD_append2 (a b : Half) (i : Nat) :
    (a ++ b : Word).getLsbD i = if i < 16 then b.getLsbD i else a.getLsbD (i - 16) := by
  have h : BitVec.getLsbD (w := 16 + 16) (a ++ b) i =
      if i < 16 then b.getLsbD i else a.getLsbD (i - 16) := by
    simp only [BitVec.getLsbD_append]
  exact h

theorem wordBytes_append (a b c d : Byte) : wordBytes (a ++ b ++ c ++ d) = [a, b, c, d] := by
  simp only [wordBytes, List.cons.injEq, and_true]
  refine ⟨?_, ?_, ?_, ?_⟩ <;>
    · refine BitVec.eq_of_getLsbD_eq fun i hi => ?_
      rw [BitVec.getLsbD_extractLsb', getLsbD_append4]
      have h1 : ¬ 24 + i < 8 := by omega
      have h2 : ¬ 24 + i < 16 := by omega
      have h3 : ¬ 24 + i < 24 := by omega
      have h4 : ¬ 16 + i < 8 := by omega
      have h5 : ¬ 16 + i < 16 := by omega
      have h6 : 16 + i < 24 := by omega
      have h7 : ¬ 8 + i < 8 := by omega
      have h8 : 8 + i < 16 := by omega
      simp [hi, h1, h2, h3, h4, h5, h6, h7, h8]

theorem append_wordBytes (w : Word) :
    (w.extractLsb' 24 8 ++ w.extractLsb' 16 8 ++ w.extractLsb' 8 8 ++ w.extractLsb' 0 8 : Word) = w := by
  refine BitVec.eq_of_getLsbD_eq fun i hi => ?_
  rw [getLsbD_append4]
  simp only [BitVec.getLsbD_extractLsb']
  split_ifs with h1 h2 h3
  · simp [h1]
  · have e : 8 + (i - 8) = i := by omega
    simp [e]; omega
  · have e : 16 + (i - 16) = i := by omega
    simp [e]; omega
  · have e : 24 + (i - 24) = i := by omega
    simp [e]; omega

theorem wordHalves_append (a b : Half) : wordHalves (a ++ b) = [a, b] := by
  simp only [wordHalves, List.cons.injEq, and_true]
  refine ⟨?_, ?_⟩ <;>
    · refine BitVec.eq_of_getLsbD_eq fun i hi => ?_
      rw [BitVec.getLsbD_extractLsb', getLsbD_append2]
      simp [hi]

theorem append_wordHalves (w : Word) :
    (w.extractLsb' 16 16 ++ w.extractLsb' 0 16 : Word) = w := by
  refine BitVec.eq_of_getLsbD_eq fun i hi => ?_
  rw [getLsbD_append2]
  simp only [BitVec.getLsbD_extractLsb']
  split_ifs with h1
  · simp [h1]
  · have e : 16 + (i - 16) = i := by omega
    simp [e]; omega

theorem packBytes_length (bs : List Byte) : (packBytes bs).length = (bs.length + 3) / 4 := by
  fun_induction packBytes bs <;> (simp_all; try omega)

theorem packHalves_length (ps : List Half) : (packHalves ps).length = (ps.length + 1) / 2 := by
  fun_induction packHalves ps <;> (simp_all; try omega)

/-- The bytes of packed bytes: the elements, then zeros. -/
theorem packBytes_flatMap (bs : List Byte) :
    ∃ k, (packBytes bs).flatMap wordBytes = bs ++ List.replicate k 0 := by
  fun_induction packBytes bs with
  | case1 => exact ⟨0, rfl⟩
  | case2 a => exact ⟨3, by simp [wordBytes_append, List.replicate]⟩
  | case3 a b => exact ⟨2, by simp [wordBytes_append, List.replicate]⟩
  | case4 a b c => exact ⟨1, by simp [wordBytes_append, List.replicate]⟩
  | case5 a b c d rest ih =>
    obtain ⟨k, hk⟩ := ih
    exact ⟨k, by simp [wordBytes_append, hk]⟩

/-- The halves of packed pixels: the elements, then zeros. -/
theorem packHalves_flatMap (ps : List Half) :
    ∃ k, (packHalves ps).flatMap wordHalves = ps ++ List.replicate k 0 := by
  fun_induction packHalves ps with
  | case1 => exact ⟨0, rfl⟩
  | case2 a => exact ⟨1, by simp [wordHalves_append, List.replicate]⟩
  | case3 a b rest ih =>
    obtain ⟨k, hk⟩ := ih
    exact ⟨k, by simp [wordHalves_append, hk]⟩

theorem elementBytes_pack (bs : List Byte) : elementBytes bs.length (packBytes bs) = .ok bs := by
  obtain ⟨k, hk⟩ := packBytes_flatMap bs
  simp [elementBytes, packBytes_length, hk]

theorem elementHalves_pack (ps : List Half) : elementHalves ps.length (packHalves ps) = .ok ps := by
  obtain ⟨k, hk⟩ := packHalves_flatMap ps
  simp [elementHalves, packHalves_length, hk]

/-- Packing what a whole number of words holds gives the words back. -/
theorem packBytes_wordBytes (ws : List Word) (n : Nat) (hn : ws.length = (n + 3) / 4)
    (hz : ((ws.flatMap wordBytes).drop n).all (· == 0) = true) :
    packBytes ((ws.flatMap wordBytes).take n) = ws ∧ ((ws.flatMap wordBytes).take n).length = n := by
  induction ws generalizing n with
  | nil =>
    have : n = 0 := by simp at hn; omega
    subst this; simp [packBytes]
  | cons w ws ih =>
    simp only [List.flatMap_cons] at hz ⊢
    have hw : wordBytes w = [w.extractLsb' 24 8, w.extractLsb' 16 8, w.extractLsb' 8 8, w.extractLsb' 0 8] := rfl
    by_cases h4 : 4 ≤ n
    · obtain ⟨m, rfl⟩ : ∃ m, n = m + 4 := ⟨n - 4, by omega⟩
      have hm : ws.length = (m + 3) / 4 := by simp at hn; omega
      rw [hw] at hz ⊢
      simp only [List.cons_append, List.nil_append, List.drop_succ_cons, List.take_succ_cons] at hz ⊢
      obtain ⟨h1, h2⟩ := ih m hm hz
      exact ⟨by rw [packBytes, h1, append_wordBytes], by simp [h2]⟩
    · have hnil : ws = [] := by
        have : ws.length = 0 := by simp at hn; omega
        exact List.length_eq_zero_iff.1 this
      subst hnil
      have hne : n ≠ 0 := by simp at hn; omega
      have h3 : n = 1 ∨ n = 2 ∨ n = 3 := by omega
      rw [hw] at hz ⊢
      rcases h3 with rfl | rfl | rfl <;>
        (simp at hz; simp [packBytes]; conv_rhs => rw [← append_wordBytes w]
         simp [hz])

theorem packHalves_wordHalves (ws : List Word) (n : Nat) (hn : ws.length = (n + 1) / 2)
    (hz : ((ws.flatMap wordHalves).drop n).all (· == 0) = true) :
    packHalves ((ws.flatMap wordHalves).take n) = ws ∧ ((ws.flatMap wordHalves).take n).length = n := by
  induction ws generalizing n with
  | nil =>
    have : n = 0 := by simp at hn; omega
    subst this; simp [packHalves]
  | cons w ws ih =>
    simp only [List.flatMap_cons] at hz ⊢
    have hw : wordHalves w = [w.extractLsb' 16 16, w.extractLsb' 0 16] := rfl
    by_cases h2 : 2 ≤ n
    · obtain ⟨m, rfl⟩ : ∃ m, n = m + 2 := ⟨n - 2, by omega⟩
      have hm : ws.length = (m + 1) / 2 := by simp at hn; omega
      rw [hw] at hz ⊢
      simp only [List.cons_append, List.nil_append, List.drop_succ_cons, List.take_succ_cons] at hz ⊢
      obtain ⟨h1, h3⟩ := ih m hm hz
      exact ⟨by rw [packHalves, h1, append_wordHalves], by simp [h3]⟩
    · have hnil : ws = [] := by
        have : ws.length = 0 := by simp at hn; omega
        exact List.length_eq_zero_iff.1 this
      subst hnil
      have h1 : n = 1 := by simp at hn; omega
      subst h1
      rw [hw] at hz ⊢
      simp at hz
      simp only [List.flatMap_nil, List.append_nil, List.take_succ_cons, List.take_zero, packHalves,
        List.length_cons, List.length_nil, and_true]
      conv_rhs => rw [← append_wordHalves w]
      simp [hz]

theorem elementBytes_ok {n : Nat} {ws : List Word} {bs : List Byte} (h : elementBytes n ws = .ok bs) :
    bs.length = n ∧ packBytes bs = ws := by
  unfold elementBytes at h
  split at h
  · rename_i hn
    dsimp only at h
    split at h
    · rename_i hz
      cases h
      exact ⟨(packBytes_wordBytes ws n hn hz).2, (packBytes_wordBytes ws n hn hz).1⟩
    · cases h
  · cases h

theorem elementHalves_ok {n : Nat} {ws : List Word} {ps : List Half} (h : elementHalves n ws = .ok ps) :
    ps.length = n ∧ packHalves ps = ws := by
  unfold elementHalves at h
  split at h
  · rename_i hn
    dsimp only at h
    split at h
    · rename_i hz
      cases h
      exact ⟨(packHalves_wordHalves ws n hn hz).2, (packHalves_wordHalves ws n hn hz).1⟩
    · cases h
  · cases h

/-! ## Tags -/

theorem HostTag.ofCode_code (t : HostTag) : HostTag.ofCode t.code = some t := by
  cases t <;> decide

theorem HostTag.code_of_ofCode {b : Byte} {t : HostTag} (h : HostTag.ofCode b = some t) : t.code = b := by
  have := List.find?_some h
  simpa using this

/-- The reserved tags of R66 are exactly those the table lacks. -/
theorem reservedTag_iff (b : Byte) : reservedTag b = true ↔ HostTag.ofCode b = none := by
  revert b; decide

/-- A descriptor that starts with an operation's header is read as that operation. -/
theorem decodeDescriptor_header (t : HostTag) (ws : List Word) :
    decodeDescriptor (t.header :: ws) = decodeOperands t ws := by
  simp only [decodeDescriptor, HostTag.header, high24_setWidth, low8_setWidth, HostTag.ofCode_code, if_true]

/-- A reserved header is read as the reserved row. -/
theorem decodeDescriptor_reserved {h : Word} (ws : List Word) (hr : reservedHeader h = true) :
    decodeDescriptor (h :: ws) = .ok (.reservedHostTag h ws) := by
  simp only [reservedHeader, Bool.or_eq_true, bne_iff_ne, reservedTag_iff] at hr
  simp only [decodeDescriptor]
  split
  · rename_i h0
    have := hr.resolve_left (not_not_intro h0)
    simp [this]
  · rfl

end Sys2Proof
end

