-- ==== Sys2Proof/Laws/Decoding.lean ====
section
/-! SUPPORT. What a successful decoding says: the operands are well-formed, and the words read are their encoding. -/

namespace Sys2Proof

theorem decode_bind_ok {α β : Type} {x : Except DecodeError α} {f : α → Except DecodeError β} {r : β}
    (h : (x >>= f) = .ok r) : ∃ a, x = .ok a ∧ f a = .ok r := by
  cases x with
  | error e => cases h
  | ok a => exact ⟨a, rfl, h⟩

/-- Operand words that decode are the encoding of a well-formed instruction. -/
theorem decodeOperands_ok {c : Config} {t : HostTag} {ws : List Word} {i : Instr}
    (h : decodeOperands t ws = .ok i) : i.wf c = true ∧ encode c i = .descriptor (t.header :: ws) := by
  cases t
  case sendCmd =>
    simp only [decodeOperands] at h; split at h <;> try cases h
    obtain ⟨a, h1, h⟩ := decode_bind_ok h
    cases h; simp [Instr.wf, encode, fieldU8_ok h1]
  case sendCmdParams =>
    simp only [decodeOperands] at h; split at h <;> try cases h
    obtain ⟨a, h1, h⟩ := decode_bind_ok h
    obtain ⟨n, h2, h⟩ := decode_bind_ok h
    obtain ⟨els, h3, h⟩ := decode_bind_ok h
    cases h; simp [Instr.wf, encode, maxCount, fieldU8_ok h1, (fieldCnt_ok h2).1, (fieldCnt_ok h2).2,
        (elementBytes_ok h3).1, (elementBytes_ok h3).2]
  case textWidth =>
    simp only [decodeOperands] at h; split at h <;> try cases h
    obtain ⟨a, h1, h⟩ := decode_bind_ok h
    obtain ⟨n, h2, h⟩ := decode_bind_ok h
    obtain ⟨els, h3, h⟩ := decode_bind_ok h
    cases h; simp [Instr.wf, encode, maxCount, fieldU8_ok h1, (fieldCnt_ok h2).1, (fieldCnt_ok h2).2,
        (elementBytes_ok h3).1, (elementBytes_ok h3).2]
  case pushPixels =>
    simp only [decodeOperands] at h; split at h <;> try cases h
    obtain ⟨n, h2, h⟩ := decode_bind_ok h
    obtain ⟨els, h3, h⟩ := decode_bind_ok h
    cases h; simp [Instr.wf, encode, maxCount, (fieldCnt_ok h2).1, (fieldCnt_ok h2).2,
        (elementHalves_ok h3).1, (elementHalves_ok h3).2]
  case init =>
    simp only [decodeOperands] at h; split at h <;> try cases h
    simp [Instr.wf, encode]
  case backlight =>
    simp only [decodeOperands] at h; split at h <;> try cases h
    obtain ⟨a, h1, h⟩ := decode_bind_ok h
    cases h; simp [Instr.wf, encode, fieldB1_ok h1]
  case setWindow =>
    simp only [decodeOperands] at h; split at h <;> try cases h
    simp [Instr.wf, encode]
  case fillScreen =>
    simp only [decodeOperands] at h; split at h <;> try cases h
    obtain ⟨a, h1, h⟩ := decode_bind_ok h
    cases h; simp [Instr.wf, encode, fieldC16_ok h1]
  case hline =>
    simp only [decodeOperands] at h; split at h <;> try cases h
    obtain ⟨a, h1, h⟩ := decode_bind_ok h
    cases h; simp [Instr.wf, encode, fieldC16_ok h1]
  case vline =>
    simp only [decodeOperands] at h; split at h <;> try cases h
    obtain ⟨a, h1, h⟩ := decode_bind_ok h
    cases h; simp [Instr.wf, encode, fieldC16_ok h1]
  case fillRect =>
    simp only [decodeOperands] at h; split at h <;> try cases h
    obtain ⟨a, h1, h⟩ := decode_bind_ok h
    cases h; simp [Instr.wf, encode, fieldC16_ok h1]
  case roundRect =>
    simp only [decodeOperands] at h; split at h <;> try cases h
    obtain ⟨a, h1, h⟩ := decode_bind_ok h
    cases h; simp [Instr.wf, encode, fieldC16_ok h1]
  case color565 =>
    simp only [decodeOperands] at h; split at h <;> try cases h
    obtain ⟨a, h1, h⟩ := decode_bind_ok h
    obtain ⟨b, h2, h⟩ := decode_bind_ok h
    obtain ⟨d, h3, h⟩ := decode_bind_ok h
    cases h; simp [Instr.wf, encode, fieldU8_ok h1, fieldU8_ok h2, fieldU8_ok h3]
  case charSize =>
    simp only [decodeOperands] at h; split at h <;> try cases h
    obtain ⟨a, h1, h⟩ := decode_bind_ok h
    cases h; simp [Instr.wf, encode, fieldU8_ok h1]
  case drawChar =>
    simp only [decodeOperands] at h; split at h <;> try cases h
    obtain ⟨a, h1, h⟩ := decode_bind_ok h
    obtain ⟨b, h2, h⟩ := decode_bind_ok h
    obtain ⟨d, h3, h⟩ := decode_bind_ok h
    obtain ⟨e, h4, h⟩ := decode_bind_ok h
    cases h; simp [Instr.wf, encode, fieldU8_ok h1, fieldC16_ok h2, fieldC16_ok h3, fieldU8_ok h4]
  case drawText =>
    simp only [decodeOperands] at h; split at h <;> try cases h
    obtain ⟨b, h2, h⟩ := decode_bind_ok h
    obtain ⟨d, h3, h⟩ := decode_bind_ok h
    obtain ⟨e, h4, h⟩ := decode_bind_ok h
    obtain ⟨n, h5, h⟩ := decode_bind_ok h
    obtain ⟨els, h6, h⟩ := decode_bind_ok h
    cases h; simp [Instr.wf, encode, maxCount, fieldU8_ok h4, fieldC16_ok h2, fieldC16_ok h3,
        (fieldCnt_ok h5).1, (fieldCnt_ok h5).2, (elementBytes_ok h6).1, (elementBytes_ok h6).2]

end Sys2Proof
end

