-- ==== Sys2Proof/Laws/Draw.lean ====
section
/-! SUPPORT. A fill, and lists of paints, performed on a healthy bus. -/

namespace Sys2Proof.Machine

theorem initSeq_events_ne_nil {st : List InitStep} (h : st ≠ []) : st.flatMap initStepEvents ≠ [] := by
  cases st with
  | nil => exact absurd rfl h
  | cons a l => cases a <;> simp [initStepEvents, cmdFrame]

theorem paintEvents_ne_nil {c : Config} {win : Window} {px : Window → List Half} : paintEvents c (some win)
    px ≠ [] := by
  simp [paintEvents, setupEvents]

/-- A fill with a nonempty intersection (R79). -/
theorem perform_fill {s : State} {tag : Byte} {x y w h : Int} {color : Half} {win : Window}
    (hc : s.cfg.panelFits)
    (hb : BusHealthy s) (hw : fillWindow s.cfg x y w h = some win) :
    perform tag (fillBody s.cfg x y w h color) s = sent s (paintEvents s.cfg (some win) (solid color))
        (withWindow s.block win 0) := by
  rw [perform, fillBody_eq _ _ _ _ _ _ _ hc, hw]
  refine (commit_healthy (by simpa using paintEvents_ne_nil) hb).trans ?_
  simp [paintRegs]

/-- A fill with an empty intersection does nothing (R79). -/
theorem perform_fill_empty {s : State} {tag : Byte} {x y w h : Int} {color : Half} (hc : s.cfg.panelFits)
    (hw : fillWindow s.cfg x y w h = none) :
    perform tag (fillBody s.cfg x y w h color) s = s := by
  rw [perform, fillBody_eq _ _ _ _ _ _ _ hc, hw]
  exact (commit_nil (by simp [paintEvents])).trans (by simp [paintRegs])

theorem paintEvents_flatMap_ne_nil {c : Config} {wins : List (Option Window)} {px}
    (h : ∃ win ∈ wins, win ≠ none) :
    wins.flatMap (fun win => paintEvents c win px) ≠ [] := by
  obtain ⟨win, hm, hne⟩ := h
  obtain ⟨w, rfl⟩ := Option.ne_none_iff_exists'.1 hne
  intro h
  exact paintEvents_ne_nil (List.flatMap_eq_nil_iff.1 h _ hm)

theorem paintAllRegs_none {wins : List (Option Window)} {b : Block} (h : ∀ win ∈ wins, win = none) :
    paintAllRegs wins b = b := by
  induction wins with
  | nil => rfl
  | cons a l ih =>
    have := h a (by simp); subst this
    exact ih (fun w hw => h w (by simp [hw]))

/-- The bounds of a nonempty intersection (R78). -/
theorem fillWindow_bounds {c : Config} {x y w h : Int} {win : Window} (hw : fillWindow c x y w h = some
    win) :
  (win.x0 : Int) = max x 0 ∧ (win.y0 : Int) = max y 0 ∧ (win.x1 : Int) = min (x + w) c.panelW - 1 ∧
      (win.y1 : Int) = min (y+h) c.panelH - 1 := by
  unfold fillWindow at hw
  split at hw
  · cases hw
    rename_i h
    refine ⟨?_, ?_, ?_, ?_⟩ <;> dsimp only <;> omega
  · cases hw

theorem zipIdx_map_snd {α : Type} (l : List Byte) (k : Nat) (f : Nat → α) : (l.zipIdx k).map
    (fun c => f c.2) = (List.range' k l.length).map f := by
  induction l generalizing k with
  | nil => rfl
  | cons a l ih => simp [List.zipIdx_cons, ih, List.range'_succ]

end Sys2Proof.Machine
end

