-- ==== Sys2Proof/Laws/Memory.lean ====
section
/-! SUPPORT. GRAM: read after write, and the canonical form every write keeps. -/

namespace Sys2Proof.Machine

@[simp] theorem gramRead_nil (k : Nat) : gramRead [] k = none := rfl

/-- A write is read back. -/
theorem gramRead_write_same (g : Gram) (k : Nat) (v : Half) : gramRead (gramWrite g k v) k = some v := by
  induction g with
  | nil => simp [gramWrite, gramRead]
  | cons cell rest ih =>
    obtain ⟨a, u⟩ := cell
    simp only [gramWrite]
    split
    · simp [gramRead]
    · split
      · simp [gramRead]
      · have : a ≠ k := fun h => by omega
        simp [gramRead, this, ih]

/-- A write leaves every other cell alone. -/
theorem gramRead_write_other (g : Gram) {k k' : Nat} (v : Half) (h : k' ≠ k) :
    gramRead (gramWrite g k v) k' = gramRead g k' := by
  induction g with
  | nil => simp [gramWrite, gramRead, h.symm]
  | cons cell rest ih =>
    obtain ⟨a, u⟩ := cell
    simp only [gramWrite]
    split
    · simp [gramRead, h.symm]
    · split
      · rename_i hk
        subst hk
        simp [gramRead, h.symm]
      · simp only [gramRead, ih]

theorem gramRead_write (g : Gram) (k k' : Nat) (v : Half) :
    gramRead (gramWrite g k v) k' = if k' = k then some v else gramRead g k' := by
  split
  · rename_i h; subst h; exact gramRead_write_same g k' v
  · rename_i h; exact gramRead_write_other g v h

/-- The cells of a written memory: the written one, and cells that were there. -/
theorem mem_gramWrite {g : Gram} {k : Nat} {v : Half} {cell : Nat × Half} (h : cell ∈ gramWrite g k v) :
    cell = (k, v) ∨ cell ∈ g := by
  induction g with
  | nil => simpa [gramWrite] using h
  | cons head rest ih =>
    obtain ⟨a, u⟩ := head
    simp only [gramWrite] at h
    split at h
    · simpa using h
    · split at h
      · rcases List.mem_cons.1 h with h | h
        · exact .inl h
        · exact .inr (List.mem_cons_of_mem _ h)
      · rcases List.mem_cons.1 h with h | h
        · exact .inr (by simp [h])
        · exact (ih h).imp_right (List.mem_cons_of_mem _)

/-- Every write keeps the canonical form. -/
theorem gramWrite_wf {g : Gram} (k : Nat) (v : Half) (h : Memory.wf g) : Memory.wf (gramWrite g k v) := by
  induction g with
  | nil => simp [gramWrite, Memory.wf]
  | cons head rest ih =>
    obtain ⟨a, u⟩ := head
    obtain ⟨hhead, hrest⟩ := List.pairwise_cons.1 h
    simp only [gramWrite]
    split
    · rename_i hk
      refine List.pairwise_cons.2 ⟨?_, h⟩
      intro cell hc
      rcases List.mem_cons.1 hc with hc | hc
      · simpa [hc] using hk
      · exact Nat.lt_trans hk (hhead cell hc)
    · split
      · rename_i hk
        subst hk
        exact List.pairwise_cons.2 ⟨hhead, hrest⟩
      · rename_i h1 h2
        refine List.pairwise_cons.2 ⟨?_, ih hrest⟩
        intro cell hc
        rcases mem_gramWrite hc with hc | hc
        · simp only [hc]; omega
        · exact hhead cell hc

/-- A written cell's column and row, from its number. -/
theorem gramKey_column (x y : Half) : gramKey x y % 65536 = x.toNat := by
  have := x.isLt
  simp only [gramKey]; omega

theorem gramKey_row (x y : Half) : gramKey x y / 65536 = y.toNat := by
  have := x.isLt
  simp only [gramKey]; omega

/-- No two cells share a number. -/
theorem gramKey_inj {x y x' y' : Half} : gramKey x y = gramKey x' y' ↔ x = x' ∧ y = y' := by
  constructor
  · intro h
    exact ⟨BitVec.eq_of_toNat_eq (by rw [← gramKey_column x y, h, gramKey_column]),
      BitVec.eq_of_toNat_eq (by rw [← gramKey_row x y, h, gramKey_row])⟩
  · rintro ⟨rfl, rfl⟩; rfl

/-- A write inside the grid keeps every cell inside it. -/
theorem gramWrite_inGrid {c : Config} {g : Gram} {x y : Half} (v : Half) (h : Memory.inGrid c g)
    (hx : x.toNat < c.panelW) (hy : y.toNat < c.panelH) : Memory.inGrid c (gramWrite g (gramKey x y) v) := by
  intro cell hc
  rcases mem_gramWrite hc with hc | hc
  · simp only [hc, gramKey_column, gramKey_row]; exact ⟨hx, hy⟩
  · exact h cell hc

end Sys2Proof.Machine
end

