-- ==== Sys2Proof/Laws/Sink.lean ====
section
/-! SUPPORT. The panel sink: what one event does to the panel alone, running a list of events, and how
the machine's steps run them. -/

namespace Sys2Proof.Machine

/-! ## One event -/

/-- A command's own effect on the panel (R103 to R113), past the checks. -/
def panelEffect (c : Config) : Instr → Panel → Panel
  | .swreset, p => swresetEffect p
  | .slpout, p => { p with sleep := some false, settle := some 0, mode := .idle }
  | .dispon, p => { p with dispOn := some true, mode := .idle }
  | .caset, p => { p with mode := .params .caset [] }
  | .raset, p => { p with mode := .params .raset [] }
  | .ramwr, p => ramwrEffect c p
  | .madctl, p => { p with mode := .params .madctl [] }
  | .colmod, p => { p with mode := .params .colmod [] }
  | .vendor op, p => { p with mode := .params (.vendor op) [] }
  | .unmodelled _, p => { p with refused := true, mode := .discard }
  | _, p => p

/-- A command byte is never read as a host operation. -/
theorem decodeCommand_not_hostOp (c : Config) (b : Byte) : (decodeCommand c b).isHostOp = false := by
  unfold decodeCommand
  split_ifs <;> rfl

/-- Every panel command is its checks and its own effect. -/
theorem exec_command {i : Instr} (s : State) (hi : i.isHostOp = false) :
    exec i s = panelCommand (panelEffect s.cfg i) s := by
  cases i <;> first | rfl | cases hi

theorem panelCommand_stuck {f : Panel → Panel} {s : State} (h : s.panel.fault ≠ .none) :
    panelCommand f s = .fault .panelStuck := if_neg h

theorem panelCommand_faulting {f : Panel → Panel} {s : State} {code : PanelFault}
    (h : s.panel.fault = .none) (hc : commandCheck s.panel = some code) :
    panelCommand f s = .next { s with panel := { s.panel with fault := code } } := by
  simp [panelCommand, h, hc, raisePanel_of_none h]

theorem panelCommand_run {f : Panel → Panel} {s : State} (h : s.panel.fault = .none)
    (hc : commandCheck s.panel = none) :
    panelCommand f s = .next { s with panel := f s.panel } := by
  simp [panelCommand, h, hc]

/-- A sink that accepts a command passes the checks. -/
theorem commandCheck_accepts {p : Panel} (h : PanelAccepts p) : commandCheck p = none := by
  obtain ⟨_, hcs, hs, hcl⟩ := h
  simp [commandCheck, byteCheck, hcs, hs, hcl]

theorem byteCheck_takes {p : Panel} (h : PanelTakesData p) : byteCheck p = none := by
  obtain ⟨_, hcs, hs⟩ := h
  simp [byteCheck, hcs, hs]

/-- One event on the panel alone. -/
def panelEvent (c : Config) (e : BusEvent) (p : Panel) : Except Fault Panel :=
  match e with
  | .csAssert => .ok (chipSelect true p)
  | .csRelease => .ok (chipSelect false p)
  | .delay ms => .ok (delayEvent c ms p)
  | .cmd b =>
    .ok (match commandCheck p with
      | some code => raisePanel code p
      | none => panelEffect c (decodeCommand c b) p)
  | .dat d => dataByte c d p

/-- Everything an event does to the machine, it does to the panel. -/
theorem consume_eq (e : BusEvent) {s : State} (h : s.panel.fault = .none) :
    consume e s = withPanel (panelEvent s.cfg e s.panel) s := by
  cases e with
  | csAssert => rfl
  | csRelease => rfl
  | delay ms => rfl
  | dat d => rfl
  | cmd b =>
    exact (exec_command s (decodeCommand_not_hostOp s.cfg b)).trans (if_pos h)

/-- Everything an event can answer: a panel, or one of the two stops of a memory write. -/
theorem panelEvent_cases (c : Config) (e : BusEvent) (p : Panel) :
    (∃ q, panelEvent c e p = .ok q)
      ∨ (∃ d, e = .dat d ∧ p.mode = .memWrite ∧ pixelByte c d p = panelEvent c e p) := by
  cases e with
  | csAssert => exact .inl ⟨_, rfl⟩
  | csRelease => exact .inl ⟨_, rfl⟩
  | delay ms => exact .inl ⟨_, rfl⟩
  | cmd b => exact .inl ⟨_, rfl⟩
  | dat d =>
    simp only [panelEvent, dataByte]
    cases byteCheck p with
    | some code => exact .inl ⟨_, rfl⟩
    | none =>
      cases hm : p.mode with
      | idle => exact .inl ⟨_, rfl⟩
      | discard => exact .inl ⟨_, rfl⟩
      | params op bytes => exact .inl ⟨_, rfl⟩
      | memWrite => exact .inr ⟨d, rfl, rfl, rfl⟩

/-! ## Running the events of the trace -/

/-- A list of events on the panel, each taken by a sink that is not stuck. -/
def panelRun (c : Config) : List BusEvent → Panel → Option Panel
  | [], p => some p
  | e :: es, p =>
    if p.fault = .none then
      match panelEvent c e p with
      | .ok q => panelRun c es q
      | .error _ => none
    else none

theorem panelRun_append (c : Config) (es fs : List BusEvent) (p : Panel) :
    panelRun c (es ++ fs) p = (panelRun c es p).bind (panelRun c fs) := by
  induction es generalizing p with
  | nil => rfl
  | cons e es ih =>
    simp only [List.cons_append, panelRun]
    split
    · split
      · exact ih _
      · rfl
    · rfl

theorem panelRun_cons {c : Config} {e : BusEvent} {p q : Panel} (es : List BusEvent)
    (hf : p.fault = .none) (he : panelEvent c e p = .ok q) :
    panelRun c (e :: es) p = panelRun c es q := by
  simp [panelRun, hf, he]

theorem pending_cons {s : State} {e : BusEvent} {es : List BusEvent} (h : pending s = e :: es) :
    s.trace[s.taken]? = some e ∧ pending (takeEvent s) = es := by
  unfold pending at h ⊢
  constructor
  · have := congrArg (fun l => l[0]?) h
    simpa using this
  · have := congrArg List.tail h
    simpa [List.tail_drop] using this

/-- A run of one step more. -/
theorem run_succ (M : Host.Core) (n : Nat) {s t : M.State} (h : M.step s = .next t) :
    M.run (n + 1) s = M.run n t := by
  simp only [Host.Core.run, h]

theorem run_succ_next {n : Nat} {s t : State} (h : step s = .next t) :
    Host.Core.run core (n + 1) s = Host.Core.run core n t :=
  run_succ core n h

/-- The machine's steps run the events the sink has not taken yet. -/
theorem run_panelRun {s : State} {es rest : List BusEvent} {p : Panel} (hp : pending s = es ++ rest)
    (hr : panelRun s.cfg es s.panel = some p) :
    Host.Core.run core es.length s
      = .next { s with taken := s.taken + es.length, panel := p } := by
  induction es generalizing s with
  | nil =>
    simp only [panelRun, Option.some.injEq] at hr
    subst hr
    rfl
  | cons e es ih =>
    obtain ⟨h1, h2⟩ := pending_cons hp
    simp only [panelRun] at hr
    split at hr
    · rename_i hf
      split at hr
      · rename_i q hq
        have hstep : step s = .next { takeEvent s with panel := q } := by
          simp only [step, stepAgents, nextPanelEvent, hf, if_true, h1]
          rw [consume_eq e (by exact hf)]
          simp [withPanel, hq]
        have := ih (s := { takeEvent s with panel := q }) h2 hr
        refine (run_succ_next hstep).trans ?_
        refine this.trans ?_
        simp [takeEvent, Nat.add_comm, Nat.add_left_comm]
      · cases hr
    · cases hr

/-! ## Frames at the panel -/

/-- Data bytes with the two bytes of a 16-bit value, joined again (R41). -/
theorem joinBytes_beBytes (v : Half) :
    joinBytes (BitVec.ofNat 8 (v.toNat / 256)) (BitVec.ofNat 8 (v.toNat % 256)) = v := by
  have hv := v.isLt
  apply BitVec.eq_of_toNat_eq
  simp only [joinBytes, BitVec.toNat_append, BitVec.toNat_ofNat]
  rw [← Nat.shiftLeft_add_eq_or_of_lt (by omega)]
  simp only [Nat.shiftLeft_eq]
  omega

end Sys2Proof.Machine
end

