-- ==== Sys2Proof/Laws/Raster.lean ====
section
/-! SUPPORT. A memory write at the panel: the window commands, and the pixels of a stream in raster
order (43_panel_commands.md rules R106 to R109). -/

namespace Sys2Proof.Machine

/-! ## Painting a list of pixels -/

/-- GRAM after pixels `k`, `k+1`, … of a window `w` columns wide that starts at column `sc`, row `sp`. -/
def gramPaint (sc sp w : Nat) : Nat → List Half → Gram → Gram
  | _, [], g => g
  | k, v :: vs, g =>
    gramPaint sc sp w (k + 1) vs
      (gramWrite g (gramKey (BitVec.ofNat 16 (sc + k % w)) (BitVec.ofNat 16 (sp + k / w))) v)

/-- The number of the pixel that a window's cell takes. -/
theorem raster_index {w sc sp k x y : Nat} (hw : 0 < w) (hx : sc ≤ x) (hx' : x < sc + w) (hy : sp ≤ y) :
    (sc + k % w = x ∧ sp + k / w = y) ↔ k = (y - sp) * w + (x - sc) := by
  constructor
  · rintro ⟨h1, h2⟩
    have h3 : k % w = x - sc := by omega
    have h4 : k / w = y - sp := by omega
    have := Nat.div_add_mod k w
    rw [h3, h4] at this
    rw [Nat.mul_comm]; exact this.symm
  · intro h
    have h1 : k % w = x - sc := by
      rw [h, Nat.add_comm, Nat.add_mul_mod_self_right, Nat.mod_eq_of_lt (by omega)]
    have h2 : k / w = y - sp := by
      rw [h, Nat.add_comm, Nat.add_mul_div_right _ _ hw, Nat.div_eq_of_lt (by omega), Nat.zero_add]
    omega

/-- What a cell holds after the pixels from `k` on: its own pixel where it is one of them, and what it
held before otherwise. -/
theorem gramRead_gramPaint {sc sp w h : Nat} (hw : 0 < w) (hsc : sc + w ≤ 65536) (hsp : sp + h ≤ 65536)
    (vs : List Half) (k : Nat) (hk : k + vs.length ≤ w * h) (g : Gram) (x y : Half) :
    gramRead (gramPaint sc sp w k vs g) (gramKey x y) =
      if sc ≤ x.toNat ∧ x.toNat < sc + w ∧ sp ≤ y.toNat
          ∧ k ≤ (y.toNat - sp) * w + (x.toNat - sc)
          ∧ (y.toNat - sp) * w + (x.toNat - sc) < k + vs.length then
        vs[(y.toNat - sp) * w + (x.toNat - sc) - k]?
      else gramRead g (gramKey x y) := by
  induction vs generalizing k g with
  | nil =>
    simp only [gramPaint, List.length_nil, Nat.add_zero]
    rw [if_neg (by omega)]
  | cons v vs ih =>
    have hk0 : k < w * h := by simp at hk; omega
    have hcol : k % w < w := Nat.mod_lt _ hw
    have hrow : k / w < h := by rw [Nat.div_lt_iff_lt_mul hw, Nat.mul_comm]; exact hk0
    have hkey : gramKey x y = gramKey (BitVec.ofNat 16 (sc + k % w)) (BitVec.ofNat 16 (sp + k / w))
        ↔ sc + k % w = x.toNat ∧ sp + k / w = y.toNat := by
      rw [gramKey_inj]
      have t1 := coord_toNat (show sc + k % w < 65536 by omega)
      have t2 := coord_toNat (show sp + k / w < 65536 by omega)
      constructor
      · rintro ⟨rfl, rfl⟩
        exact ⟨t1.symm, t2.symm⟩
      · rintro ⟨h1, h2⟩
        exact ⟨BitVec.eq_of_toNat_eq (h1.symm.trans t1.symm), BitVec.eq_of_toNat_eq (h2.symm.trans t2.symm)⟩
    rw [gramPaint, ih (k + 1) (by simp at hk; omega)]
    simp only [gramRead_write, hkey, List.length_cons]
    generalize hm : (y.toNat - sp) * w + (x.toNat - sc) = m
    by_cases hin : sc ≤ x.toNat ∧ x.toNat < sc + w ∧ sp ≤ y.toNat
    · obtain ⟨h1, h2, h3⟩ := hin
      have hri := raster_index (k := k) hw h1 h2 h3
      rw [hm] at hri
      by_cases hkm : k = m
      · have := hri.2 hkm
        rw [if_neg (by omega), if_pos this, if_pos (by omega), hkm]
        simp
      · have hne : ¬(sc + k % w = x.toNat ∧ sp + k / w = y.toNat) := fun h => hkm (hri.1 h)
        by_cases hr : k + 1 ≤ m ∧ m < k + 1 + vs.length
        · rw [if_pos ⟨h1, h2, h3, hr.1, hr.2⟩, if_pos ⟨h1, h2, h3, by omega, by omega⟩]
          have : m - k = (m - (k + 1)) + 1 := by omega
          rw [this, List.getElem?_cons_succ]
        · rw [if_neg (by omega), if_neg hne, if_neg (by omega)]
    · have hne : ¬(sc + k % w = x.toNat ∧ sp + k / w = y.toNat) := by
        rintro ⟨h1, h2⟩
        exact hin ⟨by omega, by omega, h2 ▸ Nat.le_add_right _ _⟩
      rw [if_neg (by omega), if_neg hne, if_neg (by omega)]

/-! ## The pixels of a stream at the panel -/

/-- The panel with `k` of the `n` pixels of a window taken. -/
def atPixel (p : Panel) (sc sp w n k : Nat) (g : Gram) : Panel :=
  { p with
    cx := some (BitVec.ofNat 16 (sc + k % w))
    cy := some (BitVec.ofNat 16 (sp + k / w))
    remain := BitVec.ofNat 32 (n - k)
    half := none
    gram := g }

/-- One pixel word: its cell is written and the counter moves on. -/
theorem panelRun_pixel {c : Config} {p : Panel} {sc sp w h k : Nat} (v : Half) (g : Gram)
    (hf : p.fault = .none) (hcs : p.cs = true) (hst : p.settle = none) (hm : p.mode = .memWrite)
    (hw : 0 < w) (hfits : c.panelFits) (hsc : sc + w ≤ c.panelW) (hsp : sp + h ≤ c.panelH)
    (hpsc : p.sc = some (BitVec.ofNat 16 sc)) (hpec : p.ec = some (BitVec.ofNat 16 (sc + w - 1)))
    (hk : k < w * h) :
    panelRun c ((beBytes v.toNat).map .dat) (atPixel p sc sp w (w * h) k g)
      = some (atPixel p sc sp w (w * h) (k + 1)
          (gramWrite g (gramKey (BitVec.ofNat 16 (sc + k % w)) (BitVec.ofNat 16 (sp + k / w))) v)) := by
  have hcol : k % w < w := Nat.mod_lt _ hw
  have hrow : k / w < h := by rw [Nat.div_lt_iff_lt_mul hw, Nat.mul_comm]; exact hk
  obtain ⟨hf1, hf2⟩ := hfits
  have hn : w * h < 2 ^ 32 := by
    calc w * h ≤ 65535 * 65535 := Nat.mul_le_mul (by omega) (by omega)
      _ < 2 ^ 32 := by norm_num
  have hrem : BitVec.ofNat 32 (w * h - k) ≠ 0#32 := by
    intro h0
    have := congrArg BitVec.toNat h0
    simp at this
    omega
  simp only [beBytes, List.map_cons, List.map_nil]
  have h1 : panelEvent c (.dat (BitVec.ofNat 8 (v.toNat / 256))) (atPixel p sc sp w (w * h) k g)
      = .ok { atPixel p sc sp w (w * h) k g with half := some (BitVec.ofNat 8 (v.toNat / 256)) } := by
    simp [panelEvent, dataByte, byteCheck, atPixel, hcs, hst, hm, pixelByte, hrem]
  rw [panelRun_cons _ (by exact hf) h1]
  have hdiv : (k + 1) / w = if k % w + 1 = w then k / w + 1 else k / w := by
    rw [Nat.succ_div]
    by_cases hlast : k % w + 1 = w
    · rw [if_pos hlast, if_pos]
      rw [Nat.dvd_iff_mod_eq_zero, Nat.add_mod, ]
      rcases Nat.lt_or_ge 1 w with h1w | h1w
      · rw [Nat.mod_eq_of_lt h1w, hlast, Nat.mod_self]
      · have : w = 1 := by omega
        subst this; simp [Nat.mod_one]
    · rw [if_neg hlast, if_neg]
      · rfl
      rw [Nat.dvd_iff_mod_eq_zero, Nat.add_mod]
      rcases Nat.lt_or_ge 1 w with h1w | h1w
      · rw [Nat.mod_eq_of_lt h1w, Nat.mod_eq_of_lt (by omega)]; omega
      · omega
  have hmod : (k + 1) % w = if k % w + 1 = w then 0 else k % w + 1 := by
    have e1 := Nat.div_add_mod (k + 1) w
    have e2 := Nat.div_add_mod k w
    rw [hdiv] at e1
    split at e1
    · rename_i hl
      rw [if_pos hl]
      rw [Nat.mul_add, Nat.mul_one] at e1
      omega
    · rename_i hl
      rw [if_neg hl]
      omega
  have t1 : (BitVec.ofNat 16 (sc + k % w)).toNat = sc + k % w := coord_toNat (by omega)
  have t2 : (BitVec.ofNat 16 (sp + k / w)).toNat = sp + k / w := coord_toNat (by omega)
  have t3 : (BitVec.ofNat 16 (sc + w - 1)).toNat = sc + w - 1 := coord_toNat (by omega)
  have h2 : panelEvent c (.dat (BitVec.ofNat 8 (v.toNat % 256)))
      { atPixel p sc sp w (w * h) k g with half := some (BitVec.ofNat 8 (v.toNat / 256)) }
      = .ok (atPixel p sc sp w (w * h) (k + 1)
          (gramWrite g (gramKey (BitVec.ofNat 16 (sc + k % w)) (BitVec.ofNat 16 (sp + k / w))) v)) := by
    have hgrid : sc + k % w < c.panelW ∧ sp + k / w < c.panelH := by omega
    simp only [panelEvent, dataByte, byteCheck, atPixel, hcs, hst, hm, pixelByte, hpsc, hpec, t1, t2, t3,
      hgrid, joinBytes_beBytes, Bool.not_true, Option.isSome_none, Bool.false_eq_true, if_false,
      and_self, if_true]
    have e1 : (BitVec.ofNat 32 (w * h - k) - 1 : Word) = BitVec.ofNat 32 (w * h - (k + 1)) := by
      apply BitVec.eq_of_toNat_eq
      simp only [BitVec.toNat_sub, BitVec.toNat_ofNat, show (1 : Word).toNat = 1 from rfl]
      omega
    have e2 : (BitVec.ofNat 16 (sc + k % w) + 1 : Half) = BitVec.ofNat 16 (sc + (k % w + 1)) := by
      apply BitVec.eq_of_toNat_eq
      simp [BitVec.toNat_add]; omega
    have e3 : (BitVec.ofNat 16 (sp + k / w) + 1 : Half) = BitVec.ofNat 16 (sp + (k / w + 1)) := by
      apply BitVec.eq_of_toNat_eq
      simp [BitVec.toNat_add]; omega
    rw [hmod, hdiv, e1, e2, e3]
    by_cases hlast : k % w + 1 = w
    · rw [if_pos (show sc + k % w + 1 > sc + w - 1 by omega), if_pos (show sc + k % w + 1 > sc + w - 1 by omega),
        if_pos hlast, if_pos hlast]
      rfl
    · rw [if_neg (show ¬ sc + k % w + 1 > sc + w - 1 by omega),
        if_neg (show ¬ sc + k % w + 1 > sc + w - 1 by omega), if_neg hlast, if_neg hlast]
  rw [panelRun_cons _ (by exact hf) h2]
  rfl

/-- A list of pixel words. -/
theorem panelRun_pixels {c : Config} {p : Panel} {sc sp w h : Nat}
    (hf : p.fault = .none) (hcs : p.cs = true) (hst : p.settle = none) (hm : p.mode = .memWrite)
    (hw : 0 < w) (hfits : c.panelFits) (hsc : sc + w ≤ c.panelW) (hsp : sp + h ≤ c.panelH)
    (hpsc : p.sc = some (BitVec.ofNat 16 sc)) (hpec : p.ec = some (BitVec.ofNat 16 (sc + w - 1)))
    (vs : List Half) (k : Nat) (g : Gram) (hk : k + vs.length ≤ w * h) :
    panelRun c ((vs.flatMap fun v => beBytes v.toNat).map .dat) (atPixel p sc sp w (w * h) k g)
      = some (atPixel p sc sp w (w * h) (k + vs.length) (gramPaint sc sp w k vs g)) := by
  induction vs generalizing k g with
  | nil => rfl
  | cons v vs ih =>
    simp only [List.length_cons] at hk
    rw [List.flatMap_cons, List.map_append, panelRun_append,
      panelRun_pixel v g hf hcs hst hm hw hfits hsc hsp hpsc hpec (by omega), Option.bind_some,
      ih (k + 1) _ (by omega), gramPaint]
    congr 2
    simp; omega

/-! ## The window commands at the panel -/

/-- A command frame's first two events at a sink that is settled and has nothing in progress. -/
theorem panelRun_cmd {c : Config} {p : Panel} {b : Byte} (es : List BusEvent) (hf : p.fault = .none)
    (hst : p.settle = none) (hcl : closingCheck p = none) :
    panelRun c (.csAssert :: .cmd b :: es) p
      = panelRun c es (panelEffect c (decodeCommand c b) { p with cs := true }) := by
  have h1 : panelEvent c .csAssert p = .ok { p with cs := true } := rfl
  rw [panelRun_cons _ hf h1]
  have hcl' : closingCheck { p with cs := true } = none := hcl
  have h2 : panelEvent c (.cmd b) { p with cs := true }
      = .ok (panelEffect c (decodeCommand c b) { p with cs := true }) := by
    have hck : commandCheck { p with cs := true } = none :=
      commandCheck_accepts (p := { p with cs := true }) ⟨hf, rfl, hst, hcl'⟩
    simp only [panelEvent, hck]
  rw [panelRun_cons _ (by exact hf) h2]

/-- The range of four data bytes. -/
theorem rangeOf_beBytes (a b : Half) :
    rangeOf [BitVec.ofNat 8 (a.toNat / 256), BitVec.ofNat 8 (a.toNat % 256),
      BitVec.ofNat 8 (b.toNat / 256), BitVec.ofNat 8 (b.toNat % 256)] = some (a, b) := by
  simp only [rangeOf, joinBytes_beBytes]

theorem panelRun_caset_bytes {c : Config} {p : Panel} (a b : Half) (hf : p.fault = .none)
    (hcs : p.cs = true) (hst : p.settle = none) (hm : p.mode = .params .caset [])
    (h1 : a.toNat ≤ b.toNat) (h2 : b.toNat < c.panelW) :
    panelRun c ((beBytes a.toNat ++ beBytes b.toNat).map .dat) p
      = some { p with sc := some a, ec := some b, mode := .idle } := by
  have hr := rangeOf_beBytes a b
  have hok : ¬(a.toNat > b.toNat ∨ b.toNat ≥ c.panelW) := by omega
  simp [beBytes, panelRun, panelEvent, dataByte, byteCheck, paramByte, paramCount, applyParams, applyCaset,
    hf, hcs, hst, hm]
  simp [hr, hok]

theorem panelRun_raset_bytes {c : Config} {p : Panel} (a b : Half) (hf : p.fault = .none)
    (hcs : p.cs = true) (hst : p.settle = none) (hm : p.mode = .params .raset [])
    (h1 : a.toNat ≤ b.toNat) (h2 : b.toNat < c.panelH) :
    panelRun c ((beBytes a.toNat ++ beBytes b.toNat).map .dat) p
      = some { p with sp := some a, ep := some b, mode := .idle } := by
  have hr := rangeOf_beBytes a b
  have hok : ¬(a.toNat > b.toNat ∨ b.toNat ≥ c.panelH) := by omega
  simp [beBytes, panelRun, panelEvent, dataByte, byteCheck, paramByte, paramCount, applyParams, applyRaset,
    hf, hcs, hst, hm]
  simp [hr, hok]

/-! ## The opcode bytes -/

/-- Each named opcode is read as its own command. -/
theorem decodeCommand_named {c : Config} (h : c.namedDistinct) :
    decodeCommand c c.opSwreset = .swreset ∧ decodeCommand c c.opSlpout = .slpout
      ∧ decodeCommand c c.opDispon = .dispon ∧ decodeCommand c c.opCaset = .caset
      ∧ decodeCommand c c.opRaset = .raset ∧ decodeCommand c c.opRamwr = .ramwr
      ∧ decodeCommand c c.opMadctl = .madctl ∧ decodeCommand c c.opColmod = .colmod := by
  simp only [Config.namedDistinct, Config.namedOpcodes, List.nodup_cons, List.mem_cons, List.not_mem_nil,
    or_false, not_or] at h
  obtain ⟨⟨h1, h2, h3, h4, h5, h6, h7⟩, ⟨k2, k3, k4, k5, k6, k7⟩, ⟨l3, l4, l5, l6, l7⟩, ⟨m4, m5, m6, m7⟩,
    ⟨n5, n6, n7⟩, ⟨o6, o7⟩, q7, _⟩ := h
  simp only [decodeCommand]
  simp [Ne.symm h1, Ne.symm h2, Ne.symm h3, Ne.symm h4, Ne.symm h5, Ne.symm h6, Ne.symm h7,
    Ne.symm k2, Ne.symm k3, Ne.symm k4, Ne.symm k5, Ne.symm k6, Ne.symm k7, Ne.symm l3, Ne.symm l4,
    Ne.symm l5, Ne.symm l6, Ne.symm l7, Ne.symm m4, Ne.symm m5, Ne.symm m6, Ne.symm m7, Ne.symm n5,
    Ne.symm n6, Ne.symm n7, Ne.symm o6, Ne.symm o7, Ne.symm q7]

/-- A vendor opcode is read as a vendor command. -/
theorem decodeCommand_vendor {c : Config} {b : Byte} (h : c.vendorApart) (hb : b ∈ c.vendorOpaque) :
    decodeCommand c b = .vendor b := by
  have hn := h b hb
  simp only [Config.namedOpcodes, List.mem_cons, List.not_mem_nil, or_false, not_or] at hn
  simp [decodeCommand, hn, hb]

end Sys2Proof.Machine
end

