-- ==== Sys2Proof/Laws/PanelInvariant.lean ====
section
/-! SUPPORT. The panel sink's invariant through each kind of event. -/

namespace Sys2Proof.Machine

theorem panelInv_fault {c : Config} {p : Panel} (f : PanelFault) (h : PanelInv c p) : PanelInv c
    { p with fault := f } :=
  ⟨h.columns, h.rows, h.counter, h.modes, h.half, h.discard, h.params, h.settling, h.gramForm, h.gramGrid⟩

theorem panelInv_raisePanel {c : Config} {p : Panel} (f : PanelFault) (h : PanelInv c p) : PanelInv c
    (raisePanel f p) :=
  panelInv_fault _ h

theorem area_lt_word {c : Config} (hf : c.panelFits) {a b x y : Nat} (hb : b < c.panelW)
    (hy : y < c.panelH) : (y + 1 - x) * (b - a + 1) < 2 ^ 32 := by
  obtain ⟨h1, h2⟩ := hf
  calc (y + 1 - x) * (b - a + 1) ≤ 65535 * 65535 := Nat.mul_le_mul (by omega) (by omega)
    _ < 2 ^ 32 := by norm_num

/-- A command byte past its checks. -/
theorem panelInv_panelEffect {c : Config} {i : Instr} {p : Panel} (hi : i.isHostOp = false)
    (hf : c.panelFits) (h : PanelInv c p) (hcl : closingCheck p = none) :
    PanelInv c (panelEffect c i p) := by
  have hhalf : p.half = none := by
    by_contra hn
    obtain ⟨h1, h2⟩ := h.half hn
    simp [closingCheck, h1, Option.isSome_iff_ne_none, hn] at hcl
  have mk : ∀ m : PanelMode, m ≠ .memWrite → (m = .discard → p.refused = true) →
      (∀ op bytes n, m = .params op bytes → paramCount op = some n → bytes.length < n) → PanelInv c
      { p with mode := m } := by
    intro m h1 h2 h3
    exact ⟨h.columns, h.rows, fun hm => absurd hm h1, fun hm => absurd hm h1, fun hn => absurd hhalf hn,
        h2, h3, h.settling, h.gramForm, h.gramGrid⟩
  have open' : ∀ op n, (∀ k, paramCount op = some k → 0 < k) → n = PanelMode.params op [] → PanelInv c
      { p with mode := n } := by
    rintro op n hk rfl
    refine mk _ (by simp) (by simp) ?_
    intro op' bytes n he hn
    cases he
    exact hk _ hn
  cases i with
  | swreset =>
    refine ⟨.inl ⟨rfl, rfl⟩, .inl ⟨rfl, rfl⟩, fun hm => (by cases hm), fun hm => (by cases hm), fun hn =>
        absurd rfl hn, fun hm => (by cases hm), ?_, ?_, List.Pairwise.nil, ?_⟩
    · intro _ _ _ h; cases h
    · intro t ht; cases ht; exact .inl rfl
    · intro c hc; cases hc
  | slpout =>
    have := mk .idle (by simp) (by simp) (by intro _ _ _ h; cases h)
    refine ⟨this.columns, this.rows, fun hm => (by cases hm), fun hm => (by cases hm), this.half, fun hm =>
        (by cases hm), this.params, ?_, this.gramForm, this.gramGrid⟩
    intro t ht; cases ht; exact .inl rfl
  | dispon =>
    have := mk .idle (by simp) (by simp) (by intro _ _ _ h; cases h)
    exact ⟨this.columns, this.rows, fun hm => (by cases hm), fun hm => (by cases hm), this.half, fun hm =>
        (by cases hm), this.params, this.settling, this.gramForm, this.gramGrid⟩
  | caset => exact open' .caset _ (by simp [paramCount]) rfl
  | raset => exact open' .raset _ (by simp [paramCount]) rfl
  | madctl => exact open' .madctl _ (by simp [paramCount]) rfl
  | colmod => exact open' .colmod _ (by simp [paramCount]) rfl
  | vendor op => exact open' (.vendor op) _ (by simp [paramCount]) rfl
  | unmodelled op =>
    exact ⟨h.columns, h.rows, fun hm => (by cases hm), fun hm => (by cases hm), fun hn => absurd hhalf hn,
        fun _ => rfl, fun _ _ _ h => (by cases h), h.settling, h.gramForm, h.gramGrid⟩
  | ramwr =>
    have disc : PanelInv c { p with refused := true, mode := .discard } :=
      ⟨h.columns, h.rows, fun hm => (by cases hm), fun hm => (by cases hm), fun hn => absurd hhalf hn, fun
          _ => rfl, fun _ _ _ h => (by cases h), h.settling, h.gramForm, h.gramGrid⟩
    simp only [panelEffect, ramwrEffect]
    split
    · rename_i sc ec sp ep h1 h2 h3 h4
      split
      · rename_i hm
        have hx : sc.toNat ≤ ec.toNat ∧ ec.toNat < c.panelW := by
          rcases h.columns with ⟨a, b⟩ | ⟨a, b, ha, hb, hab⟩
          · rw [h1] at a; cases a
          · rw [h1] at ha; rw [h2] at hb; cases ha; cases hb; exact hab
        have hy : sp.toNat ≤ ep.toNat ∧ ep.toNat < c.panelH := by
          rcases h.rows with ⟨a, b⟩ | ⟨a, b, ha, hb, hab⟩
          · rw [h3] at a; cases a
          · rw [h3] at ha; rw [h4] at hb; cases ha; cases hb; exact hab
        refine ⟨h.columns, h.rows, fun _ => ?_, fun _ => hm, fun hn => absurd rfl hn, fun hm =>
            (by cases hm), fun _ _ _ h => (by cases h), h.settling, h.gramForm, h.gramGrid⟩
        refine ⟨sc, ec, sp, ep, sc, sp, h1, h2, h3, h4, rfl, rfl, le_rfl, hx.1, le_rfl, by omega, ?_⟩
        have : windowArea sc.toNat sp.toNat ec.toNat ep.toNat =
            (((ep.toNat + 1 - sp.toNat) * (ec.toNat - sc.toNat + 1) : Nat) : Int) := by
          simp only [windowArea]
          rw [show ep.toNat + 1 - sp.toNat = ep.toNat - sp.toNat + 1 by omega]
          push_cast [Nat.cast_sub hx.1, Nat.cast_sub hy.1]
          ring
        simp only [this, BitVec.ofInt_natCast, BitVec.toNat_ofNat]
        have := area_lt_word hf (a := sc.toNat) (x := sp.toNat) hx.2 hy.2
        rw [Nat.mod_eq_of_lt this]; omega
      · exact disc
    · exact disc
  | _ => cases hi

/-- A pixel byte. -/
theorem panelInv_pixelByte {c : Config} {d : Byte} {p q : Panel} (hf : c.panelFits) (h : PanelInv c p)
    (hm : p.mode = .memWrite) (hq : pixelByte c d p = .ok q) : PanelInv c q := by
  obtain ⟨sc, ec, sp, ep, cx, cy, a1, a2, a3, a4, a5, a6, b1, b2, b3, b4, b5⟩ := h.counter hm
  simp only [pixelByte] at hq
  split at hq
  · split at hq
    · cases hq; exact panelInv_raisePanel _ h
    · rename_i hr
      cases hq
      exact ⟨h.columns, h.rows, h.counter, h.modes, fun _ => ⟨hm, hr⟩, h.discard, h.params, h.settling,
          h.gramForm, h.gramGrid⟩
  · rename_i hi hh
    have hr := (h.half (by simp [hh])).2
    have hrn : p.remain.toNat ≠ 0 := fun h => hr (BitVec.eq_of_toNat_eq (by simpa using h))
    have hlt := p.remain.isLt
    simp only [a1, a2, a5, a6] at hq
    split at hq
    · rename_i hg
      cases hq
      have hcy' : cy.toNat ≤ ep.toNat := by
        by_contra hc
        have : ep.toNat + 1 - cy.toNat = 0 := by omega
        rw [this] at b5; omega
      have hec : ec.toNat < c.panelW := by
        rcases h.columns with ⟨a, b⟩ | ⟨a, b, ha, hb, hab⟩
        · rw [a1] at a; cases a
        · rw [a2] at hb; cases hb; exact hab.2
      have hep : ep.toNat < c.panelH := by
        rcases h.rows with ⟨a, b⟩ | ⟨a, b, ha, hb, hab⟩
        · rw [a3] at a; cases a
        · rw [a4] at hb; cases hb; exact hab.2
      obtain ⟨f1, f2⟩ := hf
      have hrem : (p.remain - 1).toNat = p.remain.toNat - 1 := by
        simp only [BitVec.toNat_sub, show (1 : Word).toNat = 1 from rfl]; omega
      refine ⟨(by have := h.columns; rw [a1, a2] at this; exact this), h.rows, fun _ => ?_, h.modes, fun hn
          => absurd rfl hn, h.discard, h.params, h.settling, gramWrite_wf _ _ h.gramForm, gramWrite_inGrid
          _ h.gramGrid hg.1 hg.2⟩
      by_cases hlast : cx.toNat + 1 > ec.toNat
      · refine ⟨sc, ec, sp, ep, sc, cy + 1, rfl, rfl, a3, a4, by simp [hlast], by simp [hlast], le_rfl, by
          omega, ?_⟩
        have e1 : (cy + 1).toNat = cy.toNat + 1 := by simp [BitVec.toNat_add]; omega
        rw [e1]
        refine ⟨by omega, by omega, ?_⟩
        simp only [hrem]
        have e2 : ep.toNat + 1 - cy.toNat = (ep.toNat + 1 - (cy.toNat + 1)) + 1 := by omega
        rw [e2, Nat.succ_mul] at b5
        omega
      · refine ⟨sc, ec, sp, ep, cx + 1, cy, rfl, rfl, a3, a4, by simp [hlast], by simp [hlast], ?_⟩
        have e1 : (cx + 1).toNat = cx.toNat + 1 := by simp [BitVec.toNat_add]; omega
        rw [e1]
        refine ⟨by omega, by omega, by omega, by omega, ?_⟩
        simp only [hrem]
        omega
    · cases hq

/-- A parameter byte. -/
theorem panelInv_paramByte {c : Config} {p : Panel} {op bytes} (d : Byte) (h : PanelInv c p)
    (hm : p.mode = .params op bytes) : PanelInv c (paramByte c op bytes d p) := by
  have hhalf : p.half = none := by
    by_contra hn
    have := (h.half hn).1
    rw [hm] at this; cases this
  have upd : ∀ q : Panel, q.mode ≠ .memWrite → (q.mode = .discard → q.refused = true) →
      (∀ op bytes n, q.mode = .params op bytes → paramCount op = some n → bytes.length < n) →
     RangeOk q.sc q.ec c.panelW → RangeOk q.sp q.ep c.panelH → q.half = p.half → q.settle = p.settle →
         q.gram = p.gram → PanelInv c q := by
    intro q h1 h2 h3 h4 h5 h6 h7 h8
    exact ⟨h4, h5, fun hm => absurd hm h1, fun hm => absurd hm h1, fun hn => absurd (h6.trans hhalf) hn,
        h2, h3, by rw [h7]; exact h.settling, by rw [h8]; exact h.gramForm, by rw [h8]; exact h.gramGrid⟩
  have key : ∀ b', RangeOk (applyParams c op b' p).sc (applyParams c op b' p).ec c.panelW ∧ RangeOk
      (applyParams c op b' p).sp (applyParams c op b' p).ep c.panelH
     ∧ (applyParams c op b' p).half = p.half ∧ (applyParams c op b' p).settle = p.settle ∧
         (applyParams c op b' p).gram = p.gram ∧ (applyParams c op b' p).mode = p.mode := by
    intro b'
    cases op with
    | caset =>
      simp only [applyParams, applyCaset]
      split
      · split
        · exact ⟨h.columns, h.rows, rfl, rfl, rfl, rfl⟩
        · rename_i hx; exact ⟨.inr ⟨_, _, rfl, rfl, by omega, by omega⟩, h.rows, rfl, rfl, rfl, rfl⟩
      · exact ⟨h.columns, h.rows, rfl, rfl, rfl, rfl⟩
    | raset =>
      simp only [applyParams, applyRaset]
      split
      · split
        · exact ⟨h.columns, h.rows, rfl, rfl, rfl, rfl⟩
        · rename_i hx; exact ⟨h.columns, .inr ⟨_, _, rfl, rfl, by omega, by omega⟩, rfl, rfl, rfl, rfl⟩
      · exact ⟨h.columns, h.rows, rfl, rfl, rfl, rfl⟩
    | _ => exact ⟨h.columns, h.rows, rfl, rfl, rfl, rfl⟩
  unfold paramByte
  dsimp only
  obtain ⟨k1, k2, k3, k4, k5, k6⟩ := key (bytes ++ [d])
  split
  · split
    · exact upd _ (by simp) (by simp) (by simp) k1 k2 k3 k4 k5
    · refine upd _ (by rw [k6, hm]; simp) (by rw [k6, hm]; simp) ?_ k1 k2 k3 k4 k5
      intro op' b' n h1 h2
      rw [k6] at h1
      exact h.params op' b' n h1 h2
  · rename_i hne
    refine upd _ (by simp) (by simp) ?_ h.columns h.rows rfl rfl rfl
    intro op' b' n h1 h2
    cases h1
    have := h.params _ _ _ hm h2
    simp only [List.length_append, List.length_singleton] at hne ⊢
    rcases Nat.lt_or_ge (bytes.length + 1) n with h | h
    · exact h
    · exact absurd (by rw [h2]; congr 1; omega) hne

/-- Any event. -/
theorem panelInv_panelEvent {c : Config} {e : BusEvent} {p q : Panel} (hf : c.panelFits) (h : PanelInv c p)
    (hq : panelEvent c e p = .ok q) : PanelInv c q := by
  cases e with
  | csAssert => cases hq; exact ⟨h.columns, h.rows, h.counter, h.modes, h.half, h.discard, h.params,
      h.settling, h.gramForm, h.gramGrid⟩
  | csRelease => cases hq; exact ⟨h.columns, h.rows, h.counter, h.modes, h.half, h.discard, h.params,
      h.settling, h.gramForm, h.gramGrid⟩
  | delay ms =>
    cases hq
    simp only [delayEvent]
    split
    · exact h
    · split
      · exact ⟨h.columns, h.rows, h.counter, h.modes, h.half, h.discard, h.params, fun t ht =>
          (by cases ht), h.gramForm, h.gramGrid⟩
      · rename_i t ht hn
        refine ⟨h.columns, h.rows, h.counter, h.modes, h.half, h.discard, h.params, fun t' ht' => ?_,
            h.gramForm, h.gramGrid⟩
        cases ht'
        right
        have : (t + ms).toNat ≤ t.toNat + ms.toNat := by rw [BitVec.toNat_add]; exact Nat.mod_le _ _
        omega
  | cmd b =>
    simp only [panelEvent, Except.ok.injEq] at hq
    subst hq
    split
    · exact panelInv_raisePanel _ h
    · rename_i hc
      refine panelInv_panelEffect (decodeCommand_not_hostOp c b) hf h ?_
      simp only [commandCheck] at hc
      split at hc
      · cases hc
      · exact hc
  | dat d =>
    simp only [panelEvent, dataByte] at hq
    split at hq
    · cases hq; exact panelInv_raisePanel _ h
    · split at hq
      · cases hq; exact panelInv_raisePanel _ h
      · cases hq; exact h
      · rename_i hm; cases hq; exact panelInv_paramByte d h hm
      · rename_i hm; exact panelInv_pixelByte hf h hm hq

theorem panelInv_powerOn (c : Config) : PanelInv c Panel.powerOn := by
    constructor
    · exact .inl ⟨rfl, rfl⟩
    · exact .inl ⟨rfl, rfl⟩
    · intro h; cases h
    · intro h; cases h
    · intro h; exact absurd rfl h
    · intro h; cases h
    · intro op bytes n h; cases h
    · intro t h; cases h
    · exact List.Pairwise.nil
    · intro c h; cases h

/-- No event stops a sink with the invariant. -/
theorem panelEvent_ok_of_inv {c : Config} {e : BusEvent} {p : Panel} (h : PanelInv c p) : ∃ q, panelEvent c
    e p = .ok q := by
  rcases panelEvent_cases c e p with h1 | ⟨d, rfl, hm, heq⟩
  · exact h1
  · rw [← heq]
    obtain ⟨sc, ec, sp, ep, cx, cy, a1, a2, a3, a4, a5, a6, b1, b2, b3, b4, b5⟩ := h.counter hm
    simp only [pixelByte]
    split
    · split <;> exact ⟨_, rfl⟩
    · rename_i hi hh
      have hr := (h.half (by simp [hh])).2
      have hrn : p.remain.toNat ≠ 0 := fun h => hr (BitVec.eq_of_toNat_eq (by simpa using h))
      have hcy' : cy.toNat ≤ ep.toNat := by
        by_contra hc
        have : ep.toNat + 1 - cy.toNat = 0 := by omega
        rw [this] at b5; omega
      have hec : ec.toNat < c.panelW := by
        rcases h.columns with ⟨a, b⟩ | ⟨a, b, ha, hb, hab⟩
        · rw [a1] at a; cases a
        · rw [a2] at hb; cases hb; exact hab.2
      have hep : ep.toNat < c.panelH := by
        rcases h.rows with ⟨a, b⟩ | ⟨a, b, ha, hb, hab⟩
        · rw [a3] at a; cases a
        · rw [a4] at hb; cases hb; exact hab.2
      simp only [a1, a2, a5, a6]
      rw [if_pos ⟨by omega, by omega⟩]
      exact ⟨_, rfl⟩

end Sys2Proof.Machine
end

