-- ==== Sys2Proof/Laws/Parameters.lean ====
section
/-! SUPPORT. The reference `INIT_SEQ` meets the seven constraints of 40_transport.md rule R71, whatever the
open values are. -/

namespace Sys2Proof.Config

/-- A vendor step is a command of `VENDOR_OPAQUE` with at most 65535 bytes. -/
theorem mem_vendorSteps {c : Config} {cmds : List (Byte × List Byte)} {st : InitStep}
    (h : st ∈ c.vendorSteps cmds) :
    ∃ op params, st = .command op params ∧ op ∈ c.vendorOpaque ∧ params.length ≤ 65535 := by
  simp only [vendorSteps, List.mem_map, List.mem_filter, Bool.and_eq_true, List.contains_iff_mem,
    decide_eq_true_eq] at h
  obtain ⟨e, ⟨_, h1, h2⟩, rfl⟩ := h
  exact ⟨e.1, e.2, rfl, h1, h2⟩

/-- The steps after the two waits, DISPON apart (R71, items 4 and 7). -/
theorem mem_referenceTail {c : Config} {unlock tables lock : List (Byte × List Byte)} {st : InitStep}
    (h : st ∈ c.vendorSteps unlock
      ++ [.command c.opMadctl [c.madctlLandscape], .command c.opColmod [c.colmod16bpp]]
      ++ c.vendorSteps tables ++ c.vendorSteps lock) :
    st = .command c.opMadctl [c.madctlLandscape] ∨ st = .command c.opColmod [c.colmod16bpp]
      ∨ ∃ op params, st = .command op params ∧ op ∈ c.vendorOpaque ∧ params.length ≤ 65535 := by
  simp only [List.mem_append, List.mem_cons, List.not_mem_nil, or_false] at h
  rcases h with ((h | h | h) | h) | h
  · exact .inr (.inr (mem_vendorSteps h))
  · exact .inl h
  · exact .inr (.inl h)
  · exact .inr (.inr (mem_vendorSteps h))
  · exact .inr (.inr (mem_vendorSteps h))

/-- The reference `INIT_SEQ` is legal (R71), for every set of vendor commands. -/
theorem referenceInitSeq_legal {c : Config} (hs : c.settleFits)
    (unlock tables lock : List (Byte × List Byte))
    (hseq : c.initSeq = c.referenceInitSeq unlock tables lock) : c.initSeqLegal := by
  have hw : (BitVec.ofNat 32 c.settleMs).toNat = c.settleMs := by
    rw [BitVec.toNat_ofNat]; exact Nat.mod_eq_of_lt hs
  refine ⟨_, _, _, hseq, hw.ge, hw.ge, ?_, by simp, by simp, ?_⟩
  · intro st h
    rcases mem_referenceTail h with rfl | rfl | ⟨op, params, rfl, hv, _⟩
    · simp [tailStepLegal]
    · simp [tailStepLegal]
    · simp [tailStepLegal, hv]
  · intro op params h
    rcases mem_referenceTail h with h | h | ⟨op', params', h, _, hl⟩ <;> cases h
    · simp
    · simp
    · exact hl

/-- The hardware's `VENDOR_OPAQUE` holds none of the eight named opcodes (R60), whatever the open set. -/
theorem vendorParameters_apart : vendorParameters.vendorApart := by
  intro b hb hn
  simp only [vendorParameters, List.mem_filter, Bool.not_eq_true'] at hb
  have h : parameters.namedOpcodes.contains b ≠ true := by rw [hb.2]; simp
  exact h (List.contains_iff_mem.2 hn)

end Sys2Proof.Config
end

