-- ==== Sys2Proof/Laws/PerInstr.lean ====
section
/-! SUPPORT. Families of statements about an instruction as syntax, one lemma for each constructor. -/

namespace Sys2Proof.Laws.RoundTrip

/-- Encoding a well-formed instruction and decoding gives it back. -/
def Statement (i : Instr) : Prop :=
  ∀ c : Config, c.namedDistinct → i.wf c = true → decode c (encode c i) = .ok i

theorem sendCmd (op : Byte) : Statement (.sendCmd op) := by
  intro c _ _
  simp only [encode, decode, decodeDescriptor_header, decodeOperands, fieldU8_setWidth]
  rfl

theorem sendCmdParams (op : Byte) (params : List Byte) : Statement (.sendCmdParams op params) := by
  intro c _ h
  have hn : params.length ≤ 65535 := of_decide_eq_true h
  simp only [encode, decode, List.cons_append, List.nil_append, decodeDescriptor_header, decodeOperands,
    fieldU8_setWidth, fieldCnt_wordCnt hn]
  simp only [bind, Except.bind, elementBytes_pack]

theorem init : Statement .init := by
  intro c _ _
  simp only [encode, decode, decodeDescriptor_header, decodeOperands]

theorem backlight (on : Bool) : Statement (.backlight on) := by
  intro c _ _
  simp only [encode, decode, decodeDescriptor_header, decodeOperands, fieldB1_wordB1]
  rfl

theorem setWindow (x0 y0 x1 y1 : Word) : Statement (.setWindow x0 y0 x1 y1) := by
  intro c _ _
  simp only [encode, decode, decodeDescriptor_header, decodeOperands]

theorem pushPixels (pixels : List Half) : Statement (.pushPixels pixels) := by
  intro c _ h
  have hn : pixels.length ≤ 65535 := of_decide_eq_true h
  simp only [encode, decode, List.cons_append, List.nil_append, decodeDescriptor_header, decodeOperands,
    fieldCnt_wordCnt hn]
  simp only [bind, Except.bind, elementHalves_pack]

theorem fillRect (x y w h : Word) (color : Half) : Statement (.fillRect x y w h color) := by
  intro c _ _
  simp only [encode, decode, decodeDescriptor_header, decodeOperands, fieldC16_setWidth]
  rfl

theorem fillScreen (color : Half) : Statement (.fillScreen color) := by
  intro c _ _
  simp only [encode, decode, decodeDescriptor_header, decodeOperands, fieldC16_setWidth]
  rfl

theorem hline (x y w : Word) (color : Half) : Statement (.hline x y w color) := by
  intro c _ _
  simp only [encode, decode, decodeDescriptor_header, decodeOperands, fieldC16_setWidth]
  rfl

theorem vline (x y h : Word) (color : Half) : Statement (.vline x y h color) := by
  intro c _ _
  simp only [encode, decode, decodeDescriptor_header, decodeOperands, fieldC16_setWidth]
  rfl

theorem roundRect (x y w h : Word) (color : Half) (t : Word) :
    Statement (.roundRect x y w h color t) := by
  intro c _ _
  simp only [encode, decode, decodeDescriptor_header, decodeOperands, fieldC16_setWidth]
  rfl

theorem color565 (r g b : Byte) : Statement (.color565 r g b) := by
  intro c _ _
  simp only [encode, decode, decodeDescriptor_header, decodeOperands, fieldU8_setWidth]
  rfl

theorem charSize (scale : Byte) : Statement (.charSize scale) := by
  intro c _ _
  simp only [encode, decode, decodeDescriptor_header, decodeOperands, fieldU8_setWidth]
  rfl

theorem drawChar (ch : Byte) (x y : Word) (fg bg : Half) (scale : Byte) :
    Statement (.drawChar ch x y fg bg scale) := by
  intro c _ _
  simp only [encode, decode, decodeDescriptor_header, decodeOperands, fieldU8_setWidth,
    fieldC16_setWidth]
  rfl

theorem drawText (x y : Word) (fg bg : Half) (scale : Byte) (text : List Byte) :
    Statement (.drawText x y fg bg scale text) := by
  intro c _ h
  have hn : text.length ≤ 65535 := of_decide_eq_true h
  simp only [encode, decode, List.cons_append, List.nil_append, decodeDescriptor_header, decodeOperands,
    fieldU8_setWidth, fieldC16_setWidth, fieldCnt_wordCnt hn]
  simp only [bind, Except.bind, elementBytes_pack]

theorem textWidth (scale : Byte) (text : List Byte) : Statement (.textWidth scale text) := by
  intro c _ h
  have hn : text.length ≤ 65535 := of_decide_eq_true h
  simp only [encode, decode, List.cons_append, List.nil_append, decodeDescriptor_header, decodeOperands,
    fieldU8_setWidth, fieldCnt_wordCnt hn]
  simp only [bind, Except.bind, elementBytes_pack]

theorem reservedHostTag (header : Word) (operands : List Word) :
    Statement (.reservedHostTag header operands) := by
  intro c _ h
  exact decodeDescriptor_reserved operands h

theorem swreset : Statement .swreset :=
  fun _ hd _ => congrArg Except.ok (Machine.decodeCommand_named hd).1

theorem slpout : Statement .slpout :=
  fun _ hd _ => congrArg Except.ok (Machine.decodeCommand_named hd).2.1

theorem dispon : Statement .dispon :=
  fun _ hd _ => congrArg Except.ok (Machine.decodeCommand_named hd).2.2.1

theorem caset : Statement .caset :=
  fun _ hd _ => congrArg Except.ok (Machine.decodeCommand_named hd).2.2.2.1

theorem raset : Statement .raset :=
  fun _ hd _ => congrArg Except.ok (Machine.decodeCommand_named hd).2.2.2.2.1

theorem ramwr : Statement .ramwr :=
  fun _ hd _ => congrArg Except.ok (Machine.decodeCommand_named hd).2.2.2.2.2.1

theorem madctl : Statement .madctl :=
  fun _ hd _ => congrArg Except.ok (Machine.decodeCommand_named hd).2.2.2.2.2.2.1

theorem colmod : Statement .colmod :=
  fun _ hd _ => congrArg Except.ok (Machine.decodeCommand_named hd).2.2.2.2.2.2.2

theorem vendor (op : Byte) : Statement (.vendor op) := by
  intro c _ h
  simp [Instr.wf, Config.namedOpcodes] at h
  simp [encode, decode, decodeCommand, h]

theorem unmodelled (op : Byte) : Statement (.unmodelled op) := by
  intro c _ h
  simp [Instr.wf, Config.namedOpcodes] at h
  simp [encode, decode, decodeCommand, h]

end Sys2Proof.Laws.RoundTrip
end

