-- ==== Sys2Proof/Laws/Step.lean ====
section
/-! SUPPORT. One step of the machine: which agent moves, and, said once, everything a step can do. -/

namespace Sys2Proof.Machine

/-! ## Which agent moves -/

theorem nextPanelEvent_hostTurn {s : State} (h : HostTurn s) : nextPanelEvent s = none := by
  unfold nextPanelEvent
  split
  · rename_i hf
    exact List.getElem?_eq_none (h.resolve_left (not_not_intro hf))
  · rfl

/-- On the host's turn a step takes its next input. -/
theorem step_input {s : State} {inp : HostInput} (h : HostTurn s)
    (hi : s.host.inputs[s.host.pos]? = some inp) : step s = takeInput inp (advanceHost s) := by
  simp only [step, stepAgents, nextPanelEvent_hostTurn h, nextInput, hi]

/-- On the host's turn with no input left, nothing moves. -/
theorem step_noInput {s : State} (h : HostTurn s) (hi : s.host.inputs[s.host.pos]? = none) :
    step s = noMove s := by
  simp only [step, stepAgents, nextPanelEvent_hostTurn h, nextInput, hi]

/-- A sink with an event to take, takes it. -/
theorem step_event {s : State} {e : BusEvent} (hf : s.panel.fault = .none)
    (h : s.trace[s.taken]? = some e) : step s = consume e (takeEvent s) := by
  simp only [step, stepAgents, nextPanelEvent, hf, if_true, h]

/-- Whose turn it is. -/
theorem turn_cases (s : State) :
    (∃ e, s.panel.fault = .none ∧ s.trace[s.taken]? = some e) ∨ HostTurn s := by
  by_cases hf : s.panel.fault = .none
  · cases h : s.trace[s.taken]? with
    | some e => exact .inl ⟨e, hf, rfl⟩
    | none => exact .inr (.inr (List.getElem?_eq_none_iff.1 h))
  · exact .inr (.inl hf)

/-! ## What any host operation leaves alone -/

/-- The frame of every host operation, whatever the parameters: the host, the sink and the parameters are
untouched, the trace only grows with the lines following it, and `PHASE` stays, or faults, or INIT
makes it `READY`. -/
structure HostFrame (i : Instr) (s t : State) : Prop where
  cfg : t.cfg = s.cfg
  host : t.host = s.host
  panel : t.panel = s.panel
  taken : t.taken = s.taken
  grows : ∃ es, t.trace = s.trace ++ es ∧ t.lines = driveLines s.lines es
  phase : t.block.phase = s.block.phase ∨ t.block.phase = .faulted
    ∨ (i = .init ∧ t.block.phase = .ready)

theorem HostFrame.refl (i : Instr) (s : State) : HostFrame i s s :=
  ⟨rfl, rfl, rfl, rfl, ⟨[], by simp, by simp [driveLines]⟩, .inl rfl⟩

theorem HostFrame.fault (i : Instr) (code : BlockFault) (tag : Byte) (s : State) :
    HostFrame i s (raiseFault code tag s) :=
  ⟨rfl, rfl, rfl, rfl, ⟨[], by simp, by simp [driveLines]⟩, .inr (.inl rfl)⟩

theorem HostFrame.regs (i : Instr) (s : State) (b : Block) (h : b.phase = s.block.phase) :
    HostFrame i s { s with block := b } :=
  ⟨rfl, rfl, rfl, rfl, ⟨[], by simp, by simp [driveLines]⟩, .inl h⟩

/-- Committing keeps the frame, if the work leaves `PHASE` or is INIT's. -/
theorem HostFrame.commit {i : Instr} {tag : Byte} {w : Work} {s : State}
    (h : w.block.phase = s.block.phase ∨ (i = .init ∧ w.block.phase = .ready)) :
    HostFrame i s (commit tag w s) := by
  have hp : w.block.phase = s.block.phase ∨ w.block.phase = .faulted
      ∨ (i = .init ∧ w.block.phase = .ready) := h.imp_right .inr
  rcases commit_cases tag w s with ⟨_, hc⟩ | ⟨_, _, hc⟩ | ⟨_, k, _, hc⟩ <;> rw [hc]
  · exact ⟨rfl, rfl, rfl, rfl, ⟨[], by simp, by simp [driveLines]⟩, hp⟩
  · exact ⟨rfl, rfl, rfl, rfl, ⟨w.out, rfl, rfl⟩, hp⟩
  · exact ⟨rfl, rfl, rfl, rfl, ⟨w.out.take k, rfl, rfl⟩, .inr (.inl rfl)⟩

/-! The gates keep the frame. -/

theorem frame_prologue {i : Instr} {s : State} {body : State → State}
    (h : HostFrame i s (body s)) : HostFrame i s (prologue body s) := by
  unfold prologue; split
  · exact .refl i s
  · exact h

theorem frame_drawing {i : Instr} {tag : Byte} {s : State} {body : State → State}
    (h : HostFrame i s (body s)) : HostFrame i s (drawingPrologue tag body s) := by
  unfold drawingPrologue; split
  · exact .refl i s
  · exact .fault i _ _ s
  · exact h

theorem frame_underrun {i : Instr} {tag : Byte} {s : State} {body : State → State}
    (h : HostFrame i s (body s)) : HostFrame i s (underrunCheck tag body s) := by
  unfold underrunCheck; split
  · exact .fault i _ _ s
  · exact h

theorem frame_scale {i : Instr} {tag scale : Byte} {s : State} {body : State → State}
    (h : HostFrame i s (body s)) : HostFrame i s (scaleCheck tag scale body s) := by
  unfold scaleCheck; split
  · exact .fault i _ _ s
  · exact h

theorem fillBody_phase (c : Config) (x y w h : Int) (color : Half) (wk : Work) :
    (fillBody c x y w h color wk).block.phase = wk.block.phase := by
  simp only [fillBody]; split <;> rfl

theorem drawCharBody_phase (c : Config) (ch : Byte) (x y : Int) (fg bg : Half) (n : Nat) (wk : Work) :
    (drawCharBody c ch x y fg bg n wk).block.phase = wk.block.phase := by
  simp only [drawCharBody]; split <;> rfl

theorem drawTextBody_phase (c : Config) (fg bg : Half) (n : Nat) (y : Int) (text : List Byte) (x : Int)
    (wk : Work) : (drawTextBody c fg bg n y text x wk).block.phase = wk.block.phase := by
  induction text generalizing x wk with
  | nil => rfl
  | cons ch rest ih => rw [drawTextBody, ih, drawCharBody_phase]

theorem rawCommandEffect_phase (c : Config) (op : Byte) (w : Work) :
    (rawCommandEffect c op w).block.phase = w.block.phase := by
  unfold rawCommandEffect; split <;> rfl

/-- Every host operation answers a next state in the frame. -/
theorem exec_hostFrame {i : Instr} (s : State) (hi : i.isHostOp = true) :
    ∃ t, exec i s = .next t ∧ HostFrame i s t := by
  cases i with
  | sendCmd op =>
    exact ⟨_, rfl, frame_prologue (frame_underrun (.commit (.inl (rawCommandEffect_phase _ _ _))))⟩
  | sendCmdParams op params =>
    exact ⟨_, rfl, frame_prologue (frame_underrun (.commit (.inl (rawCommandEffect_phase _ _ _))))⟩
  | init => exact ⟨_, rfl, frame_prologue (frame_underrun (.commit (.inr ⟨rfl, rfl⟩)))⟩
  | backlight on => exact ⟨_, rfl, .regs _ _ _ rfl⟩
  | setWindow x0 y0 x1 y1 =>
    refine ⟨_, rfl, frame_drawing (frame_underrun ?_)⟩
    unfold setWindowBody
    dsimp only
    split
    · exact .commit (.inl rfl)
    · exact .fault _ _ _ _
  | pushPixels pixels =>
    refine ⟨_, rfl, frame_drawing ?_⟩
    unfold pushPixelsBody
    dsimp only
    split
    · exact .fault _ _ _ _
    · exact .commit (.inl rfl)
  | fillRect x y w h color =>
    exact ⟨_, rfl, frame_drawing (frame_underrun (.commit (.inl (fillBody_phase _ _ _ _ _ _ _))))⟩
  | fillScreen color =>
    exact ⟨_, rfl, frame_drawing (frame_underrun (.commit (.inl (fillBody_phase _ _ _ _ _ _ _))))⟩
  | hline x y w color =>
    exact ⟨_, rfl, frame_drawing (frame_underrun (.commit (.inl (fillBody_phase _ _ _ _ _ _ _))))⟩
  | vline x y h color =>
    exact ⟨_, rfl, frame_drawing (frame_underrun (.commit (.inl (fillBody_phase _ _ _ _ _ _ _))))⟩
  | roundRect x y w h color t =>
    refine ⟨_, rfl, frame_drawing (frame_underrun (.commit (.inl ?_)))⟩
    simp only [roundRectBody, fillBody_phase]
    rfl
  | color565 r g b => exact ⟨_, rfl, frame_prologue (.regs _ _ _ rfl)⟩
  | charSize scale => exact ⟨_, rfl, frame_prologue (frame_scale (.regs _ _ _ rfl))⟩
  | drawChar ch x y fg bg scale =>
    exact ⟨_, rfl, frame_drawing (frame_underrun (frame_scale
      (.commit (.inl (drawCharBody_phase _ _ _ _ _ _ _ _)))))⟩
  | drawText x y fg bg scale text =>
    exact ⟨_, rfl, frame_drawing (frame_underrun (frame_scale
      (.commit (.inl (drawTextBody_phase _ _ _ _ _ _ _ _)))))⟩
  | textWidth scale text => exact ⟨_, rfl, frame_prologue (frame_scale (.regs _ _ _ rfl))⟩
  | reservedHostTag header operands =>
    refine ⟨_, rfl, ?_⟩
    unfold raiseIllegal
    split
    · exact .refl _ _
    · exact .fault _ _ _ _
  | swreset => cases hi
  | slpout => cases hi
  | dispon => cases hi
  | caset => cases hi
  | raset => cases hi
  | ramwr => cases hi
  | madctl => cases hi
  | colmod => cases hi
  | vendor op => cases hi
  | unmodelled op => cases hi

/-! ## Everything a step can do -/

/-- A decoded descriptor is a host operation. -/
theorem decodeDescriptor_hostOp {ws : List Word} {i : Instr} (h : decodeDescriptor ws = .ok i) :
    i.isHostOp = true := by
  cases ws with
  | nil => cases h
  | cons w ws =>
    simp only [decodeDescriptor] at h
    split at h
    · split at h
      · rename_i t _
        cases t <;> simp only [decodeOperands, bind, Except.bind] at h <;> (repeat' split at h) <;>
          first | (cases h; rfl) | cases h
      · cases h; rfl
    · cases h; rfl

theorem decodeBytes_hostOp {bs : List Byte} {i : Instr} (h : decodeBytes bs = .ok i) :
    i.isHostOp = true := by
  simp only [decodeBytes] at h
  split at h
  · exact decodeDescriptor_hostOp h
  · cases h

/-- The input put next is the next input. -/
theorem withNextInput_next (inp : HostInput) (h : HostSide) :
    (withNextInput inp h).inputs[(withNextInput inp h).pos]? = some inp := by
  simp [withNextInput]

/-- The inputs after it are those that were coming. -/
theorem withNextInput_rest (inp : HostInput) (h : HostSide) :
    (withNextInput inp h).inputs.drop ((withNextInput inp h).pos + 1) = h.inputs.drop h.pos := by
  simp only [withNextInput]
  rw [List.drop_append, List.drop_of_length_le (by omega)]
  simp

/-- While inputs are left its place is the old one. -/
theorem withNextInput_pos {inp : HostInput} {h : HostSide} (hp : h.pos ≤ h.inputs.length) :
    (withNextInput inp h).pos = h.pos := by
  simp [withNextInput, hp]

theorem appendEvents_nil (s : State) : appendEvents [] s = s := by
  simp [appendEvents, driveLines]

/-- An operation that decodes, stopped after `k` of the events it would have sent. -/
theorem runPartly_eq {i : Instr} {s t : State} {es : List BusEvent} (k : Nat)
    (h : exec i { s with busDraws := none :: s.busDraws } = .next t) (ht : t.trace = s.trace ++ es) :
    runPartly k (.ok i) s = appendEvents (es.take k) s := by
  simp only [runPartly, h, ht, List.drop_left]

/-- Everything an operation stopped by the block's reset can do. -/
theorem cutByReset_eq (words : List Word) (k : Nat) (s : State) :
    ∃ es : List BusEvent, (es = [] ∨ ∃ (i : Instr) (t : State) (all : List BusEvent),
        decodeDescriptor words = .ok i
        ∧ exec i { s with busDraws := none :: s.busDraws } = .next t
        ∧ t.trace = s.trace ++ all ∧ es = all.take k)
      ∧ cutByReset k (decodeDescriptor words) s
        = { appendEvents es s with host := withNextInput .resetBlock s.host } := by
  cases hd : decodeDescriptor words with
  | error e =>
    refine ⟨[], .inl rfl, ?_⟩
    rw [appendEvents_nil]; rfl
  | ok i =>
    obtain ⟨t, ht, hf⟩ := exec_hostFrame { s with busDraws := none :: s.busDraws }
      (decodeDescriptor_hostOp hd)
    obtain ⟨all, hall, -⟩ := hf.grows
    exact ⟨all.take k, .inr ⟨i, t, all, rfl, ht, hall, rfl⟩, by rw [cutByReset, runPartly_eq k ht hall]⟩

/-- What one input of the host can do (past the advance of its position). -/
inductive InputEffect (s : State) : HostInput → State → Prop where
  /-- a host operation that decodes -/
  | op (inp : HostInput) (i : Instr) (t : State) (hi : i.isHostOp = true) (ht : exec i s = .next t)
      (hin : (∃ ws, inp = .operation ws ∧ decodeDescriptor ws = .ok i)
        ∨ ∃ bs, inp = .operationBytes bs ∧ decodeBytes bs = .ok i) : InputEffect s inp t
  /-- a descriptor that does not decode -/
  | illegal (inp : HostInput) (tag : Byte)
      (hin : (∃ ws, inp = .operation ws) ∨ ∃ bs, inp = .operationBytes bs) :
      InputEffect s inp (raiseIllegal tag s)
  /-- a host read -/
  | read (inp : HostInput) (v : Option HostRead) (f : HostFault)
      (hin : inp = .readRes0 ∨ inp = .readRes1 ∨ inp = .readStatus) :
      InputEffect s inp { s with host := { s.host with lastRead := v, fault := f } }
  /-- an operation that the block's reset stops part-way -/
  | cut (words : List Word) (k : Nat) (es : List BusEvent)
      (hes : es = [] ∨ ∃ (i : Instr) (t : State) (all : List BusEvent), decodeDescriptor words = .ok i
        ∧ exec i { s with busDraws := none :: s.busDraws } = .next t
        ∧ t.trace = s.trace ++ all ∧ es = all.take k) :
      InputEffect s (.operationCut words k)
        { appendEvents es s with host := withNextInput .resetBlock s.host }
  | resetBlock : InputEffect s .resetBlock (resetBlock s)
  | powerOnPanel : InputEffect s .powerOnPanel (powerOnPanel s)

theorem takeInput_effect {inp : HostInput} {s t : State} (h : takeInput inp s = .next t) :
    InputEffect s inp t := by
  cases inp with
  | operation ws =>
    simp only [takeInput, runDecoded] at h
    split at h
    · rename_i i hd
      exact .op _ i t (decodeDescriptor_hostOp hd) h (.inl ⟨ws, rfl, hd⟩)
    · cases h; exact .illegal _ _ (.inl ⟨ws, rfl⟩)
  | operationBytes bs =>
    simp only [takeInput, runDecoded] at h
    split at h
    · rename_i i hd
      exact .op _ i t (decodeBytes_hostOp hd) h (.inr ⟨bs, rfl, hd⟩)
    · cases h; exact .illegal _ _ (.inr ⟨bs, rfl⟩)
  | operationCut words k =>
    obtain ⟨es, hes, hc⟩ := cutByReset_eq words k s
    rw [takeInput, hc] at h
    cases h
    exact .cut words k es hes
  | readRes0 =>
    cases h; unfold readResult; split <;> exact .read _ _ _ (.inl rfl)
  | readRes1 =>
    cases h; unfold readResult; split <;> exact .read _ _ _ (.inr (.inl rfl))
  | readStatus => cases h; exact .read _ _ _ (.inr (.inr rfl))
  | resetBlock => cases h; exact .resetBlock
  | powerOnPanel => cases h; exact .powerOnPanel

/-- Everything a step that goes on can do: the sink takes an event, the host's next input is taken, or
nothing is left to do. -/
theorem step_cases {s t : State} (h : step s = .next t) :
    (∃ e q, s.panel.fault = .none ∧ s.trace[s.taken]? = some e ∧ panelEvent s.cfg e s.panel = .ok q
      ∧ t = { s with taken := s.taken + 1, panel := q })
    ∨ (HostTurn s ∧ ∃ inp, s.host.inputs[s.host.pos]? = some inp ∧ InputEffect (advanceHost s) inp t)
    ∨ t = s := by
  rcases turn_cases s with ⟨e, hf, he⟩ | ht
  · rw [step_event hf he, consume_eq e (by exact hf)] at h
    simp only [takeEvent_cfg, takeEvent_panel] at h
    cases hq : panelEvent s.cfg e s.panel with
    | ok q =>
      rw [hq] at h
      simp only [withPanel] at h
      cases h
      exact .inl ⟨e, q, hf, he, hq, rfl⟩
    | error f => rw [hq] at h; cases h
  · cases hi : s.host.inputs[s.host.pos]? with
    | some inp =>
      rw [step_input ht hi] at h
      exact .inr (.inl ⟨ht, inp, rfl, takeInput_effect h⟩)
    | none =>
      rw [step_noInput ht hi] at h
      unfold noMove at h
      split at h
      · cases h; exact .inr (.inr rfl)
      · cases h

end Sys2Proof.Machine
end

