-- ==== Sys2Proof/Laws/Sides.lean ====
section
/-! SUPPORT. Operations do not look at the sink, send the same events from any two drawing states, and send a prefix on a failing bus. -/

namespace Sys2Proof.Machine

/-- `s` with the sink in another state and at another place of the trace. -/
def sinkAt (q : Panel) (k : Nat) (s : State) : State := { s with panel := q, taken := k }

/-- A body that does not look at the sink. -/
def Blind (b : State → State) : Prop := ∀ s q k, b (sinkAt q k s) = sinkAt q k (b s)

theorem blind_drawing {tag b} (h : Blind b) : Blind (drawingPrologue tag b) := by
  intro s q k
  have : (sinkAt q k s).block = s.block := rfl
  unfold drawingPrologue; rw [this]; split
  · rfl
  · rfl
  · exact h s q k

theorem blind_prologue {b} (h : Blind b) : Blind (prologue b) := by
  intro s q k
  have : (sinkAt q k s).block = s.block := rfl
  unfold prologue; rw [this]; split
  · rfl
  · exact h s q k

theorem blind_underrun {tag b} (h : Blind b) : Blind (underrunCheck tag b) := by
  intro s q k
  have : (sinkAt q k s).block = s.block := rfl
  unfold underrunCheck; rw [this]; split
  · rfl
  · exact h s q k

theorem blind_scale {tag sc b} (h : Blind b) : Blind (scaleCheck tag sc b) := by
  intro s q k
  unfold scaleCheck; split
  · rfl
  · exact h s q k

theorem blind_commit {tag w} : Blind (commit tag w) := by
  intro s q k
  have : busDrawOf (sinkAt q k s) = busDrawOf s := rfl
  unfold commit; rw [this]
  split
  · rfl
  · split <;> rfl

theorem blind_perform {tag} {work} : Blind (perform tag work) := by
  intro s q k
  have : (sinkAt q k s).block = s.block := rfl
  unfold perform; rw [this]; exact blind_commit s q k

/-- A host operation neither reads nor moves the sink (R37, R48). -/
theorem exec_sinkAt {i : Instr} (hi : i.isHostOp = true) (s : State) (q k) :
    ∃ v, exec i s = .next v ∧ exec i (sinkAt q k s) = .next (sinkAt q k v) := by
  have fin : ∀ {b : State → State}, Blind b → exec i s = .next (b s) → exec i (sinkAt q k s) = .next
      (b (sinkAt q k s)) → ∃ v, exec i s = .next v ∧ exec i (sinkAt q k s) = .next (sinkAt q k v) := by
    intro b hb h1 h2
    exact ⟨_, h1, h2.trans (congrArg _ (hb s q k))⟩
  cases i with
  | sendCmd op =>
    exact fin (blind_prologue
        (blind_underrun (blind_perform (work := fun w => rawCommandEffect s.cfg op
        (w.emit (cmdFrame op [])))))) rfl rfl
  | sendCmdParams op ps =>
    exact fin (blind_prologue
        (blind_underrun (blind_perform (work := fun w => rawCommandEffect s.cfg op
        (w.emit (cmdFrame op ps)))))) rfl rfl
  | init =>
    exact fin (blind_prologue
        (blind_underrun (blind_perform
        (work := fun w => initDone (w.emit (s.cfg.initSeq.flatMap initStepEvents)))))) rfl rfl
  | backlight on =>
    exact fin (b := fun s => { s with block := { s.block with bl := on } }) (fun _ _ _ => rfl) rfl rfl
  | setWindow x0 y0 x1 y1 =>
    refine fin (blind_drawing (blind_underrun (b := setWindowBody x0.toInt y0.toInt x1.toInt y1.toInt) ?_))
        rfl rfl
    intro s q k
    have : (sinkAt q k s).cfg = s.cfg := rfl
    unfold setWindowBody; rw [this]; dsimp only; split
    · exact blind_perform _ _ _
    · rfl
  | pushPixels px =>
    refine fin (blind_drawing (b := pushPixelsBody px) ?_) rfl rfl
    intro s q k
    have : (sinkAt q k s).block = s.block := rfl
    unfold pushPixelsBody; rw [this]; dsimp only; split
    · rfl
    · exact blind_perform _ _ _
  | fillRect x y w h c =>
    exact fin (blind_drawing
        (blind_underrun (blind_perform (work := fillBody s.cfg x.toInt y.toInt w.toInt h.toInt c)))) rfl rfl
  | fillScreen c =>
    exact fin (blind_drawing
        (blind_underrun (blind_perform (work := fillBody s.cfg 0 0 s.cfg.panelW s.cfg.panelH c)))) rfl rfl
  | hline x y w c =>
    exact fin (blind_drawing
        (blind_underrun (blind_perform (work := fillBody s.cfg x.toInt y.toInt w.toInt 1 c)))) rfl rfl
  | vline x y w c =>
    exact fin (blind_drawing
        (blind_underrun (blind_perform (work := fillBody s.cfg x.toInt y.toInt 1 w.toInt c)))) rfl rfl
  | roundRect x y w h c t =>
    exact fin (blind_drawing
        (blind_underrun (blind_perform (work := roundRectBody s.cfg x.toInt y.toInt w.toInt h.toInt c
        t.toInt)))) rfl rfl
  | color565 r g b =>
    exact fin (blind_prologue
        (b := fun s => { s with block := { s.block with res0 := some ((packColor r g b).setWidth 32) } })
        (fun _ _ _ => rfl)) rfl rfl
  | charSize sc =>
    exact fin (blind_prologue (blind_scale (tag := HostTag.charSize.code) (sc := sc)
        (b := fun s => { s with block := { s.block with
          res0 := some (BitVec.ofNat 32 (16 * sc.toNat))
          res1 := some (BitVec.ofNat 32 (16 * sc.toNat)) } }) (fun _ _ _ => rfl))) rfl rfl
  | textWidth sc tx =>
    exact fin (blind_prologue (blind_scale (tag := HostTag.textWidth.code) (sc := sc)
        (b := fun s => { s with block :=
        { s.block with res0 := some (BitVec.ofNat 32 (tx.length * 16 * sc.toNat)) } }) (fun _ _ _ => rfl)))
        rfl rfl
  | drawChar ch x y fg bg sc =>
    exact fin (blind_drawing (tag := HostTag.drawChar.code) (blind_underrun (tag := HostTag.drawChar.code)
        (blind_scale (tag := HostTag.drawChar.code) (sc := sc)
        (blind_perform (tag := HostTag.drawChar.code) (work := drawCharBody s.cfg ch x.toInt y.toInt fg bg
        sc.toNat))))) rfl rfl
  | drawText x y fg bg sc tx =>
    exact fin (blind_drawing (tag := HostTag.drawText.code) (blind_underrun (tag := HostTag.drawText.code)
        (blind_scale (tag := HostTag.drawText.code) (sc := sc)
        (blind_perform (tag := HostTag.drawText.code) (work := drawTextBody s.cfg fg bg sc.toNat y.toInt tx
        x.toInt))))) rfl rfl
  | reservedHostTag h ws =>
    refine fin (b := raiseIllegal (h.extractLsb' 0 8)) ?_ rfl rfl
    intro s q k
    have : (sinkAt q k s).block = s.block := rfl
    unfold raiseIllegal; rw [this]; split <;> rfl
  | _ => cases hi

theorem consume_panel {e : BusEvent} {s u : State} (hf : s.panel.fault = .none) (h : consume e s = .next u)
    : ∃ q, panelEvent s.cfg e s.panel = .ok q ∧ u = { s with panel := q } := by
  rw [consume_eq e hf] at h
  cases hq : panelEvent s.cfg e s.panel with
  | ok q => rw [hq] at h; cases h; exact ⟨q, rfl, rfl⟩
  | error f => rw [hq] at h; cases h

/-- Work whose events do not depend on the registers. -/
def OutOnly (work : Work → Work) : Prop := ∀ w w' : Work, w.out = w'.out → (work w).out = (work w').out

theorem outOnly_stream (px) : OutOnly (stream px) := by intro w w' h; simp [stream, h]

theorem outOnly_windowSetup (c a b d e) : OutOnly (windowSetup c a b d e) := by intro w w' h; simp
    [windowSetup, h]

theorem outOnly_fillBody (c x y w h color) : OutOnly (fillBody c x y w h color) := by
  intro w w' h
  simp only [fillBody]
  split
  · exact h
  · exact outOnly_stream _ _ _ (outOnly_windowSetup _ _ _ _ _ _ _ h)

theorem outOnly_drawCharBody (c ch x y fg bg s) : OutOnly (drawCharBody c ch x y fg bg s) := by
  intro w w' h
  simp only [drawCharBody]
  split
  · exact outOnly_stream _ _ _ (outOnly_windowSetup _ _ _ _ _ _ _ h)
  · exact h

theorem outOnly_drawTextBody (c fg bg s y t x) : OutOnly (drawTextBody c fg bg s y t x) := by
  induction t generalizing x with
  | nil => intro w w' h; exact h
  | cons a l ih => intro w w' h; exact ih _ _ _ (outOnly_drawCharBody _ _ _ _ _ _ _ _ _ h)

theorem outOnly_rawCommand (c op es) : OutOnly (fun w => rawCommandEffect c op (w.emit es)) := by
  intro w w' h
  simp only [rawCommandEffect]; split <;> simp [h]

theorem outOnly_initDone (es) : OutOnly (fun w => initDone (w.emit es)) := by
  intro w w' h
  simp [initDone, h]

theorem outOnly_roundRectBody (c x y w h color t) : OutOnly (roundRectBody c x y w h color t) := by
  intro w w' h
  exact outOnly_fillBody _ _ _ _ _ _ _ _ (outOnly_fillBody _ _ _ _ _ _ _ _ (outOnly_fillBody _ _ _ _ _ _ _
      _ (outOnly_fillBody _ _ _ _ _ _ _ _ h)))

/-- A body that sends the same events from two states. -/
def SameEvents (s t : State) (b : State → State) : Prop := ∃ es, (b s).trace = s.trace ++ es ∧ (b t).trace
    = t.trace ++ es

theorem sameEvents_perform {tag} {s t : State} {work} (h : OutOnly work) (hs : BusHealthy s)
    (ht : BusHealthy t) : SameEvents s t (perform tag work) := by
  have e := h (Work.start s.block) (Work.start t.block) rfl
  refine ⟨(work (Work.start s.block)).out, ?_, ?_⟩
  · by_cases hw : (work (Work.start s.block)).out = []
    · rw [perform, commit_nil hw]; simp [hw]
    · rw [perform, commit_healthy hw hs]; rfl
  · rw [e]
    by_cases hw : (work (Work.start t.block)).out = []
    · rw [perform, commit_nil hw]; simp [hw]
    · rw [perform, commit_healthy hw ht]; rfl

theorem sameEvents_quiet {s t : State} {b : State → State} (h : (b s).trace = s.trace)
    (h' : (b t).trace = t.trace) : SameEvents s t b := ⟨[], by simp [h], by simp [h']⟩

/-- A body that, on a failing bus, sends a prefix of what it sends on a healthy one (R121). -/
def Prefixed (tag : Byte) (s : State) (ds : List (Option Nat)) (body : State → State) : Prop :=
  ∀ (es : List BusEvent) (k : Nat), es ≠ [] →
    (body { s with busDraws := none :: ds }).trace = s.trace ++ es →
    body { s with busDraws := some k :: ds } =
      { stopped s .busFault tag with
        trace := s.trace ++ es.take k
        lines := driveLines s.lines (es.take k)
        busDraws := ds }

theorem prefixed_perform {tag : Byte} {s : State} {ds} {work : Work → Work} (hf : s.block.fault = .none) :
    Prefixed tag s ds (perform tag work) := by
  intro es k hne ht
  simp only [perform] at ht ⊢
  by_cases hw : (work (Work.start s.block)).out = []
  · rw [commit_nil hw] at ht
    simp at ht; exact absurd ht hne
  · rw [commit_healthy (by exact hw) rfl] at ht
    rw [commit_failing (by exact hw) rfl]
    simp [sent] at ht
    subst ht
    simp [raiseFault, stopped, appendEvents, hf]

theorem prefixed_id {tag} {s : State} {ds} {body : State → State}
   (hb : (body { s with busDraws := none :: ds }).trace = s.trace) : Prefixed tag s ds body := by
  intro es k hne ht; rw [hb] at ht; simp at ht; exact absurd ht hne

theorem prefixed_drawing {tag t' : Byte} {s : State} {ds} {body : State → State}
    (h : Prefixed tag s ds body) :
    Prefixed tag s ds (drawingPrologue t' body) := by
  cases hp : s.block.phase with
  | uninit => exact prefixed_id (by rw [drawingPrologue_uninit (by exact hp)]; rfl)
  | faulted => exact prefixed_id (by rw [drawingPrologue_faulted (by exact hp)])
  | ready =>
    intro es k hne ht
    rw [drawingPrologue_ready (by exact hp)] at ht ⊢
    exact h es k hne ht

theorem prefixed_prologue {tag : Byte} {s : State} {ds} {body : State → State} (h : Prefixed tag s ds body)
    :
    Prefixed tag s ds (prologue body) := by
  by_cases hp : s.block.phase = .faulted
  · exact prefixed_id (by rw [prologue_faulted (by exact hp)])
  · intro es k hne ht
    rw [prologue_run (by exact hp)] at ht ⊢
    exact h es k hne ht

theorem prefixed_underrun {tag t' : Byte} {s : State} {ds} {body : State → State}
    (h : Prefixed tag s ds body) :
    Prefixed tag s ds (underrunCheck t' body) := by
  by_cases hp : s.block.pend = 0
  · intro es k hne ht
    rw [underrunCheck_closed (by exact hp)] at ht ⊢
    exact h es k hne ht
  · exact prefixed_id (by rw [underrunCheck_open (by exact hp)]; rfl)

theorem prefixed_scale {tag t' sc : Byte} {s : State} {ds} {body : State → State}
    (h : Prefixed tag s ds body) :
    Prefixed tag s ds (scaleCheck t' sc body) := by
  by_cases hp : sc = 0
  · subst hp; exact prefixed_id (by rw [scaleCheck_zero]; rfl)
  · intro es k hne ht
    rw [scaleCheck_ok (by exact hp)] at ht ⊢
    exact h es k hne ht

end Sys2Proof.Machine
end

