-- ==== Sys2Proof/Laws/TraceInvariant.lean ====
section
/-! SUPPORT. The framing of the trace (R52) and its invariant. -/

namespace Sys2Proof.Machine

theorem frameRun_append (st : FrameState) (es fs : List BusEvent) :
    frameRun st (es ++ fs) = (frameRun st es).bind fun st' => frameRun st' fs := by
  induction es generalizing st with
  | nil => rfl
  | cons e es ih =>
    simp only [List.cons_append, frameRun]
    split
    · exact ih _
    · rfl

theorem frameRun_take {st st' : FrameState} {es : List BusEvent} (h : frameRun st es = some st') (k : Nat) :
    ∃ st'', frameRun st (es.take k) = some st'' := by
  have := frameRun_append st (es.take k) (es.drop k)
  rw [List.take_append_drop, h] at this
  cases h2 : frameRun st (es.take k) with
  | none => rw [h2] at this; cases this
  | some x => exact ⟨x, rfl⟩

theorem frameRun_dat (st : FrameState) (hst : st = .command ∨ st = .data) (bs : List Byte) :
    frameRun st (bs.map .dat ++ [.csRelease]) = some .outside := by
  induction bs with
  | nil => rcases hst with rfl | rfl <;> rfl
  | cons b bs ih => rcases hst with rfl | rfl <;> exact ih

theorem framed_cmd (op : Byte) (ps : List Byte) : frameRun .outside (cmdFrame op ps) = some .outside := by
  rw [cmdFrame, List.append_assoc]
  exact frameRun_dat .command (.inl rfl) ps

theorem framed_pixels (ps : List Half) : frameRun .outside (pixelEvents ps) = some .outside := by
  unfold pixelEvents
  split
  · rfl
  · rename_i h
    cases ps with
    | nil => exact absurd rfl h
    | cons p ps =>
      rw [List.append_assoc]
      have hb : (p :: ps).flatMap (fun p => beBytes p.toNat) = BitVec.ofNat 8 (p.toNat / 256) ::
          BitVec.ofNat 8 (p.toNat % 256) :: ps.flatMap (fun p => beBytes p.toNat) := rfl
      rw [hb]
      exact frameRun_dat .data (.inr rfl) (BitVec.ofNat 8 (p.toNat % 256) :: ps.flatMap
          (fun p => beBytes p.toNat))

theorem framed_setup (c : Config) (a b d e : Nat) : frameRun .outside (setupEvents c a b d e) = some
    .outside := by
  rfl

theorem framed_append {es fs : List BusEvent} (h1 : frameRun .outside es = some .outside)
    (h2 : frameRun .outside fs = some .outside) : frameRun .outside (es ++ fs) = some .outside := by
  rw [frameRun_append, h1]; exact h2

theorem framed_flatMap {α} (l : List α) (f : α → List BusEvent) (h : ∀ a ∈ l, frameRun .outside (f a) =
    some .outside) : frameRun .outside (l.flatMap f) = some .outside := by
  induction l with
  | nil => rfl
  | cons a l ih =>
    rw [List.flatMap_cons]
    exact framed_append (h a (by simp)) (ih fun b hb => h b (by simp [hb]))

theorem framed_paint (c : Config) (win : Option Window) (px : Window → List Half) : frameRun .outside
    (paintEvents c win px) = some .outside := by
  cases win with
  | none => rfl
  | some w => exact framed_append (framed_setup _ _ _ _ _) (framed_pixels _)

theorem framed_hostWork {s i w} (h : HostWork s i w) : frameRun .outside w.out = some .outside := by
  cases h with
  | send _ op params => exact framed_cmd _ _
  | init =>
    refine framed_flatMap _ _ fun st _ => ?_
    cases st with
    | command op ps => exact framed_cmd _ _
    | wait ms => rfl
  | setWindow => exact framed_setup _ _ _ _ _
  | push => exact framed_pixels _
  | paints _ wins => exact framed_flatMap _ _ fun _ _ => framed_paint _ _ _

theorem hostWork_phase {s i w} (h : HostWork s i w) : s.block.phase ≠ .faulted := by
  cases h <;> first | assumption | (simp [*])

theorem panelEvent_noCs {c : Config} {e : BusEvent} {p q : Panel} (hq : panelEvent c e p = .ok q)
    (hf : p.fault ≠ .noCs) (hcs : (∃ b, e = .cmd b) ∨ (∃ b, e = .dat b) → p.cs = true) : q.fault ≠ .noCs :=
    by
  cases e with
  | csAssert => cases hq; exact hf
  | csRelease => cases hq; exact hf
  | delay ms => cases hq; simp only [delayEvent]; (repeat' split) <;> exact hf
  | cmd b =>
    have hc := hcs (.inl ⟨b, rfl⟩)
    simp only [panelEvent, Except.ok.injEq] at hq
    subst hq
    split
    · rename_i code hcode
      simp only [commandCheck, byteCheck, hc] at hcode
      have : code ≠ .noCs := by
        rintro rfl
        by_cases hst : p.settle.isSome = true
        · simp [hst] at hcode
        · simp [hst, closingCheck] at hcode
          revert hcode
          (repeat' split) <;> simp
      rw [raisePanel_fault]; split
      · exact this
      · exact hf
    · cases decodeCommand c b <;> simp only [panelEffect, swresetEffect, ramwrEffect] <;> (repeat' split)
        <;> exact hf
  | dat d =>
    have hc := hcs (.inr ⟨d, rfl⟩)
    have hr : ∀ code, code ≠ .noCs → (raisePanel code p).fault ≠ .noCs := by
      intro code h; rw [raisePanel_fault]; split <;> assumption
    simp only [panelEvent, dataByte, byteCheck, hc] at hq
    by_cases hst : p.settle.isSome = true
    · simp only [Bool.not_true, Bool.false_eq_true, if_false, hst, if_true] at hq
      cases hq; exact hr _ (by simp)
    · simp only [Bool.not_true, Bool.false_eq_true, if_false, hst] at hq
      split at hq
      · cases hq; exact hr _ (by simp)
      · cases hq; exact hf
      · cases hq
        rename_i op bytes _
        have ha : (applyParams c op (bytes ++ [d]) p).fault ≠ .noCs := by
          cases op <;> simp only [applyParams, applyCaset, applyRaset] <;> (repeat' split) <;>
            first | exact hf | exact hr _ (by simp)
        simp only [paramByte]
        (repeat' split) <;> first | exact ha | exact hf
      · simp only [pixelByte] at hq
        (repeat' split at hq) <;> cases hq <;> first | exact hf | exact hr _ (by simp)

theorem panelEffect_cs (c : Config) (i : Instr) (p : Panel) : (panelEffect c i p).cs = p.cs := by
  cases i <;> simp only [panelEffect, swresetEffect, ramwrEffect] <;> (repeat' split) <;> rfl

theorem panelEvent_cs {c : Config} {e : BusEvent} {p q : Panel} (hq : panelEvent c e p = .ok q) :
    (e = .csAssert → q.cs = true) ∧ (e ≠ .csAssert → e ≠ .csRelease → q.cs = p.cs) := by
  cases e with
  | csAssert => cases hq; exact ⟨fun _ => rfl, fun h => absurd rfl h⟩
  | csRelease => cases hq; exact ⟨fun h => (by cases h), fun _ h => absurd rfl h⟩
  | delay ms =>
    refine ⟨fun h => (by cases h), fun _ _ => ?_⟩
    cases hq; simp only [delayEvent]; (repeat' split) <;> rfl
  | cmd b =>
    refine ⟨fun h => (by cases h), fun _ _ => ?_⟩
    simp only [panelEvent, Except.ok.injEq] at hq
    subst hq
    split
    · rfl
    · exact panelEffect_cs _ _ _
  | dat d =>
    refine ⟨fun h => (by cases h), fun _ _ => ?_⟩
    simp only [panelEvent, dataByte] at hq
    split at hq
    · cases hq; rfl
    · split at hq
      · cases hq; rfl
      · cases hq; rfl
      · cases hq
        rename_i op bytes _
        have ha : (applyParams c op (bytes ++ [d]) p).cs = p.cs := by
          cases op <;> simp only [applyParams, applyCaset, applyRaset] <;> (repeat' split) <;> rfl
        simp only [paramByte]
        (repeat' split) <;> first | exact ha | rfl
      · simp only [pixelByte] at hq
        (repeat' split at hq) <;> cases hq <;> rfl

theorem traceInv_event {s : State} {e : BusEvent} {q : Panel} (h : TraceInv s)
    (he : s.trace[s.taken]? = some e) (hq : panelEvent s.cfg e s.panel = .ok q) :
   TraceInv { s with taken := s.taken + 1, panel := q } := by
  have hlt : s.taken < s.trace.length := (List.getElem?_eq_some_iff.1 he).1
  obtain ⟨st, h1, h2⟩ := h.panelCs
  obtain ⟨fin, h3, _⟩ := h.framed
  have htk : s.trace.take (s.taken + 1) = s.trace.take s.taken ++ [e] := by
    rw [List.take_add_one, he]; rfl
  obtain ⟨st', h4⟩ := frameRun_take h3 (s.taken + 1)
  have h5 := h4
  rw [htk, frameRun_append, h1] at h5
  simp only [Option.bind_some, frameRun] at h5
  have hcs := panelEvent_cs hq
  have hin : st ≠ .outside → s.panel.cs = true := fun hne => (h2 hne).resolve_right (by omega)
  refine ⟨by simp; omega, h.framed, h.lines, ⟨st', h4, ?_⟩, ?_⟩
  · intro hne
    left
    simp only
    cases e with
    | csAssert => exact hcs.1 rfl
    | csRelease => exfalso; apply hne; cases st <;> simp [frameNext] at h5 <;> exact h5.symm
    | delay ms => exfalso; apply hne; cases st <;> simp [frameNext] at h5 <;> exact h5.symm
    | cmd b => rw [hcs.2 (by simp) (by simp)]; apply hin; rintro rfl; simp [frameNext] at h5
    | dat b => rw [hcs.2 (by simp) (by simp)]; apply hin; rintro rfl; simp [frameNext] at h5
  · refine panelEvent_noCs hq h.noCs ?_
    rintro (⟨b, rfl⟩ | ⟨b, rfl⟩) <;> (apply hin; rintro rfl; simp [frameNext] at h5)

theorem driveLines_append (l : Lines) (es fs : List BusEvent) : driveLines l (es ++ fs) = driveLines
    (driveLines l es) fs := by
  simp [driveLines]

/-- The trace is whole frames unless the bus has failed: what holds wherever the block's reset is not due
(R52, R121). -/
def WholeFrames (s : State) : Prop :=
  ∃ st, frameRun .outside s.trace = some st ∧ (st ≠ .outside → s.block.fault = .busFault)

theorem traceInv_regs {s : State} (h : TraceInv s) (b : Block) (hb : s.block.fault = .busFault → b.fault =
    .busFault) : TraceInv { s with block := b } := by
  refine ⟨h.taken, ?_, h.lines, h.panelCs, h.noCs⟩
  obtain ⟨st, h1, h2⟩ := h.framed
  exact ⟨st, h1, fun hn => (h2 hn).imp_left hb⟩

theorem traceInv_emit {s : State} (h : TraceInv s) (es : List BusEvent) (b : Block) (ds) (st : FrameState)
    (ho : frameRun .outside s.trace = some .outside)
    (he : frameRun .outside es = some st) {hs : HostSide}
    (hb : st ≠ .outside → b.fault = .busFault ∨ hs.inputs[hs.pos]? = some .resetBlock) :
   TraceInv { s with
    trace := s.trace ++ es, lines := driveLines s.lines es, block := b, busDraws := ds, host := hs } := by
  refine ⟨by have := h.taken; simp; omega, ⟨st, by rw [frameRun_append, ho]; exact he, hb⟩, by simp only
      [driveLines_append, ← h.lines], ?_, h.noCs⟩
  obtain ⟨st', h1, h2⟩ := h.panelCs
  refine ⟨st', by rw [List.take_append_of_le_length h.taken]; exact h1, ?_⟩
  intro hne
  rcases h2 hne with h2 | h2
  · exact .inl h2
  · rw [h2, List.take_length, ho] at h1
    cases h1; exact absurd rfl hne

theorem traceInv_exec {s t : State} {i : Instr} (hi : i.isHostOp = true) (hf : s.cfg.panelFits)
    (hb : BlockInv s.cfg s.block) (h : TraceInv s) (hw : WholeFrames s) (ht : exec i s = .next t) :
    TraceInv t := by
  obtain ⟨t', h1, h2⟩ := exec_hostOp hi hf
  rw [ht] at h1; cases h1
  cases h2 with
  | same => exact h
  | fault code hc hp =>
    refine traceInv_regs h _ ?_
    intro hbf
    exact absurd (hb.faulted.2 (by rw [hbf]; simp)) hp
  | regs bl r0 r1 => exact traceInv_regs h _ id
  | work w hwk =>
    have hp := hostWork_phase hwk
    have hfn : s.block.fault = .none := by by_contra hn; exact hp (hb.faulted.2 hn)
    have ho : frameRun .outside s.trace = some .outside := by
      obtain ⟨st, h1, h2⟩ := hw
      by_cases hst : st = .outside
      · rw [h1, hst]
      · have := h2 hst; rw [hfn] at this; cases this
    have hfr := framed_hostWork hwk
    rcases commit_cases i.hostTag w s with ⟨_, hc'⟩ | ⟨_, _, hc'⟩ | ⟨_, k, _, hc'⟩ <;> rw [hc']
    · refine traceInv_regs h _ ?_
      intro hbf; rw [hfn] at hbf; cases hbf
    · exact traceInv_emit h _ _ _ _ ho hfr (fun hn => absurd rfl hn)
    · obtain ⟨st, hst⟩ := frameRun_take hfr k
      exact traceInv_emit h (w.out.take k) _ _ st ho hst (fun _ => .inl (by simp [hfn]))

theorem wholeFrames_of_next {s : State} (h : TraceInv s) (hn : nextInput s ≠ some .resetBlock) :
    WholeFrames s := by
  obtain ⟨st, h1, h2⟩ := h.framed
  exact ⟨st, h1, fun hs => (h2 hs).resolve_right hn⟩

/-- The host's position, and what it read, enter the invariant only where frames are not whole. -/
theorem traceInv_host {s : State} (h : TraceInv s) (hw : WholeFrames s) (hs : HostSide) :
    TraceInv { s with host := hs } := by
  obtain ⟨st, h1, h2⟩ := hw
  exact ⟨h.taken, ⟨st, h1, fun hn => .inl (h2 hn)⟩, h.lines, h.panelCs, h.noCs⟩

theorem traceInv_advanceHost {s : State} (h : TraceInv s) (hn : nextInput s ≠ some .resetBlock) :
    TraceInv (advanceHost s) :=
  traceInv_host h (wholeFrames_of_next h hn) _

/-- An operation that the block's reset stops (R123): whole frames up to the prefix it leaves. -/
theorem traceInv_cut {s t : State} {i : Instr} {all : List BusEvent} (k : Nat) (hi : i.isHostOp = true)
    (hf : s.cfg.panelFits) (hb : BlockInv s.cfg s.block) (h : TraceInv s) (hw : WholeFrames s)
    (ht : exec i { s with busDraws := none :: s.busDraws } = .next t) (ha : t.trace = s.trace ++ all) :
    TraceInv { appendEvents (all.take k) s with host := withNextInput .resetBlock s.host } := by
  have quiet : all = [] →
      TraceInv { appendEvents (all.take k) s with host := withNextInput .resetBlock s.host } := by
    rintro rfl
    rw [List.take_nil, appendEvents_nil]
    exact traceInv_host h hw _
  have same : t.trace = s.trace → all = [] := fun e => by rw [ha] at e; simpa using e
  obtain ⟨t', h1, h2⟩ := exec_hostOp (s := { s with busDraws := none :: s.busDraws }) hi hf
  rw [ht] at h1; cases h1
  cases h2 with
  | same => exact quiet (same rfl)
  | fault code hc hp => exact quiet (same rfl)
  | regs bl r0 r1 => exact quiet (same rfl)
  | work w hwk =>
    rcases commit_cases i.hostTag w { s with busDraws := none :: s.busDraws } with
      ⟨_, hc⟩ | ⟨_, _, hc⟩ | ⟨_, k, hk, hc⟩
    · exact quiet (same (by rw [hc]))
    · rw [hc] at ha
      have hall : all = w.out := by simpa [sent] using ha.symm
      subst hall
      have hfn : s.block.fault = .none := by
        by_contra hn; exact hostWork_phase hwk (hb.faulted.2 hn)
      have ho : frameRun .outside s.trace = some .outside := by
        obtain ⟨st, h1, h2⟩ := hw
        by_cases hst : st = .outside
        · rw [h1, hst]
        · have := h2 hst; rw [hfn] at this; cases this
      obtain ⟨st, hst⟩ := frameRun_take (framed_hostWork hwk) k
      exact traceInv_emit h (w.out.take k) s.block s.busDraws st ho hst
        (fun _ => .inr (withNextInput_next _ _))
    · cases hk

end Sys2Proof.Machine
end

