-- ==== Sys2Proof/Laws/Window.lean ====
section
/-! SUPPORT. A whole window at the panel, set-up and pixels, and the parameter bytes of a vendor command. -/

namespace Sys2Proof.Machine

/-- Running the pending events, as the statements write it. -/
theorem run_events {s : State} {es rest : List BusEvent} {p : Panel} {n : Nat} (hn : es.length = n)
    (hp : pending s = es ++ rest)
    (hr : panelRun s.cfg es s.panel = some p) :
    Host.Core.run core n s = .next { s with taken := s.taken + n, panel := p } := by
  subst hn; exact run_panelRun hp hr

/-- The set-up of a window at the panel (R106 to R108). -/
theorem panelRun_setup {c : Config} {p : Panel} {a0 a1 b0 b1 : Half} (hf : p.fault = .none)
    (hst : p.settle = none) (hcl : closingCheck p = none) (hm : p.madctl = some c.madctlLandscape)
    (hc : p.colmod = some c.colmod16bpp) (hd : c.namedDistinct) (w0 : a0.toNat ≤ a1.toNat)
    (w1 : a1.toNat < c.panelW) (w2 : b0.toNat ≤ b1.toNat) (w3 : b1.toNat < c.panelH) :
    panelRun c (setupEvents c a0.toNat b0.toNat a1.toNat b1.toNat) p
      = some { p with
          mode := .memWrite, sc := some a0, ec := some a1, sp := some b0, ep := some b1
          cx := some a0, cy := some b0, half := none, cs := false
          remain := BitVec.ofNat 32 ((a1.toNat - a0.toNat + 1) * (b1.toNat - b0.toNat + 1)) } := by
  have hn := decodeCommand_named hd
  have hsplit : setupEvents c a0.toNat b0.toNat a1.toNat b1.toNat
      = .csAssert :: .cmd c.opCaset :: ((beBytes a0.toNat ++ beBytes a1.toNat).map .dat
        ++ (.csRelease :: .csAssert :: .cmd c.opRaset
          :: ((beBytes b0.toNat ++ beBytes b1.toNat).map .dat
            ++ [.csRelease, .csAssert, .cmd c.opRamwr, .csRelease]))) := rfl
  rw [hsplit, panelRun_cmd _ hf hst hcl, hn.2.2.2.1, panelRun_append]
  have hA := panelRun_caset_bytes (c := c) (p := { p with cs := true, mode := .params .caset [] })
    a0 a1 hf rfl hst rfl w0 w1
  refine (congrArg (fun o => Option.bind o _) hA).trans ?_
  rw [Option.bind_some, panelRun_cons _ (by exact hf) rfl,
    panelRun_cmd _ (by exact hf) (by exact hst) rfl, hn.2.2.2.2.1, panelRun_append]
  have hB := panelRun_raset_bytes (c := c)
    (p := { p with cs := true, mode := .params .raset [], sc := some a0, ec := some a1 })
    b0 b1 hf rfl hst rfl w2 w3
  refine (congrArg (fun o => Option.bind o _) hB).trans ?_
  rw [Option.bind_some, panelRun_cons _ (by exact hf) rfl,
    panelRun_cmd _ (by exact hf) (by exact hst) rfl, hn.2.2.2.2.2.1]
  have harea : windowArea a0.toNat b0.toNat a1.toNat b1.toNat
      = (((a1.toNat - a0.toNat + 1) * (b1.toNat - b0.toNat + 1) : Nat) : Int) := by
    simp only [windowArea]; push_cast [Nat.cast_sub w0, Nat.cast_sub w2]; rfl
  simp [panelRun, panelEvent, chipSelect, panelEffect, ramwrEffect, hm, hc, hf, harea]
  exact_mod_cast BitVec.ofInt_natCast 32 _

/-- A window's set-up and all of its pixels at the panel (R106 to R109). -/
theorem panelRun_paint {c : Config} {p : Panel} {win : Window} {pixels : List Half}
    (hf : p.fault = .none) (hst : p.settle = none) (hcl : closingCheck p = none)
    (hm : p.madctl = some c.madctlLandscape) (hc : p.colmod = some c.colmod16bpp)
    (hd : c.namedDistinct) (hfits : c.panelFits) (hw : WindowIn c win)
    (hl : pixels.length = win.area) :
    panelRun c (setupEvents c win.x0 win.y0 win.x1 win.y1 ++ pixelEvents pixels) p
      = some { p with
          mode := .memWrite, sc := some (BitVec.ofNat 16 win.x0), ec := some (BitVec.ofNat 16 win.x1)
          sp := some (BitVec.ofNat 16 win.y0), ep := some (BitVec.ofNat 16 win.y1)
          cx := some (BitVec.ofNat 16 win.x0), cy := some (BitVec.ofNat 16 (win.y1 + 1))
          remain := 0, half := none, cs := false
          gram := gramPaint win.x0 win.y0 (win.x1 - win.x0 + 1) 0 pixels p.gram } := by
  obtain ⟨w0, w1, w2, w3⟩ := hw
  obtain ⟨f1, f2⟩ := hfits
  have t0 : (BitVec.ofNat 16 win.x0).toNat = win.x0 := coord_toNat (by omega)
  have t1 : (BitVec.ofNat 16 win.x1).toNat = win.x1 := coord_toNat (by omega)
  have t2 : (BitVec.ofNat 16 win.y0).toNat = win.y0 := coord_toNat (by omega)
  have t3 : (BitVec.ofNat 16 win.y1).toNat = win.y1 := coord_toNat (by omega)
  have hne : pixels ≠ [] := by rintro rfl; simp [Window.area] at hl
  have hs := panelRun_setup (a0 := BitVec.ofNat 16 win.x0) (a1 := BitVec.ofNat 16 win.x1)
    (b0 := BitVec.ofNat 16 win.y0) (b1 := BitVec.ofNat 16 win.y1) hf hst hcl hm hc hd
    (by rwa [t0, t1]) (by rwa [t1]) (by rwa [t2, t3]) (by rwa [t3])
  rw [t0, t1, t2, t3] at hs
  rw [panelRun_append, hs, Option.bind_some, pixelEvents, if_neg hne, List.append_assoc]
  let P : Panel := { p with
    mode := .memWrite, cs := true
    sc := some (BitVec.ofNat 16 win.x0), ec := some (BitVec.ofNat 16 win.x1)
    sp := some (BitVec.ofNat 16 win.y0), ep := some (BitVec.ofNat 16 win.y1) }
  have hP := panelRun_pixels (p := P) (c := c) (sc := win.x0) (sp := win.y0)
    (w := win.x1 - win.x0 + 1) (h := win.y1 - win.y0 + 1) hf rfl hst rfl (by omega) ⟨f1, f2⟩
    (by omega) (by omega) rfl (by simp only [P]; congr 2; omega) pixels 0 p.gram
    (by simpa [Window.area] using hl.le)
  have e1 : pixels.length % (win.x1 - win.x0 + 1) = 0 := by
    rw [hl, Window.area]; exact Nat.mul_mod_right _ _
  have e2 : pixels.length / (win.x1 - win.x0 + 1) = win.y1 - win.y0 + 1 := by
    rw [hl, Window.area]; exact Nat.mul_div_cancel_left _ (by omega)
  have e3 : (win.x1 - win.x0 + 1) * (win.y1 - win.y0 + 1) - pixels.length = 0 := by
    rw [hl, Window.area]; omega
  have e4 : win.y0 + (win.y1 - win.y0 + 1) = win.y1 + 1 := by omega
  rw [List.singleton_append, panelRun_cons _ (by exact hf) rfl, panelRun_append]
  refine (congrArg (fun o => Option.bind o _) (Eq.trans ?_ hP)).trans ?_
  · simp [atPixel, P, chipSelect]
  · simp only [Option.bind_some, Nat.zero_add]
    rw [panelRun_cons _ (by exact hf) rfl]
    simp only [panelRun, chipSelect, atPixel, P, e1, e2, e3, e4, Nat.add_zero]
    rfl

/-- What GRAM holds after them. -/
theorem gramRead_window {c : Config} {win : Window} {pixels : List Half} (hfits : c.panelFits)
    (hw : WindowIn c win) (hl : pixels.length = win.area) (g : Gram) (x y : Half) :
   gramRead (gramPaint win.x0 win.y0 (win.x1 - win.x0 + 1) 0 pixels g) (gramKey x y) =
          if win.x0 ≤ x.toNat ∧ x.toNat ≤ win.x1 ∧ win.y0 ≤ y.toNat ∧ y.toNat ≤ win.y1 then
            pixels[(y.toNat - win.y0) * (win.x1 - win.x0 + 1) + (x.toNat - win.x0)]?
          else gramRead g (gramKey x y) := by
  obtain ⟨w0, w1, w2, w3⟩ := hw
  obtain ⟨f1, f2⟩ := hfits
  rw [gramRead_gramPaint (h := win.y1 - win.y0 + 1) (by omega) (by omega) (by omega) pixels 0
      (by simpa [Window.area] using hl.le)]
  by_cases hin : win.x0 ≤ x.toNat ∧ x.toNat ≤ win.x1 ∧ win.y0 ≤ y.toNat ∧ y.toNat ≤ win.y1
  · rw [if_pos hin, if_pos]
    · simp
    · refine ⟨hin.1, by omega, hin.2.2.1, Nat.zero_le _, ?_⟩
      rw [Nat.zero_add, hl, Window.area]
      have h1 : y.toNat - win.y0 ≤ win.y1 - win.y0 := by omega
      calc (y.toNat - win.y0) * (win.x1 - win.x0 + 1) + (x.toNat - win.x0)
          < (y.toNat - win.y0) * (win.x1 - win.x0 + 1) + (win.x1 - win.x0 + 1) := by omega
        _ = (y.toNat - win.y0 + 1) * (win.x1 - win.x0 + 1) := by ring
        _ ≤ (win.y1 - win.y0 + 1) * (win.x1 - win.x0 + 1) := Nat.mul_le_mul_right _ (by omega)
        _ = _ := by ring
  · rw [if_neg hin, if_neg]
    rintro ⟨h1, h2, h3, _, h5⟩
    apply hin
    refine ⟨h1, by omega, h3, ?_⟩
    by_contra hgt
    rw [Nat.zero_add, hl, Window.area] at h5
    have : (win.y1 - win.y0 + 1) * (win.x1 - win.x0 + 1) ≤ (y.toNat - win.y0) * (win.x1 - win.x0 + 1) :=
        Nat.mul_le_mul_right _ (by omega)
    rw [Nat.mul_comm (win.x1 - win.x0 + 1)] at h5
    omega

/-- The cell in column `x`, row `y` lies in the window. -/
def windowHolds (win : Window) (x y : Half) : Prop :=
  win.x0 ≤ x.toNat ∧ x.toNat ≤ win.x1 ∧ win.y0 ≤ y.toNat ∧ y.toNat ≤ win.y1

/-- The window of a fill holds the cells of the panel that lie in the rectangle (R78, R79). -/
theorem fillWindow_holds {c : Config} {x y w h : Int} {i j : Half} :
    (∃ win, fillWindow c x y w h = some win ∧ windowHolds win i j)
      ↔ (i.toNat < c.panelW ∧ j.toNat < c.panelH) ∧ inBox x y w h i j := by
  unfold fillWindow
  split
  · simp only [Option.some.injEq, exists_eq_left', windowHolds]
    omega
  · simp only [reduceCtorEq, false_and, exists_false, false_iff]
    omega

/-- The bars of ROUND_RECT together hold the cells of the panel that lie in one of the four rectangles
(R87). -/
theorem barWindows_hold {c : Config} {x y w h t : Int} {i j : Half} :
    (∃ win, some win ∈ barWindows c x y w h t ∧ windowHolds win i j)
      ↔ (i.toNat < c.panelW ∧ j.toNat < c.panelH)
        ∧ (inBox (x + c.borderInset) y (w - 2 * c.borderInset) t i j
          ∨ inBox (x + c.borderInset) (y + h - t) (w - 2 * c.borderInset) t i j
          ∨ inBox x (y + c.borderInset) t (h - 2 * c.borderInset) i j
          ∨ inBox (x + w - t) (y + c.borderInset) t (h - 2 * c.borderInset) i j) := by
  simp only [and_or_left, ← fillWindow_holds, barWindows, List.mem_cons, List.not_mem_nil, or_false,
    or_and_right, exists_or, eq_comm (a := some _)]

/-- A window of one colour reads so in all of its cells. -/
theorem gramRead_solid {c : Config} {win : Window} (color : Half) (hfits : c.panelFits)
    (hw : WindowIn c win) (g : Gram) (x y : Half) :
    (windowHolds win x y →
      gramRead (gramPaint win.x0 win.y0 (win.x1 - win.x0 + 1) 0 (solid color win) g) (gramKey x y)
        = some color)
    ∧ (¬windowHolds win x y →
      gramRead (gramPaint win.x0 win.y0 (win.x1 - win.x0 + 1) 0 (solid color win) g) (gramKey x y)
        = gramRead g (gramKey x y)) := by
  rw [gramRead_window hfits hw (by simp [solid])]
  constructor
  · rintro ⟨h1, h2, h3, h4⟩
    rw [if_pos ⟨h1, h2, h3, h4⟩, solid, List.getElem?_replicate, if_pos]
    rw [Window.area]
    calc (y.toNat - win.y0) * (win.x1 - win.x0 + 1) + (x.toNat - win.x0)
        < (y.toNat - win.y0) * (win.x1 - win.x0 + 1) + (win.x1 - win.x0 + 1) := by omega
      _ = (y.toNat - win.y0 + 1) * (win.x1 - win.x0 + 1) := by ring
      _ ≤ (win.y1 - win.y0 + 1) * (win.x1 - win.x0 + 1) := Nat.mul_le_mul_right _ (by omega)
      _ = _ := Nat.mul_comm _ _
  · intro h; exact if_neg h

/-- Windows of one colour, one after another, at the panel: the cells of all of them hold the colour, and
no other cell has changed (R79, R87, R109). -/
theorem panelRun_fills {c : Config} (color : Half) (hd : c.namedDistinct) (hfits : c.panelFits)
    (wins : List (Option Window)) (hw : ∀ win ∈ wins, ∀ w, win = some w → WindowIn c w) :
    ∀ p : Panel, p.fault = .none → p.settle = none → closingCheck p = none →
      p.madctl = some c.madctlLandscape → p.colmod = some c.colmod16bpp →
      ∃ q, panelRun c (wins.flatMap fun win => paintEvents c win (solid color)) p = some q
        ∧ q.fault = .none
        ∧ ∀ x y : Half,
          ((∃ w, some w ∈ wins ∧ windowHolds w x y) → gramRead q.gram (gramKey x y) = some color)
          ∧ ((¬∃ w, some w ∈ wins ∧ windowHolds w x y) →
            gramRead q.gram (gramKey x y) = gramRead p.gram (gramKey x y)) := by
  induction wins with
  | nil => intro p hf _ _ _ _; exact ⟨p, rfl, hf, fun x y => ⟨by simp, fun _ => rfl⟩⟩
  | cons win wins ih =>
    intro p hf hst hcl hm hc
    have ih := ih fun w h => hw w (by simp [h])
    cases win with
    | none => simpa [paintEvents] using ih p hf hst hcl hm hc
    | some w =>
      have hin := hw (some w) (by simp) w rfl
      have hrun := panelRun_paint hf hst hcl hm hc hd hfits hin
        (by simp [solid] : (solid color w).length = w.area)
      obtain ⟨P, hP, p1, p2, p3, p4, p5, p6⟩ : ∃ P, panelRun c (paintEvents c (some w) (solid color)) p
            = some P
          ∧ P.fault = .none ∧ P.settle = none ∧ closingCheck P = none
          ∧ P.madctl = some c.madctlLandscape ∧ P.colmod = some c.colmod16bpp
          ∧ P.gram = gramPaint w.x0 w.y0 (w.x1 - w.x0 + 1) 0 (solid color w) p.gram :=
        ⟨_, hrun, hf, hst, rfl, hm, hc, rfl⟩
      obtain ⟨q, hq, hqf, hg⟩ := ih P p1 p2 p3 p4 p5
      rw [p6] at hg
      refine ⟨q, ?_, hqf, fun x y => ?_⟩
      · rw [List.flatMap_cons, panelRun_append, hP]
        exact hq
      · obtain ⟨s1, s2⟩ := gramRead_solid color hfits hin p.gram x y
        obtain ⟨g1, g2⟩ := hg x y
        by_cases hrest : ∃ w, some w ∈ wins ∧ windowHolds w x y
        · refine ⟨fun _ => g1 hrest, fun h => absurd ?_ h⟩
          obtain ⟨w', h1, h2⟩ := hrest
          exact ⟨w', by simp [h1], h2⟩
        · refine ⟨?_, fun h => (g2 hrest).trans (s2 fun hh => h ⟨w, by simp, hh⟩)⟩
          rintro ⟨w', h1, h2⟩
          rcases List.mem_cons.1 h1 with h1 | h1
          · cases h1; exact (g2 hrest).trans (s1 h2)
          · exact absurd ⟨w', h1, h2⟩ hrest

/-- A vendor command takes any bytes (R112). -/
theorem panelRun_vendor_bytes {c : Config} {op : Byte} (bytes : List Byte) : ∀ {p : Panel}
    {bs : List Byte}, p.fault = .none → p.cs = true → p.settle = none →
   p.mode = .params (.vendor op) bs → panelRun c (bytes.map .dat) p = some
       { p with mode := .params (.vendor op) (bs ++ bytes) } := by
  induction bytes with
  | nil => intro p bs _ _ _ h; simp [panelRun, ← h]
  | cons d ds ih =>
    intro p bs h1 h2 h3 h4
    rw [List.map_cons, panelRun_cons (q := { p with mode := .params (.vendor op) (bs ++ [d]) }) _ h1
      (by simp [panelEvent, dataByte, byteCheck, h2, h3, h4, paramByte, paramCount])]
    refine (ih (p := { p with mode := .params (.vendor op) (bs ++ [d]) }) h1 h2 h3 rfl).trans ?_; simp

/-- A sink between the steps of the initialisation. -/
def Quiet (p : Panel) : Prop :=
  p.fault = .none ∧ p.settle = none ∧ p.cs = false ∧ (p.mode = .idle ∨ ∃ op bs, p.mode = .params
      (.vendor op) bs)

theorem closingCheck_quiet {p : Panel} (h : Quiet p) : closingCheck p = none := by
  obtain ⟨_, _, _, h | ⟨op, bs, h⟩⟩ := h <;> simp [closingCheck, h]

/-- The steps of `INIT_SEQ` after the two waits (R71, items 3 to 6). -/
theorem panelRun_init_tail {c : Config} (hd : c.namedDistinct) (hv : c.vendorApart) (mid : List InitStep)
    (hl : ∀ st ∈ mid, c.tailStepLegal st = true) :
   ∀ p : Panel, Quiet p → ∃ m, (m = .idle ∨ ∃ op bs, m = PanelMode.params (.vendor op) bs) ∧
    panelRun c (mid.flatMap initStepEvents) p = some { p with
      mode := m
      madctl := if InitStep.command c.opMadctl [c.madctlLandscape] ∈ mid then some c.madctlLandscape else
          p.madctl
      colmod := if InitStep.command c.opColmod [c.colmod16bpp] ∈ mid then some c.colmod16bpp else p.colmod
          } := by
  induction mid with
  | nil => intro p h; exact ⟨p.mode, h.2.2.2, by simp [panelRun]⟩
  | cons st mid ih =>
    intro p h
    have ih := ih (fun st hs => hl st (List.mem_cons_of_mem _ hs))
    have hst := hl st (List.mem_cons_self ..)
    have hn := decodeCommand_named hd
    have hne : c.opMadctl ≠ c.opColmod := by
      intro he; simp [Config.namedDistinct, Config.namedOpcodes, he] at hd
    have hcl := closingCheck_quiet h
    obtain ⟨h1, h2, h3, h4⟩ := h
    cases st with
    | wait ms => simp [Config.tailStepLegal] at hst
    | command op params =>
      rw [List.flatMap_cons, panelRun_append]
      simp only [initStepEvents, cmdFrame]
      rw [List.append_assoc, show ∀ l, [BusEvent.csAssert, .cmd op] ++ l = .csAssert :: .cmd op :: l from
          fun _ => rfl, panelRun_cmd _ h1 h2 hcl]
      simp only [Config.tailStepLegal, Bool.or_eq_true, Bool.and_eq_true, beq_iff_eq] at hst
      rcases hst with (⟨rfl, rfl⟩ | ⟨rfl, rfl⟩) | hmem
      · have e : panelRun c (List.map .dat [c.madctlLandscape] ++ [BusEvent.csRelease])
          (panelEffect c (decodeCommand c c.opMadctl) { p with cs := true })
            = some { p with mode := .idle, madctl := some c.madctlLandscape } := by
          simp [hn, panelEffect, panelRun, panelEvent, dataByte, byteCheck, paramByte, paramCount,
              applyParams, chipSelect, h1, h2, h3]
        obtain ⟨m, hm, hr⟩ := ih { p with mode := .idle, madctl := some c.madctlLandscape }
            ⟨h1, h2, h3, .inl rfl⟩
        refine ⟨m, hm, ?_⟩
        rw [e, Option.bind_some, hr]
        simp [hne.symm]
      · have e : panelRun c (List.map .dat [c.colmod16bpp] ++ [BusEvent.csRelease])
          (panelEffect c (decodeCommand c c.opColmod) { p with cs := true })
            = some { p with mode := .idle, colmod := some c.colmod16bpp } := by
          simp [hn, panelEffect, panelRun, panelEvent, dataByte, byteCheck, paramByte, paramCount,
              applyParams, chipSelect, h1, h2, h3]
        obtain ⟨m, hm, hr⟩ := ih { p with mode := .idle, colmod := some c.colmod16bpp }
            ⟨h1, h2, h3, .inl rfl⟩
        refine ⟨m, hm, ?_⟩
        rw [e, Option.bind_some, hr]
        simp [hne]
      · have hmem' : op ∈ c.vendorOpaque := by simpa using hmem
        have hno := hv op hmem'
        have hdec : decodeCommand c op = .vendor op := by
          simp only [Config.namedOpcodes, List.mem_cons, List.not_mem_nil, or_false, not_or] at hno
          simp [decodeCommand, hno, hmem']
        have hno1 : op ≠ c.opMadctl := fun he => hno (by simp [he, Config.namedOpcodes])
        have hno2 : op ≠ c.opColmod := fun he => hno (by simp [he, Config.namedOpcodes])
        have e : panelRun c (List.map .dat params ++ [BusEvent.csRelease])
            (panelEffect c (decodeCommand c op) { p with cs := true })
            = some { p with mode := .params (.vendor op) params } := by
          rw [hdec, panelRun_append]
          rw [show panelEffect c (.vendor op) { p with cs := true }
            = { p with cs := true, mode := .params (.vendor op) [] } from rfl]
          rw [panelRun_vendor_bytes (p := { p with cs := true, mode := .params (.vendor op) [] }) params h1
              rfl h2 rfl]
          simp [panelRun, panelEvent, chipSelect, h1, h3]
        obtain ⟨m, hm, hr⟩ := ih { p with mode := .params (.vendor op) params }
            ⟨h1, h2, h3, .inr ⟨_, _, rfl⟩⟩
        refine ⟨m, hm, ?_⟩
        rw [e, Option.bind_some, hr]
        simp [hno1.symm, hno2.symm]

end Sys2Proof.Machine
end

