-- ==== Sys2Proof/Tests/Slice0.lean ====
section
/-! SUPPORT. The model's own tests: the spec's vectors (95_test_vectors.md) on its test parameters, and for
every statement with hypotheses a concrete case that meets them. -/

namespace Sys2Proof.Tests

open Machine

/-! ## The test parameters (95_test_vectors.md section 2) -/

def letterA : Glyph :=
  #v[0xFFFF, 0x8000, 0x8000, 0x8000, 0x8000, 0x8000, 0x8000, 0x8000,
     0x8000, 0x8000, 0x8000, 0x8000, 0x8000, 0x8000, 0x8000, 0x8000]

def testConfig : Config :=
  { Config.hardware with
    madctlLandscape := 0x28
    vendorOpaque := [0xF0, 0xE0, 0xC0]
    blActiveHigh := true
    glyphRom := { space := Vector.replicate 16 0, others := [(0x41, letterA)] }
    initSeq := [.command 0x01 [], .wait 200, .command 0x11 [], .wait 200, .command 0xF0 [0xC3],
      .command 0xF0 [0x96], .command 0x36 [0x28], .command 0x3A [0x55],
      .command 0xE0 [0x00, 0x01, 0x02, 0x03], .command 0xC0 [0x10, 0x20], .command 0xF0 [0x3C],
      .command 0xF0 [0x69], .command 0x29 []] }

/-- After the block's reset and the panel's power-on, with a healthy bus for the coming operations. -/
def fresh : State :=
  { State.reset with cfg := testConfig, busDraws := [none, none] }

/-- The panel at the end of section 2.1. -/
def panelUp : Panel :=
  { Panel.powerOn with
    sleep := some false, dispOn := some true, madctl := some 0x28, colmod := some 0x55 }

/-- The state R of section 3: after INIT, with everything consumed. -/
def ready : State :=
  { fresh with block := { Block.reset with phase := .ready }, panel := panelUp }

/-- R with a stream of `n` words open to the window (0,0) to (9,0). -/
def streaming (n : Word) : State :=
  { ready with block := { ready.block with
      winValid := true, winX0 := some 0, winY0 := some 0, winX1 := some 9, winY1 := some 0, pend := n } }

def faulted : State :=
  { fresh with block := { Block.reset with phase := .faulted, fault := .badScale, faultTag := 0x20 } }

/-- R with the host's list of inputs. -/
def readyWith (inputs : List HostInput) : State :=
  { ready with host := { HostSide.reset with inputs := inputs } }

/-- R with a panel of its own and events it has not taken yet. -/
def sinkWith (p : Panel) (es : List BusEvent) : State :=
  { ready with panel := p, trace := es, taken := 0 }

/-- The panel with CS asserted. -/
def selected : Panel := { panelUp with cs := true }

/-- The panel with a window of two columns and two rows, 2..3 by 5..6 (V-P16). -/
def windowed : Panel :=
  { selected with sc := some 2, ec := some 3, sp := some 5, ep := some 6 }

/-- In a memory write of that window, at its first cell. -/
def writing : Panel :=
  { windowed with mode := .memWrite, cx := some 2, cy := some 5, remain := 4 }

def blockOf : Result → Option Block
  | .next t => some t.block
  | .fault _ => none
  | .refused _ => none

def eventsOf : Result → Option (List BusEvent)
  | .next t => some t.trace
  | .fault _ => none
  | .refused _ => none

def panelOf : Result → Option Panel
  | .next t => some t.panel
  | .fault _ => none
  | .refused _ => none

/-- Code, tag, phase and number of events after a fault. -/
def faultOf (r : Result) : Option (BlockFault × Byte × Phase × Nat) :=
  match r with
  | .next t => some (t.block.fault, t.block.faultTag, t.block.phase, t.trace.length)
  | .fault _ => none
  | .refused _ => none

/-! ## Ill-formed terms are refused (R60, R62, R66) -/

theorem test_wf_params_too_long : Instr.wf testConfig (.sendCmdParams 0 (List.replicate 65536 0)) = false := by
  rw [Instr.wf, List.length_replicate]; decide
theorem test_wf_pixels_too_long : Instr.wf testConfig (.pushPixels (List.replicate 65536 0)) = false := by
  rw [Instr.wf, List.length_replicate]; decide
theorem test_wf_text_too_long :
    Instr.wf testConfig (.drawText 0 0 0 0 1 (List.replicate 65536 0)) = false
      ∧ Instr.wf testConfig (.textWidth 1 (List.replicate 65536 0)) = false := by
  rw [Instr.wf, Instr.wf, List.length_replicate]; decide
theorem test_wf_reserved_header_is_an_operation :
    Instr.wf testConfig (.reservedHostTag 0x00000003 []) = false
      ∧ Instr.wf testConfig (.reservedHostTag 0x00000024 []) = true := by decide
theorem test_wf_vendor_byte :
    Instr.wf testConfig (.vendor 0x36) = false ∧ Instr.wf testConfig (.vendor 0x00) = false
      ∧ Instr.wf testConfig (.vendor 0xF0) = true := by decide
theorem test_wf_unmodelled_byte :
    Instr.wf testConfig (.unmodelled 0x2A) = false ∧ Instr.wf testConfig (.unmodelled 0xE0) = false
      ∧ Instr.wf testConfig (.unmodelled 0x00) = true := by decide

/-! ## Decoding: every constructor by a word of the spec's encoding (R60 to R66, section 3.1) -/

theorem test_decode_sendCmd : decodeDescriptor [0x00000001, 0x00000029] = .ok (.sendCmd 0x29) := rfl
theorem test_decode_sendCmdParams :
    decodeDescriptor [0x00000002, 0x00000036, 0x00000001, 0x28000000] = .ok (.sendCmdParams 0x36 [0x28])
      ∧ decodeDescriptor [0x00000002, 0x00000000, 0x00000000] = .ok (.sendCmdParams 0x00 []) := ⟨rfl, rfl⟩
theorem test_decode_init_backlight :
    decodeDescriptor [0x00000003] = .ok .init
      ∧ decodeDescriptor [0x00000004, 0x00000001] = .ok (.backlight true) := ⟨rfl, rfl⟩
theorem test_decode_setWindow :
    decodeDescriptor [0x00000010, 0x000001D6, 0x0000013B, 0x000001DF, 0x0000013F]
      = .ok (.setWindow 470 315 479 319) := rfl
theorem test_decode_pushPixels :
    decodeDescriptor [0x00000011, 0x00000003, 0xF80007E0, 0x001F0000]
      = .ok (.pushPixels [0xF800, 0x07E0, 0x001F]) := rfl
theorem test_decode_fillRect :
    decodeDescriptor [0x00000012, 0xFFFFFFF6, 0xFFFFFFFB, 0x00000014, 0x0000000A, 0x0000001F]
      = .ok (.fillRect (-10) (-5) 20 10 0x001F) := rfl
theorem test_decode_fills :
    decodeDescriptor [0x00000013, 0x0000FFFF] = .ok (.fillScreen 0xFFFF)
      ∧ decodeDescriptor [0x00000014, 470, 10, 20, 0x0000FFFF] = .ok (.hline 470 10 20 0xFFFF)
      ∧ decodeDescriptor [0x00000015, 240, 0xFFFFFFFB, 10, 0x0000FFFF] = .ok (.vline 240 (-5) 10 0xFFFF)
      ∧ decodeDescriptor [0x00000016, 0, 1, 20, 30, 0x000007E0, 3]
          = .ok (.roundRect 0 1 20 30 0x07E0 3) := ⟨rfl, rfl, rfl, rfl⟩
theorem test_decode_color_and_sizes :
    decodeDescriptor [0x00000017, 0x12, 0x34, 0x56] = .ok (.color565 0x12 0x34 0x56)
      ∧ decodeDescriptor [0x00000020, 3] = .ok (.charSize 3)
      ∧ decodeDescriptor [0x00000023, 1, 2, 0x48690000] = .ok (.textWidth 1 [0x48, 0x69]) := ⟨rfl, rfl, rfl⟩
theorem test_decode_drawChar :
    decodeDescriptor [0x00000021, 0x41, 464, 304, 0x0000FFFF, 0x0000001F, 1]
      = .ok (.drawChar 0x41 464 304 0xFFFF 0x001F 1) := rfl
theorem test_decode_drawText :
    decodeDescriptor [0x00000022, 0x0000000A, 0x0000000A, 0x0000FFFF, 0x00000000, 0x00000001, 0x00000003,
      0x434F3200] = .ok (.drawText 10 10 0xFFFF 0x0000 1 [0x43, 0x4F, 0x32]) := rfl
theorem test_decode_reserved :
    decodeDescriptor [0x00000005] = .ok (.reservedHostTag 0x00000005 [])
      ∧ decodeDescriptor [0x00000103] = .ok (.reservedHostTag 0x00000103 []) := ⟨rfl, rfl⟩
theorem test_decode_commands :
    [0x01, 0x11, 0x29, 0x2A, 0x2B, 0x2C, 0x36, 0x3A, 0xF0, 0x00].map (decodeCommand testConfig)
      = [.swreset, .slpout, .dispon, .caset, .raset, .ramwr, .madctl, .colmod, .vendor 0xF0,
         .unmodelled 0x00] := by decide
/-- V-E10 to V-E15. -/
theorem test_decode_rejects :
    decodeDescriptor [0x00000001, 0x00000129] = .error .reservedBits
      ∧ decodeDescriptor [0x00000004, 0x00000002] = .error .reservedBits
      ∧ decodeDescriptor [0x00000011, 0x00000001, 0xF80007E0] = .error .nonzeroPadding
      ∧ decodeDescriptor [0x00000003, 0x00000000] = .error .wrongLength
      ∧ decodeDescriptor [0x00000017, 0x000000FF, 0x00000000] = .error .wrongLength
      ∧ decodeDescriptor [0x00000013, 0x0001F800] = .error .reservedBits := ⟨rfl, rfl, rfl, rfl, rfl, rfl⟩
theorem test_decode_bytes : decodeBytes [0, 0, 0, 0x01, 0, 0, 0, 0x29] = .ok (.sendCmd 0x29) := rfl
theorem test_decode_table_word :
    decodeTableWord 32 0x10 = some (.setWindow 0 0 0 0) ∧ decodeTableWord 8 0x2C = some .ramwr := ⟨rfl, rfl⟩

/-! ## Host operations: transport (section 3.2) -/

theorem test_sendCmd : eventsOf (exec (.sendCmd 0x29) fresh) = some [.csAssert, .cmd 0x29, .csRelease]
    ∧ blockOf (exec (.sendCmd 0x29) fresh) = some Block.reset := by decide
/-- V-T3. -/
theorem test_sendCmd_underrun :
    faultOf (exec (.sendCmd 0x29) (streaming 1)) = some (.windowUnderrun, 0x01, .faulted, 0) := by decide
/-- V-T4. -/
theorem test_sendCmdParams_clears_window :
    (blockOf (exec (.sendCmdParams 0x2A [0, 0, 0, 9]) (streaming 0))).map (·.winValid) = some false := by
  decide
/-- V-T5. -/
theorem test_sendCmd_keeps_window :
    (blockOf (exec (.sendCmd 0x36) (streaming 0))).map (·.winValid) = some true := by decide
/-- Section 2.1. -/
theorem test_init : eventsOf (exec .init fresh) = some [.csAssert, .cmd 0x01, .csRelease, .delay 200,
      .csAssert, .cmd 0x11, .csRelease, .delay 200, .csAssert, .cmd 0xF0, .dat 0xC3, .csRelease,
      .csAssert, .cmd 0xF0, .dat 0x96, .csRelease, .csAssert, .cmd 0x36, .dat 0x28, .csRelease,
      .csAssert, .cmd 0x3A, .dat 0x55, .csRelease,
      .csAssert, .cmd 0xE0, .dat 0x00, .dat 0x01, .dat 0x02, .dat 0x03, .csRelease,
      .csAssert, .cmd 0xC0, .dat 0x10, .dat 0x20, .csRelease, .csAssert, .cmd 0xF0, .dat 0x3C, .csRelease,
      .csAssert, .cmd 0xF0, .dat 0x69, .csRelease, .csAssert, .cmd 0x29, .csRelease]
    ∧ blockOf (exec .init fresh) = some { Block.reset with phase := .ready } := by decide
/-- V-T13, where the bus takes three events. -/
theorem test_init_bus_fault : faultOf (exec .init { fresh with busDraws := [some 3] })
    = some (.busFault, 0x03, .faulted, 3) := by decide
/-- V-T9, V-T10. -/
theorem test_backlight : (blockOf (exec (.backlight true) fresh)).map (·.bl) = some true
    ∧ faultOf (exec (.backlight false) faulted) = some (.badScale, 0x20, .faulted, 0) := by decide

/-! ## Host operations: blit (section 3.3) -/

/-- V-B1. -/
theorem test_setWindow : eventsOf (exec (.setWindow 470 315 479 319) ready) = some [.csAssert, .cmd 0x2A,
      .dat 0x01, .dat 0xD6, .dat 0x01, .dat 0xDF, .csRelease, .csAssert, .cmd 0x2B, .dat 0x01, .dat 0x3B,
      .dat 0x01, .dat 0x3F, .csRelease, .csAssert, .cmd 0x2C, .csRelease]
    ∧ (blockOf (exec (.setWindow 470 315 479 319) ready)).map (·.pend) = some 50 := by decide
/-- V-B3, V-B3a, V-B3b, V-B3c. -/
theorem test_setWindow_bad :
    faultOf (exec (.setWindow 5 0 4 0) ready) = some (.badWindow, 0x10, .faulted, 0)
      ∧ faultOf (exec (.setWindow 0 0 480 0) ready) = some (.badWindow, 0x10, .faulted, 0)
      ∧ faultOf (exec (.setWindow (-1) 0 3 0) ready) = some (.badWindow, 0x10, .faulted, 0)
      ∧ faultOf (exec (.setWindow 5 0 4 0) fresh) = some (.notInitialized, 0x10, .faulted, 0) := by decide
/-- V-B4. -/
theorem test_pushPixels : eventsOf (exec (.pushPixels [0xF800, 0x07E0]) (streaming 2))
      = some [.csAssert, .dat 0xF8, .dat 0x00, .dat 0x07, .dat 0xE0, .csRelease]
    ∧ (blockOf (exec (.pushPixels [0xF800, 0x07E0]) (streaming 2))).map (·.pend) = some 0 := by decide
/-- V-B4a, V-B4b, V-B4c. -/
theorem test_pushPixels_bounds :
    faultOf (exec (.pushPixels [1, 2, 3]) (streaming 2)) = some (.windowOverrun, 0x11, .faulted, 0)
      ∧ faultOf (exec (.pushPixels []) ready) = some (.none, 0, .ready, 0)
      ∧ faultOf (exec (.pushPixels [0x1234]) ready) = some (.windowOverrun, 0x11, .faulted, 0) := by decide
/-- V-B8. -/
theorem test_fillRect : eventsOf (exec (.fillRect 479 319 1 1 0xFFEE) ready) = some [.csAssert, .cmd 0x2A,
      .dat 0x01, .dat 0xDF, .dat 0x01, .dat 0xDF, .csRelease, .csAssert, .cmd 0x2B, .dat 0x01, .dat 0x3F,
      .dat 0x01, .dat 0x3F, .csRelease, .csAssert, .cmd 0x2C, .csRelease, .csAssert, .dat 0xFF, .dat 0xEE,
      .csRelease] := by decide
/-- V-B9, V-B12 to V-B17: the windows of the clipping table. -/
theorem test_fillRect_clipped :
    fillWindow testConfig (-10) (-5) 20 10 = some ⟨0, 0, 9, 4⟩
      ∧ (eventsOf (exec (.fillRect (-10) (-5) 20 10 0) ready)).map (·.length) = some (17 + 102)
      ∧ exec (.fillRect 480 0 10 10 0) ready = .next ready
      ∧ exec (.fillRect (-10) 0 10 10 0) ready = .next ready
      ∧ exec (.fillRect 10 10 0 5 0) ready = .next ready
      ∧ exec (.fillRect 10 10 (-3) 5 0) ready = .next ready
      ∧ exec (.fillRect 2147483647 0 2147483647 1 0) ready = .next ready
      ∧ exec (.fillRect (-2147483648) 0 2147483647 1 0) ready = .next ready :=
  ⟨by decide, by decide, rfl, rfl, rfl, rfl, rfl, rfl⟩
/-- FILL_SCREEN on a panel of 3 by 2 cells: the whole of it, six words (R84). -/
theorem test_fillScreen :
    eventsOf (exec (.fillScreen 0x0102) { ready with cfg := { testConfig with panelW := 3, panelH := 2 } })
      = some [.csAssert, .cmd 0x2A, .dat 0, .dat 0, .dat 0, .dat 2, .csRelease,
        .csAssert, .cmd 0x2B, .dat 0, .dat 0, .dat 0, .dat 1, .csRelease, .csAssert, .cmd 0x2C, .csRelease,
        .csAssert, .dat 1, .dat 2, .dat 1, .dat 2, .dat 1, .dat 2, .dat 1, .dat 2, .dat 1, .dat 2,
        .dat 1, .dat 2, .csRelease] := by decide
/-- V-B23, V-B24. -/
theorem test_hline : (eventsOf (exec (.hline 470 10 20 0xFFFF) ready)).map (·.length) = some (17 + 22)
    ∧ (blockOf (exec (.hline 470 10 20 0xFFFF) ready)).map (fun b => (b.winX0, b.winY0, b.winX1, b.winY1))
        = some (some 470, some 10, some 479, some 10)
    ∧ eventsOf (exec (.hline 0 320 10 0xFFFF) ready) = some [] := by decide
/-- V-B25, V-B26. -/
theorem test_vline : (eventsOf (exec (.vline 240 (-5) 10 0xFFFF) ready)).map (·.length) = some (17 + 12)
    ∧ (blockOf (exec (.vline 240 (-5) 10 0xFFFF) ready)).map (fun b => (b.winX0, b.winY0, b.winX1, b.winY1))
        = some (some 240, some 0, some 240, some 4)
    ∧ eventsOf (exec (.vline 240 0 0 0xFFFF) ready) = some [] := by decide
/-- V-B28: left then right, six words each; V-B28a. -/
theorem test_roundRect :
    (eventsOf (exec (.roundRect 0 0 4 10 0xFFFF 1) ready)).map (·.length) = some (2 * (17 + 14))
      ∧ (blockOf (exec (.roundRect 0 0 4 10 0xFFFF 1) ready)).map
          (fun b => (b.winX0, b.winY0, b.winX1, b.winY1)) = some (some 3, some 2, some 3, some 7)
      ∧ eventsOf (exec (.roundRect 10 10 100 50 0xFFFF 0) ready) = some [] := by decide
/-- V-B27, V-B29, V-B29a: the bars' windows. -/
theorem test_roundRect_windows :
    barWindows testConfig 10 10 100 50 1
        = [some ⟨12, 10, 107, 10⟩, some ⟨12, 59, 107, 59⟩, some ⟨10, 12, 10, 57⟩, some ⟨109, 12, 109, 57⟩]
      ∧ barWindows testConfig 0 0 20 20 3
        = [some ⟨2, 0, 17, 2⟩, some ⟨2, 17, 17, 19⟩, some ⟨0, 2, 2, 17⟩, some ⟨17, 2, 19, 17⟩]
      ∧ barWindows testConfig (-5) (-5) 20 20 1
        = [none, some ⟨0, 14, 12, 14⟩, none, some ⟨14, 0, 14, 12⟩] := by decide
/-- V-B30, V-B31, V-B34, V-B35, V-B36, V-B38. -/
theorem test_color565 :
    (blockOf (exec (.color565 255 255 255) ready)).map (·.res0) = some (some 0xFFFF)
      ∧ (blockOf (exec (.color565 255 0 0) (streaming 3))).map (·.res0) = some (some 0xF800)
      ∧ (blockOf (exec (.color565 7 3 7) ready)).map (·.res0) = some (some 0)
      ∧ (blockOf (exec (.color565 0x12 0x34 0x56) ready)).map (·.res0) = some (some 0x11AA)
      ∧ (blockOf (exec (.color565 8 4 8) fresh)).map (·.res0) = some (some 0x0821) := by decide
/-- V-B18 to V-B21, V-B20 by its sum. -/
theorem test_bursts : bursts 640 1000 = [640, 360] ∧ bursts 640 640 = [640] ∧ bursts 640 1 = [1] := by decide

/-! ## Host operations: glyphs (section 3.4) -/

/-- V-G1, V-G3, V-G4. -/
theorem test_charSize :
    (blockOf (exec (.charSize 1) fresh)).map (fun b => (b.res0, b.res1)) = some (some 16, some 16)
      ∧ (blockOf (exec (.charSize 255) ready)).map (fun b => (b.res0, b.res1)) = some (some 4080, some 4080)
      ∧ faultOf (exec (.charSize 0) ready) = some (.badScale, 0x20, .faulted, 0) := by decide
/-- V-G8, V-G9, V-G12. -/
theorem test_textWidth :
    (blockOf (exec (.textWidth 2 [0x43, 0x4F, 0x32]) ready)).map (fun b => (b.res0, b.res1))
        = some (some 96, none)
      ∧ (blockOf (exec (.textWidth 1 []) ready)).map (·.res0) = some (some 0)
      ∧ faultOf (exec (.textWidth 0 [0x41]) ready) = some (.badScale, 0x23, .faulted, 0) := by decide
/-- V-G5, V-G6, V-G6a, V-G6b, V-G6c. -/
theorem test_drawChar_fits :
    glyphWindow testConfig 464 304 1 = some ⟨464, 304, 479, 319⟩
      ∧ exec (.drawChar 0x41 465 304 0xFFFF 0 1) ready = .next ready
      ∧ exec (.drawChar 0x41 (-1) 0 0xFFFF 0 1) ready = .next ready
      ∧ glyphWindow testConfig 0 0 20 = some ⟨0, 0, 319, 319⟩
      ∧ glyphWindow testConfig 0 0 21 = none := ⟨by decide, rfl, rfl, by decide, by decide⟩
/-- V-G13, V-G14, V-G15: the pixels of a glyph, through the meaning's own expansion. -/
theorem test_glyph_pixels :
    (glyphPixels testConfig.glyphRom 0x41 0xFFFF 0x0000 1).take 34
        = List.replicate 17 0xFFFF ++ List.replicate 15 0 ++ [0xFFFF, 0]
      ∧ glyphRow 0x8000 0xFFFF 0x0000 2 = [0xFFFF, 0xFFFF] ++ List.replicate 30 0x0000
      ∧ (glyphPixels testConfig.glyphRom 0x42 0xFFFF 0x1111 1).take 4
        = [0x1111, 0x1111, 0x1111, 0x1111] := ⟨rfl, rfl, rfl⟩
/-- V-G7, V-G7a. -/
theorem test_drawChar_bad_scale :
    faultOf (exec (.drawChar 0x41 0 0 0xFFFF 0 0) ready) = some (.badScale, 0x21, .faulted, 0)
      ∧ faultOf (exec (.drawChar 0x41 0 0 0xFFFF 0 0) fresh) = some (.notInitialized, 0x21, .faulted, 0) := by
  decide
/-- V-G18: the first character is skipped, the second is drawn at x = 8. -/
theorem test_drawText_skips :
    (blockOf (exec (.drawText (-8) 0 0xFFFF 0 1 [0x42, 0x41]) ready)).map
        (fun b => (b.winX0, b.winY0, b.winX1, b.winY1)) = some (some 8, some 0, some 23, some 15)
      ∧ (eventsOf (exec (.drawText (-8) 0 0xFFFF 0 1 [0x42, 0x41]) ready)).map (·.take 7)
        = some [.csAssert, .cmd 0x2A, .dat 0, .dat 8, .dat 0, .dat 23, .csRelease] := ⟨rfl, rfl⟩
/-- V-G19, V-G20, V-G21. -/
theorem test_drawText_none :
    exec (.drawText 0 0 0xFFFF 0 1 []) ready = .next ready
      ∧ exec (.drawText 0 310 0xFFFF 0 1 [0x41]) ready = .next ready
      ∧ faultOf (exec (.drawText 0 0 0xFFFF 0 0 [0x41]) ready) = some (.badScale, 0x22, .faulted, 0) :=
  ⟨rfl, rfl, by decide⟩
/-- V-E8. -/
theorem test_reserved : faultOf (exec (.reservedHostTag 0x00000005 []) ready)
    = some (.illegalOp, 0x05, .faulted, 0) := by decide

/-! ## Panel commands (section 3.5) -/

/-- R103: what SWRESET leaves, GRAM and the mode registers with it. -/
theorem test_swreset : panelOf (exec .swreset (sinkWith { writing with gram := [(5, 7)], remain := 0 } []))
    = some { Panel.powerOn with
        sleep := some true, dispOn := some false, settle := some 0, cs := true } := by decide
theorem test_slpout_dispon :
    panelOf (exec .slpout (sinkWith { selected with sleep := some true } []))
        = some { selected with settle := some 0 }
      ∧ panelOf (exec .dispon (sinkWith { selected with dispOn := some false } [])) = some selected := by
  decide
/-- V-P5, V-P6: an empty and an oversized range; the boundary 479 is taken. -/
theorem test_caset :
    (panelOf (Host.Core.run core 5 (sinkWith selected [.cmd 0x2A, .dat 0, .dat 5, .dat 0, .dat 4]))).map
        (fun p => (p.fault, p.sc)) = some (.badRange, none)
      ∧ (panelOf (Host.Core.run core 5 (sinkWith selected
          [.cmd 0x2A, .dat 0, .dat 0, .dat 1, .dat 0xE0]))).map (·.fault) = some .badRange
      ∧ (panelOf (Host.Core.run core 5 (sinkWith selected
          [.cmd 0x2A, .dat 0, .dat 0, .dat 1, .dat 0xDF]))).map (fun p => (p.fault, p.ec, p.mode))
          = some (.none, some 479, .idle) := by decide
/-- V-P7. -/
theorem test_raset :
    (panelOf (Host.Core.run core 5 (sinkWith selected
          [.cmd 0x2B, .dat 0, .dat 0, .dat 1, .dat 0x40]))).map (·.fault) = some .badRange
      ∧ (panelOf (Host.Core.run core 5 (sinkWith selected
          [.cmd 0x2B, .dat 0, .dat 1, .dat 1, .dat 0x3F]))).map (fun p => (p.sp, p.ep))
          = some (some 1, some 319) := by decide
theorem test_ramwr : panelOf (exec .ramwr (sinkWith windowed [])) = some writing := by decide
/-- V-P13, V-P14: no window, and another orientation. -/
theorem test_ramwr_refused :
    (panelOf (exec .ramwr (sinkWith selected []))).map (fun p => (p.refused, p.mode, p.fault))
        = some (true, .discard, .none)
      ∧ (panelOf (exec .ramwr (sinkWith { windowed with madctl := some 0 } []))).map
          (fun p => (p.refused, p.mode, p.fault)) = some (true, .discard, .none) := by decide
/-- V-P16, by its last pixel. -/
theorem test_pixel_order :
    (panelOf (Host.Core.run core 8 (sinkWith writing [.dat 0x11, .dat 0x11, .dat 0x22, .dat 0x22,
        .dat 0x33, .dat 0x33, .dat 0x44, .dat 0x44]))).map (fun p =>
          (gramRead p.gram (gramKey 2 5), gramRead p.gram (gramKey 3 5), gramRead p.gram (gramKey 2 6),
            gramRead p.gram (gramKey 3 6), p.cy, p.remain))
      = some (some 0x1111, some 0x2222, some 0x3333, some 0x4444, some 7, 0) := by decide
theorem test_madctl_colmod :
    (panelOf (Host.Core.run core 2 (sinkWith selected [.cmd 0x36, .dat 0x00]))).map (fun p => (p.madctl, p.mode))
        = some (some 0x00, .idle)
      ∧ (panelOf (Host.Core.run core 2 (sinkWith selected [.cmd 0x3A, .dat 0x66]))).map (·.colmod)
        = some (some 0x66) := by decide
/-- V-P15. -/
theorem test_vendor : panelOf (Host.Core.run core 5 (sinkWith selected
    [.cmd 0xF0, .dat 0xC3, .dat 0x01, .dat 0x02, .cmd 0x29])) = some selected := by decide
/-- V-T7. -/
theorem test_unmodelled : (panelOf (exec (.unmodelled 0x00) (sinkWith selected []))).map
    (fun p => (p.refused, p.mode)) = some (true, .discard) := by decide
/-- V-P1, V-P3, V-P8, V-P9, V-P10, V-P11: the sink's faults. -/
theorem test_panel_faults :
    (panelOf (step (sinkWith panelUp [.cmd 0x29]))).map (·.fault) = some .noCs
      ∧ (panelOf (step (sinkWith { selected with settle := some 199 } [.cmd 0x11]))).map (·.fault)
          = some .settleViolation
      ∧ (panelOf (step (sinkWith selected [.dat 0]))).map (·.fault) = some .badParams
      ∧ (panelOf (step (sinkWith { writing with half := some 0xF8 } [.cmd 0x29]))).map (·.fault)
          = some .oddByte
      ∧ (panelOf (step (sinkWith writing [.cmd 0x29]))).map (·.fault) = some .underrun
      ∧ (panelOf (step (sinkWith { writing with remain := 0 } [.dat 0]))).map (·.fault) = some .overrun := by
  decide
/-- V-P2: delays add up. -/
theorem test_delays : (panelOf (Host.Core.run core 2 (sinkWith { panelUp with settle := some 0 }
    [.delay 100, .delay 100]))).map (·.settle) = some none := by decide

/-! ## The machine -/

def hostOf : Result → Option (Option HostRead × HostFault × Nat)
  | .next t => some (t.host.lastRead, t.host.fault, t.host.pos)
  | .fault _ => none
  | .refused _ => none

/-- P2 of section 4 and R22: RES1 holds no value, so the host's read faults `RESULT_UNWRITTEN`. -/
theorem test_read_unwritten :
    hostOf (step (readyWith [.readRes1])) = some (none, .resultUnwritten, 1) := by decide
/-- R15, R16, R116: `FAULTED` is 2, `BAD_SCALE` is 6, and CHAR_SIZE's tag is 0x20. -/
theorem test_read_status : hostOf (step { faulted with host := { HostSide.reset with inputs := [.readStatus] } })
    = some (some (.status 2 6 0x20), .none, 1) := by decide
/-- R123, R132: the block's reset two events into SEND_CMD 0x29. The sink takes both, the block is reset,
and CS, which the panel saw asserted, was never released to it. -/
theorem test_cut_by_reset :
    (eventsOf (step (readyWith [.operationCut [1, 0x29] 2])) = some [.csAssert, .cmd 0x29])
      ∧ blockOf (Host.Core.run core 4 (readyWith [.operationCut [1, 0x29] 2])) = some Block.reset
      ∧ eventsOf (Host.Core.run core 4 (readyWith [.operationCut [1, 0x29] 2])) = some []
      ∧ (panelOf (Host.Core.run core 4 (readyWith [.operationCut [1, 0x29] 2]))).map
          (fun p => (p.dispOn, p.cs)) = some (some true, true) := by decide
/-- R71, R60, R11: the hardware's own INIT_SEQ begins with SWRESET, 200 ms, SLPOUT, 200 ms. -/
theorem test_hardware_init_seq : Config.hardware.initSeq.take 4
    = [.command 0x01 [], .wait 200, .command 0x11 [], .wait 200] := rfl
/-- R97, R124: a stuck sink is never final. -/
theorem test_stuck : step { ready with panel := { panelUp with fault := .noCs } } = .fault .panelStuck := rfl
/-- R132: the reset leaves `FAULTED`. -/
theorem test_block_reset :
    blockOf (step { faulted with host := { HostSide.reset with inputs := [.resetBlock] } })
      = some Block.reset := by decide
/-- `withFetchWord` from the hardware's own reset state: SET_WINDOW in `UNINIT`. -/
theorem test_fetch_word : faultOf (step (State.reset.withFetchWord 32 0x10))
    = some (.notInitialized, 0x10, .faulted, 0) := by decide

/-! ## Witnesses: for every statement with hypotheses, a case that meets them all, each clause at a
boundary of its range -/

theorem panelInv_panelUp : PanelInv testConfig panelUp where
  columns := .inl ⟨rfl, rfl⟩
  rows := .inl ⟨rfl, rfl⟩
  counter := fun h => by cases h
  modes := fun h => by cases h
  half := fun h => absurd rfl h
  discard := fun h => by cases h
  params := fun _ _ _ h => by cases h
  settling := fun _ h => by cases h
  gramForm := List.Pairwise.nil
  gramGrid := by decide

theorem panelInv_windowed : PanelInv testConfig windowed where
  columns := .inr ⟨2, 3, by decide⟩
  rows := .inr ⟨5, 6, by decide⟩
  counter := fun h => by cases h
  modes := fun h => by cases h
  half := fun h => absurd rfl h
  discard := fun h => by cases h
  params := fun _ _ _ h => by cases h
  settling := fun _ h => by cases h
  gramForm := List.Pairwise.nil
  gramGrid := by decide

theorem panelInv_writing : PanelInv testConfig writing where
  columns := .inr ⟨2, 3, by decide⟩
  rows := .inr ⟨5, 6, by decide⟩
  counter := fun _ => ⟨2, 3, 5, 6, 2, 5, by decide⟩
  modes := fun _ => by decide
  half := fun h => absurd rfl h
  discard := fun h => by cases h
  params := fun _ _ _ h => by cases h
  settling := fun _ h => by cases h
  gramForm := List.Pairwise.nil
  gramGrid := by decide

/-- The second column of the last row: the counter's corner. -/
def writingLast : Panel :=
  { writing with cx := some 3, cy := some 6, remain := 1 }

theorem panelInv_writingLast : PanelInv testConfig writingLast where
  columns := .inr ⟨2, 3, by decide⟩
  rows := .inr ⟨5, 6, by decide⟩
  counter := fun _ => ⟨2, 3, 5, 6, 3, 6, by decide⟩
  modes := fun _ => by decide
  half := fun h => absurd rfl h
  discard := fun h => by cases h
  params := fun _ _ _ h => by cases h
  settling := fun _ h => by cases h
  gramForm := List.Pairwise.nil
  gramGrid := by decide

theorem blockInv_ready : BlockInv testConfig ready.block where
  faulted := by decide
  tag := by decide
  window := fun h => by cases h
  owed := fun h => absurd rfl h

/-- R with one operation to come: a window of one cell. -/
def readyToDraw : State :=
  readyWith [.operation [0x00000010, 479, 319, 479, 319]]

theorem inv_readyToDraw : Inv readyToDraw where
  fits := by decide
  block := blockInv_ready
  panel := panelInv_panelUp
  trace := ⟨by decide, ⟨.outside, by decide, by decide⟩, by decide, ⟨.outside, by decide, by decide⟩, by decide⟩

theorem witness_EncodedInstructionDecodesBack :
    testConfig.namedDistinct
      ∧ Instr.wf testConfig (.sendCmdParams 0xFF [0, 0xFF]) = true
      ∧ Instr.wf testConfig (.pushPixels []) = true
      ∧ Instr.wf testConfig (.drawText 0xFFFFFFFF 0x7FFFFFFF 0xFFFF 0 0xFF [1, 2, 3, 4, 5]) = true
      ∧ Instr.wf testConfig (.reservedHostTag 0x000000FF [1]) = true
      ∧ Instr.wf testConfig (.vendor 0xF0) = true ∧ Instr.wf testConfig (.unmodelled 0xFF) = true
      ∧ Instr.wf testConfig .ramwr = true := by decide

theorem witness_DecodedCodeIsTheEncoding :
    decode testConfig (.descriptor [0x00000011, 0x00000001, 0xF8000000]) = .ok (.pushPixels [0xF800])
      ∧ decode testConfig (.command 0x2C) = .ok .ramwr := ⟨rfl, rfl⟩

theorem witness_ReservedHeadersAreTheReservedRow :
    ∀ h ∈ ([0x00000100, 0xFFFFFF10, 0x00, 0x05, 0x0F, 0x18, 0x1F, 0x24, 0xFF] : List Word),
      h.toNat / 256 ≠ 0 ∨ h.toNat = 0 ∨ (0x05 ≤ h.toNat ∧ h.toNat ≤ 0x0F)
        ∨ (0x18 ≤ h.toNat ∧ h.toNat ≤ 0x1F) ∨ (0x24 ≤ h.toNat ∧ h.toNat ≤ 0xFF) := by simp

theorem witness_StepRunsTheDecodedOperation :
    HostTurn (readyWith [.operation [3]]) ∧ decodeDescriptor [0x00000003] = .ok .init
      ∧ nextInput (readyWith [.operation [3]]) = some (.operation [3])
      ∧ HostTurn (readyWith [.operationBytes [0, 0, 0, 3]])
      ∧ nextInput (readyWith [.operationBytes [0, 0, 0, 3]]) = some (.operationBytes
          (([3] : List Word).flatMap fun w => beBytes (w.toNat / 65536) ++ beBytes (w.toNat % 65536))) :=
  ⟨by decide, rfl, by decide, by decide, by decide⟩

theorem witness_StepRunsTheDecodedCommand :
    (sinkWith selected [.cmd 0x29]).panel.fault = .none
      ∧ (sinkWith selected [.cmd 0x29]).trace[(sinkWith selected [.cmd 0x29]).taken]? = some (.cmd 0x29)
      ∧ decode testConfig (.command 0x29) = .ok .dispon := ⟨rfl, rfl, rfl⟩

theorem witness_PlacedInstructionRunsNext :
    decode fresh.cfg (tableCode 32 0x13) = .ok (.fillScreen 0)
      ∧ decode fresh.cfg (tableCode 8 0x29) = .ok .dispon := ⟨rfl, rfl⟩

theorem witness_IllegalDescriptorFaults :
    (HostTurn (readyWith [.operation []]) ∧ nextInput (readyWith [.operation []]) = some (.operation [])
      ∧ decodeDescriptor [] = .error .noHeader)
    ∧ (HostTurn (readyWith [.operationBytes [0, 0, 0, 3, 0]])
      ∧ nextInput (readyWith [.operationBytes [0, 0, 0, 3, 0]]) = some (.operationBytes [0, 0, 0, 3, 0])
      ∧ decodeBytes [0, 0, 0, 3, 0] = .error .wrongLength ∧ [0, 0, 0, 3, (0 : Byte)].length % 4 ≠ 0)
    ∧ (∀ s ∈ [readyWith [.operation [3, 0]],
        { faulted with host := { HostSide.reset with inputs := [.operation [3, 0]] } }],
      HostTurn s ∧ nextInput s = some (.operation [3, 0]))
    ∧ decodeDescriptor [0x00000003, 0x00000000] = .error .wrongLength
    ∧ faulted.block.phase = .faulted ∧ ready.block.phase ≠ .faulted ∧ ready.block.fault = .none :=
  ⟨⟨by decide, by decide, rfl⟩, ⟨by decide, by decide, rfl, by decide⟩, by decide, rfl, by decide⟩

theorem witness_ChipSelectAndDelayEvents :
    panelUp.fault = .none ∧ testConfig.settleFits
      ∧ (sinkWith panelUp [.csAssert]).trace[0]? = some .csAssert
      ∧ (sinkWith panelUp [.csRelease]).trace[0]? = some .csRelease
      ∧ (sinkWith { panelUp with settle := some 1 } [.delay 199]).trace[0]? = some (.delay 199) := by decide

theorem witness_ResultReadsGiveTheValueOrFault :
    HostTurn (readyWith [.readRes0]) ∧ nextInput (readyWith [.readRes0]) = some .readRes0
      ∧ HostTurn (readyWith [.readRes1]) ∧ nextInput (readyWith [.readRes1]) = some .readRes1
      ∧ ready.block.res0 = none ∧ ready.block.res1 = none
      ∧ HostTurn (readyWith [.readStatus]) ∧ nextInput (readyWith [.readStatus]) = some .readStatus
      ∧ blockOf (exec (.charSize 255) ready) = some { ready.block with res0 := some 4080, res1 := some 4080 } := by
  decide

theorem witness_BlockResetSetsEveryField :
    HostTurn (readyWith [.resetBlock]) ∧ nextInput (readyWith [.resetBlock]) = some .resetBlock := by decide

theorem witness_FaultedBlockObeysOnlyBacklight :
    faulted.block.phase = .faulted ∧ Instr.isHostOp (.backlight true) = true
      ∧ Instr.isHostOp .init = true ∧ ∀ on, Instr.init ≠ .backlight on := by decide

theorem witness_DrawingBeforeInitFaults :
    fresh.block.phase = .uninit ∧ fresh.block.fault = .none
      ∧ Instr.isHostOp (.setWindow 5 0 4 0) = true ∧ Instr.isDrawing (.setWindow 5 0 4 0) = true
      ∧ Instr.isHostOp (.drawChar 0x41 0 0 0 0 0) = true ∧ Instr.isDrawing (.drawChar 0x41 0 0 0 0 0) = true
      ∧ Instr.isHostOp (.charSize 0) = true ∧ Instr.isDrawing (.charSize 0) = false := by decide

theorem witness_OpenStreamStopsOtherOperations :
    (streaming 1).block.phase ≠ .faulted ∧ (streaming 1).block.fault = .none ∧ (streaming 1).block.pend ≠ 0
      ∧ Instr.stoppedByStream (.sendCmd 0x29) = true ∧ Instr.stoppedByStream (.fillScreen 0) = true
      ∧ (streaming 1).block.phase = .ready := by decide

theorem witness_BadWindowsAndOverrunsFault :
    ready.block.phase = .ready ∧ ready.block.fault = .none ∧ ready.block.pend = 0
      ∧ ¬(0 ≤ (0 : Word).toInt ∧ (0 : Word).toInt ≤ (480 : Word).toInt
        ∧ (480 : Word).toInt ≤ (testConfig.panelW : Int) - 1)
      ∧ (streaming 2).block.phase = .ready ∧ (streaming 2).block.pend.toNat < [1, 2, 3].length := by decide

theorem witness_ZeroScaleFaults :
    fresh.block.phase ≠ .faulted ∧ fresh.block.fault = .none
      ∧ ready.block.phase = .ready ∧ ready.block.fault = .none ∧ ready.block.pend = 0 := by decide

theorem witness_FailingBusSendsAPrefix :
    Instr.isHostOp (.sendCmd 0x29) = true ∧ fresh.block.fault = .none
      ∧ ([.csAssert, .cmd 0x29, .csRelease] : List BusEvent) ≠ []
      ∧ exec (.sendCmd 0x29) { fresh with busDraws := [none] } = .next
          (sent { fresh with busDraws := [none] } [.csAssert, .cmd 0x29, .csRelease] Block.reset)
      ∧ (sent { fresh with busDraws := [none] } [.csAssert, .cmd 0x29, .csRelease] Block.reset).trace
          = fresh.trace ++ [.csAssert, .cmd 0x29, .csRelease] := ⟨rfl, rfl, by decide, rfl, rfl⟩

/-- The clause on the block's reset, cut before the first event and past the last. -/
theorem witness_FailingBusSendsAPrefix_cut :
    ∀ k ∈ [0, 2, 99], HostTurn (readyWith [.operationCut [1, 0x29] k])
      ∧ nextInput (readyWith [.operationCut [1, 0x29] k]) = some (.operationCut [1, 0x29] k)
      ∧ decodeDescriptor [1, 0x29] = .ok (.sendCmd 0x29)
      ∧ ∃ t, exec (.sendCmd 0x29) { readyWith [.operationCut [1, 0x29] k] with
            host := { HostSide.reset with inputs := [.operationCut [1, 0x29] k], pos := 1 }
            busDraws := [none, none, none] }
          = .next t ∧ t.trace = [] ++ [.csAssert, .cmd 0x29, .csRelease] := by
  intro k hk
  refine ⟨?_, rfl, rfl, _, rfl, rfl⟩
  exact .inr (Nat.le_refl 0)

theorem witness_SendCommandsResult : CanEmit fresh ∧ CanEmit ready := by decide

theorem witness_InitResult :
    CanEmit fresh ∧ fresh.cfg.initSeq ≠ [] ∧ CanEmit ready ∧ ready.cfg.initSeq ≠ [] := by decide

theorem witness_SetWindowResult :
    CanDraw ready ∧ ready.cfg.panelFits
      ∧ 0 ≤ (0 : Word).toInt ∧ (0 : Word).toInt ≤ (479 : Word).toInt
      ∧ (479 : Word).toInt ≤ (ready.cfg.panelW : Int) - 1
      ∧ (0 : Word).toInt ≤ (319 : Word).toInt ∧ (319 : Word).toInt ≤ (ready.cfg.panelH : Int) - 1 := by decide

theorem witness_PushPixelsResult :
    (streaming 2).block.phase = .ready ∧ [0xF800, (0x07E0 : Half)].length ≤ (streaming 2).block.pend.toNat
      ∧ [0xF800, (0x07E0 : Half)] ≠ [] ∧ BusHealthy (streaming 2)
      ∧ ready.block.phase = .ready ∧ ([] : List Half).length ≤ ready.block.pend.toNat := by decide

theorem witness_FillRectResult :
    ready.cfg.panelFits ∧ CanDraw ready
      ∧ fillWindow ready.cfg (479 : Word).toInt (319 : Word).toInt (1 : Word).toInt (1 : Word).toInt
          = some ⟨479, 319, 479, 319⟩
      ∧ ready.block.phase = .ready ∧ ready.block.pend = 0
      ∧ fillWindow ready.cfg (480 : Word).toInt (0 : Word).toInt (10 : Word).toInt (10 : Word).toInt = none := by
  decide

theorem witness_DegenerateFillsAreFillRects : CanDraw ready ∧ ready.cfg.panelFits := by decide

theorem witness_RoundRectDrawsFourBars :
    ready.cfg.panelFits ∧ CanDraw ready
      ∧ some ⟨0, 2, 0, 7⟩ ∈ barWindows ready.cfg (0 : Word).toInt (0 : Word).toInt (4 : Word).toInt
          (10 : Word).toInt (1 : Word).toInt
      ∧ ∀ win ∈ barWindows ready.cfg (10 : Word).toInt (10 : Word).toInt (100 : Word).toInt
          (50 : Word).toInt (0 : Word).toInt, win = none := by decide

theorem witness_RoundRectLeavesItsCorners :
    CanDraw ready ∧ ready.taken = ready.trace.length ∧ ready.panel.fault = .none
      ∧ ready.panel.settle = none ∧ closingCheck ready.panel = none
      ∧ ready.panel.madctl = some ready.cfg.madctlLandscape
      ∧ ready.panel.colmod = some ready.cfg.colmod16bpp ∧ ready.cfg.namedDistinct ∧ ready.cfg.panelFits
      ∧ inBox (478 : Word).toInt (318 : Word).toInt ready.cfg.borderInset ready.cfg.borderInset 479 319 := by
  decide

theorem witness_BurstsDoNotShow : 0 < testConfig.chunkPixels ∧ 360 ∈ bursts testConfig.chunkPixels 1000 := by
  decide

theorem witness_ColorPackingResult :
    fresh.block.phase ≠ .faulted ∧ (streaming 3).block.phase ≠ .faulted := by decide

theorem witness_SizeAndWidthResults :
    fresh.block.phase ≠ .faulted ∧ (1 : Byte) ≠ 0 ∧ (255 : Byte) ≠ 0
      ∧ ([] : List Byte).length ≤ 65535 ∧ (List.replicate 65535 (0x41 : Byte)).length ≤ 65535 := by
  refine ⟨by decide, by decide, by decide, by decide, ?_⟩
  rw [List.length_replicate]

theorem witness_GlyphLookupFallsBackToSpace :
    (0x41 : Byte) ≠ 0x20 ∧ testConfig.glyphRom.others = [] ++ (0x41, letterA) :: []
      ∧ (∀ e ∈ ([] : List (Byte × Glyph)), e.1 ≠ 0x41)
      ∧ (∀ e ∈ testConfig.glyphRom.others, e.1 ≠ 0x42) := by decide

theorem witness_DrawCharResult :
    (1 : Byte) ≠ 0 ∧ ready.cfg.panelFits ∧ CanDraw ready
      ∧ glyphWindow ready.cfg (464 : Word).toInt (304 : Word).toInt (1 : Byte).toNat
          = some ⟨464, 304, 479, 319⟩
      ∧ ready.block.phase = .ready ∧ ready.block.pend = 0
      ∧ glyphWindow ready.cfg (465 : Word).toInt (304 : Word).toInt (1 : Byte).toNat = none := by decide

theorem witness_DrawTextResult :
    (1 : Byte) ≠ 0 ∧ ready.cfg.panelFits ∧ CanDraw ready
      ∧ (∃ k < [0x42, 0x41].length,
          glyphWindow ready.cfg ((-8 : Word).toInt + k * 16 * (1 : Byte).toNat) (0 : Word).toInt
            (1 : Byte).toNat ≠ none)
      ∧ ready.block.phase = .ready ∧ ready.block.pend = 0
      ∧ ∀ k < [0x41].length, glyphWindow ready.cfg ((0 : Word).toInt + k * 16 * (1 : Byte).toNat)
          (310 : Word).toInt (1 : Byte).toNat = none := by decide

theorem witness_ReservedDescriptorFaults :
    ready.block.phase ≠ .faulted ∧ ready.block.fault = .none
      ∧ fresh.block.phase ≠ .faulted ∧ fresh.block.fault = .none := by decide

theorem witness_SameOperationSendsTheSameEvents :
    Instr.isHostOp (.setWindow 0 0 0 0) = true ∧ ready.cfg = (streaming 0).cfg
      ∧ CanDraw ready ∧ CanDraw (streaming 0)
      ∧ exec (.setWindow 0 0 0 0) ready
          = .next (sent ready (setupEvents testConfig 0 0 0 0) (withWindow ready.block ⟨0, 0, 0, 0⟩ 1))
      ∧ exec (.setWindow 0 0 0 0) (streaming 0) = .next
          (sent (streaming 0) (setupEvents testConfig 0 0 0 0)
            (withWindow (streaming 0).block ⟨0, 0, 0, 0⟩ 1)) :=
  ⟨rfl, rfl, by decide, by decide, rfl, rfl⟩

theorem witness_ParameterlessCommandResults : PanelAccepts (sinkWith selected []).panel := by decide

theorem witness_OpeningCommandResults :
    PanelAccepts (sinkWith selected []).panel
      ∧ PanelAccepts (sinkWith { writing with remain := 0 } []).panel := by decide

theorem witness_MemoryWriteResult :
    (PanelAccepts (sinkWith windowed []).panel ∧ PanelInv testConfig (sinkWith windowed []).panel
      ∧ testConfig.panelFits ∧ windowed.sc = some 2 ∧ windowed.ec = some 3 ∧ windowed.sp = some 5
      ∧ windowed.ep = some 6 ∧ windowed.madctl = some testConfig.madctlLandscape
      ∧ windowed.colmod = some testConfig.colmod16bpp)
    ∧ PanelAccepts (sinkWith selected []).panel ∧ selected.sc = none :=
  ⟨⟨by decide, panelInv_windowed, by decide⟩, by decide⟩

theorem witness_RangeCommandsApply :
    PanelAccepts selected ∧ testConfig.namedDistinct
      ∧ pending (sinkWith selected [.cmd 0x2A, .dat 0, .dat 0, .dat 1, .dat 0xDF])
          = .cmd testConfig.opCaset :: (beBytes (0 : Half).toNat ++ beBytes (479 : Half).toNat).map .dat ++ []
      ∧ (0 : Half).toNat ≤ (479 : Half).toNat ∧ (479 : Half).toNat < testConfig.panelW
      ∧ pending (sinkWith selected [.cmd 0x2A, .dat 0, .dat 0, .dat 1, .dat 0xE0])
          = .cmd testConfig.opCaset :: (beBytes (0 : Half).toNat ++ beBytes (480 : Half).toNat).map .dat ++ []
      ∧ testConfig.panelW ≤ (480 : Half).toNat
      ∧ pending (sinkWith selected [.cmd 0x2B, .dat 0, .dat 0, .dat 1, .dat 0x3F])
          = .cmd testConfig.opRaset :: (beBytes (0 : Half).toNat ++ beBytes (319 : Half).toNat).map .dat ++ []
      ∧ (0 : Half).toNat ≤ (319 : Half).toNat ∧ (319 : Half).toNat < testConfig.panelH
      ∧ pending (sinkWith selected [.cmd 0x2B, .dat 0, .dat 5, .dat 0, .dat 4])
          = .cmd testConfig.opRaset :: (beBytes (5 : Half).toNat ++ beBytes (4 : Half).toNat).map .dat ++ []
      ∧ (4 : Half).toNat < (5 : Half).toNat := by decide

theorem witness_ModeAndVendorCommandsApply :
    PanelAccepts selected ∧ testConfig.namedDistinct ∧ testConfig.vendorApart
      ∧ pending (sinkWith selected [.cmd 0x36, .dat 0]) = .cmd testConfig.opMadctl :: .dat 0 :: []
      ∧ pending (sinkWith selected [.cmd 0x3A, .dat 0xFF]) = .cmd testConfig.opColmod :: .dat 0xFF :: []
      ∧ 0xF0 ∈ testConfig.vendorOpaque
      ∧ pending (sinkWith selected [.cmd 0xF0]) = .cmd 0xF0 :: ([] : List Byte).map .dat ++ [] := by decide

theorem witness_CommandByteChecks :
    Instr.isHostOp .dispon = false ∧ Instr.isHostOp (.unmodelled 0) = false
      ∧ panelUp.fault = .none ∧ panelUp.cs = false
      ∧ ({ selected with settle := some 0 } : Panel).cs = true
      ∧ ({ selected with settle := some 0 } : Panel).settle ≠ none
      ∧ selected.settle = none ∧ paramCount .caset = some 4
      ∧ ({ selected with mode := .params .caset [0, 0, 0] } : Panel).mode = .params .caset [0, 0, 0]
      ∧ writing.cs = true ∧ writing.settle = none ∧ writing.mode = .memWrite
      ∧ ({ writing with half := some 0xF8 } : Panel).half ≠ none
      ∧ writing.half = none ∧ writing.remain ≠ 0 := by decide

theorem witness_DataByteChecks :
    (sinkWith panelUp [.dat 0]).panel.fault = .none
      ∧ (sinkWith panelUp [.dat 0]).trace[(sinkWith panelUp [.dat 0]).taken]? = some (.dat 0)
      ∧ panelUp.cs = false ∧ selected.cs = true ∧ selected.settle = none ∧ selected.mode = .idle
      ∧ ({ selected with settle := some 199 } : Panel).settle ≠ none
      ∧ ({ selected with mode := .discard } : Panel).mode = .discard
      ∧ ({ writing with remain := 0 } : Panel).mode = .memWrite
      ∧ ({ writing with remain := 0 } : Panel).half = none
      ∧ ({ writing with remain := 0 } : Panel).remain = 0 := by decide

/-- The first cell of the window, where the column moves on, and the last, where the row does. -/
theorem witness_PixelWordWritesItsCell :
    (PanelTakesData writing ∧ PanelInv testConfig writing ∧ testConfig.panelFits
      ∧ writing.mode = .memWrite ∧ writing.half = none ∧ writing.remain ≠ 0
      ∧ writing.cx = some 2 ∧ writing.cy = some 5 ∧ writing.sc = some 2 ∧ writing.ec = some 3
      ∧ pending (sinkWith writing [.dat 0xF8, .dat 0x00]) = (beBytes (0xF800 : Half).toNat).map .dat ++ [])
    ∧ (PanelTakesData writingLast ∧ PanelInv testConfig writingLast
      ∧ writingLast.mode = .memWrite ∧ writingLast.half = none ∧ writingLast.remain ≠ 0
      ∧ writingLast.cx = some 3 ∧ writingLast.cy = some 6 ∧ writingLast.sc = some 2
      ∧ writingLast.ec = some 3) :=
  ⟨⟨by decide, panelInv_writing, by decide⟩, by decide, panelInv_writingLast, by decide⟩

/-- A step from R, for the statements about every step. -/
theorem witness_step :
    step readyToDraw = .next (sent { readyToDraw with host := { readyToDraw.host with pos := 1 } }
      (setupEvents testConfig 479 319 479 319) (withWindow ready.block ⟨479, 319, 479, 319⟩ 1)) := rfl

theorem witness_StepKeepsTheParameters : ∃ t, step readyToDraw = .next t := ⟨_, witness_step⟩

theorem witness_BlockAndPanelAreApart :
    Instr.isHostOp (.sendCmd 0x29) = true
      ∧ exec (.sendCmd 0x29) fresh = .next (sent fresh [.csAssert, .cmd 0x29, .csRelease] Block.reset)
      ∧ (sinkWith selected [.csRelease]).panel.fault = .none
      ∧ (sinkWith selected [.csRelease]).trace[(sinkWith selected [.csRelease]).taken]? = some .csRelease
      ∧ ∃ t, step (sinkWith selected [.csRelease]) = .next t := ⟨rfl, rfl, rfl, rfl, _, rfl⟩

theorem witness_OnlyInitMakesReady :
    ∃ t, step { fresh with host := { HostSide.reset with inputs := [.operation [3]] } } = .next t
      ∧ t.block.phase = .ready ∧ fresh.block.phase ≠ .ready := ⟨_, rfl, rfl, by decide⟩

theorem witness_FaultLastsUntilReset :
    (∃ t, step { faulted with host := { HostSide.reset with inputs := [.operation [3]] } } = .next t)
      ∧ faulted.block.phase = .faulted := ⟨⟨_, rfl⟩, rfl⟩

theorem witness_PanelMarksAreSticky :
    (∃ t, step { readyToDraw with panel := { panelUp with fault := .noCs, refused := true } } = .next t)
      ∧ ({ panelUp with fault := .noCs, refused := true } : Panel).fault ≠ .none
      ∧ HostTurn (readyWith [.powerOnPanel])
      ∧ nextInput (readyWith [.powerOnPanel]) = some .powerOnPanel := ⟨⟨_, rfl⟩, by decide⟩

theorem witness_TraceOnlyGrows : ∃ t, step readyToDraw = .next t := ⟨_, witness_step⟩

theorem witness_StepKeepsBlockInvariant :
    readyToDraw.cfg.panelFits ∧ BlockInv readyToDraw.cfg readyToDraw.block ∧ ∃ t, step readyToDraw = .next t :=
  ⟨by decide, blockInv_ready, _, witness_step⟩

theorem witness_StepKeepsPanelInvariant :
    testConfig.panelFits ∧ PanelInv testConfig (sinkWith writing [.dat 0xF8]).panel
      ∧ ∃ t, step (sinkWith writing [.dat 0xF8]) = .next t := ⟨by decide, panelInv_writing, _, rfl⟩

theorem witness_StepKeepsInvariant : Inv readyToDraw ∧ ∃ t, step readyToDraw = .next t :=
  ⟨inv_readyToDraw, _, witness_step⟩

/-- A stuck sink and no input left, in a state with the invariant: the stop of R97. -/
theorem witness_InvariantStatesStopOnlyAsSpecified :
    let s : State := { ready with panel := { panelUp with fault := .badParams } }
    Inv s ∧ s.panel.fault ≠ .none ∧ s.host.inputs[s.host.pos]? = none ∧ step s = .fault .panelStuck :=
  have p := panelInv_panelUp
  ⟨⟨by decide, blockInv_ready,
    ⟨p.columns, p.rows, p.counter, p.modes, p.half, p.discard, p.params, p.settling, p.gramForm, p.gramGrid⟩,
    ⟨by decide, ⟨.outside, by decide, by decide⟩, by decide, ⟨.outside, by decide, by decide⟩, by decide⟩⟩,
    by decide, rfl, rfl⟩

theorem witness_SinkLagDoesNotMatter :
    let s := sinkWith selected [.cmd 0x29]
    Instr.isHostOp (.backlight true) = true ∧ s.trace[s.taken]? = some (.cmd 0x29) ∧ s.panel.fault = .none
      ∧ (∃ u, consume (.cmd 0x29) (takeEvent s) = .next u) ∧ ∃ v, exec (.backlight true) s = .next v :=
  ⟨rfl, rfl, rfl, ⟨_, rfl⟩, _, rfl⟩

theorem witness_StreamFillsItsWindowInRasterOrder :
    let s := sinkWith panelUp (setupEvents testConfig 478 318 479 319 ++ pixelEvents [1, 2, 3, 4])
    s.panel.fault = .none ∧ s.panel.settle = none ∧ closingCheck s.panel = none
      ∧ s.panel.madctl = some s.cfg.madctlLandscape ∧ s.panel.colmod = some s.cfg.colmod16bpp
      ∧ s.cfg.namedDistinct ∧ s.cfg.panelFits ∧ 478 ≤ 479 ∧ 479 < s.cfg.panelW ∧ 318 ≤ 319
      ∧ 319 < s.cfg.panelH ∧ ([1, 2, 3, 4] : List Half).length = (⟨478, 318, 479, 319⟩ : Window).area
      ∧ pending s = setupEvents s.cfg 478 318 479 319 ++ pixelEvents [1, 2, 3, 4] := by decide

theorem witness_FillRectPaintsExactlyItsRectangle :
    CanDraw ready ∧ ready.taken = ready.trace.length ∧ ready.panel.fault = .none
      ∧ ready.panel.settle = none ∧ closingCheck ready.panel = none
      ∧ ready.panel.madctl = some ready.cfg.madctlLandscape
      ∧ ready.panel.colmod = some ready.cfg.colmod16bpp ∧ ready.cfg.namedDistinct ∧ ready.cfg.panelFits
      ∧ 0 ≤ (0 : Word).toInt ∧ 1 ≤ (480 : Word).toInt ∧ 1 ≤ (320 : Word).toInt
      ∧ (0 : Word).toInt + (480 : Word).toInt ≤ ready.cfg.panelW
      ∧ (0 : Word).toInt + (320 : Word).toInt ≤ ready.cfg.panelH := by decide

theorem witness_DrawCharPaintsExactlyItsGlyph :
    CanDraw ready ∧ ready.taken = ready.trace.length ∧ ready.panel.fault = .none
      ∧ ready.panel.settle = none ∧ closingCheck ready.panel = none
      ∧ ready.panel.madctl = some ready.cfg.madctlLandscape
      ∧ ready.panel.colmod = some ready.cfg.colmod16bpp ∧ ready.cfg.namedDistinct ∧ ready.cfg.panelFits
      ∧ (20 : Byte) ≠ 0 ∧ 0 ≤ (160 : Word).toInt ∧ 0 ≤ (0 : Word).toInt
      ∧ (160 : Word).toInt + 16 * (20 : Byte).toNat ≤ ready.cfg.panelW
      ∧ (0 : Word).toInt + 16 * (20 : Byte).toNat ≤ ready.cfg.panelH := by decide

theorem witness_InitBringsThePanelUp :
    CanEmit fresh ∧ fresh.taken = fresh.trace.length ∧ fresh.panel.fault = .none
      ∧ fresh.panel.settle = none ∧ closingCheck fresh.panel = none ∧ fresh.cfg.namedDistinct
      ∧ fresh.cfg.vendorApart ∧ fresh.cfg.settleFits ∧ fresh.cfg.initSeqLegal := by
  refine ⟨by decide, rfl, rfl, rfl, rfl, by decide, by decide, by decide, 200, 200,
    [.command 0xF0 [0xC3], .command 0xF0 [0x96], .command 0x36 [0x28], .command 0x3A [0x55],
      .command 0xE0 [0x00, 0x01, 0x02, 0x03], .command 0xC0 [0x10, 0x20], .command 0xF0 [0x3C],
      .command 0xF0 [0x69]], rfl, by decide, by decide, by decide, by decide, by decide, ?_⟩
  intro op params h
  simp only [List.mem_cons, List.not_mem_nil, or_false, InitStep.command.injEq] at h
  rcases h with ⟨_, rfl⟩ | ⟨_, rfl⟩ | ⟨_, rfl⟩ | ⟨_, rfl⟩ | ⟨_, rfl⟩ | ⟨_, rfl⟩ | ⟨_, rfl⟩ | ⟨_, rfl⟩ <;> decide

end Sys2Proof.Tests
end

/-! PROOF of O13: every drawing operation passes the gate of `UNINIT`, and no other operation does (R25). -/

namespace Sys2Proof.Machine

/-! ## Drawing operations -/

/-- Every drawing operation is a body behind the gate of R25. -/
theorem exec_drawing {i : Instr} (s : State) (hd : i.isDrawing = true) :
    ∃ body, exec i s = .next (drawingPrologue i.hostTag body s) := by
  cases i with
  | setWindow _ _ _ _ | pushPixels _ | fillRect _ _ _ _ _ | fillScreen _ | hline _ _ _ _
  | vline _ _ _ _ | roundRect _ _ _ _ _ _ | drawChar _ _ _ _ _ _ | drawText _ _ _ _ _ _ =>
    exact ⟨_, rfl⟩
  | sendCmd _ | sendCmdParams _ _ | init | backlight _ | color565 _ _ _ | charSize _
  | textWidth _ _ | reservedHostTag _ _ | swreset | slpout | dispon | caset | raset | ramwr
  | madctl | colmod | vendor _ | unmodelled _ => cases hd

/-- In `UNINIT` the gate answers before the body sees any operand. -/
theorem exec_drawing_uninit {i : Instr} {s : State} (hd : i.isDrawing = true)
    (hp : s.block.phase = .uninit) (hf : s.block.fault = .none) :
    exec i s = .next (stopped s .notInitialized i.hostTag) := by
  obtain ⟨body, hexec⟩ := exec_drawing s hd
  rw [hexec, drawingPrologue_uninit hp, raiseFault_of_none hf]

/-! ## Faults an operation does not record

`code` is a fault `s` does not hold. What raises only other faults does not bring it in. -/

section
variable {code : BlockFault} {tag : Byte} {s : State} {body : State → State}

theorem raiseFault_fault_ne {raised : BlockFault} (hs : s.block.fault ≠ code) (hr : raised ≠ code) :
    (raiseFault raised tag s).block.fault ≠ code := by
  rw [raiseFault_block_fault]
  split
  · exact hr
  · exact hs

theorem raiseIllegal_fault_ne (hs : s.block.fault ≠ code) (hr : .illegalOp ≠ code) :
    (raiseIllegal tag s).block.fault ≠ code := by
  by_cases hp : s.block.phase = .faulted
  · rwa [raiseIllegal_faulted hp]
  · rw [raiseIllegal_run hp]; exact raiseFault_fault_ne hs hr

theorem prologue_fault_ne (hs : s.block.fault ≠ code) (hb : (body s).block.fault ≠ code) :
    (prologue body s).block.fault ≠ code := by
  by_cases hp : s.block.phase = .faulted
  · rwa [prologue_faulted hp]
  · rwa [prologue_run hp]

theorem underrunCheck_fault_ne (hs : s.block.fault ≠ code) (hr : .windowUnderrun ≠ code)
    (hb : (body s).block.fault ≠ code) : (underrunCheck tag body s).block.fault ≠ code := by
  by_cases hp : s.block.pend = 0
  · rwa [underrunCheck_closed hp]
  · rw [underrunCheck_open hp]; exact raiseFault_fault_ne hs hr

theorem scaleCheck_fault_ne {scale : Byte} (hs : s.block.fault ≠ code) (hr : .badScale ≠ code)
    (hb : (body s).block.fault ≠ code) : (scaleCheck tag scale body s).block.fault ≠ code := by
  by_cases h0 : scale = 0
  · rw [h0, scaleCheck_zero]; exact raiseFault_fault_ne hs hr
  · rwa [scaleCheck_ok h0]

theorem commit_fault_ne {w : Work} (hs : s.block.fault ≠ code) (hr : .busFault ≠ code)
    (hw : w.block.fault ≠ code) : (commit tag w s).block.fault ≠ code := by
  rcases commit_cases tag w s with ⟨_, hc⟩ | ⟨_, _, hc⟩ | ⟨_, k, _, hc⟩ <;> rw [hc]
  · exact hw
  · exact hw
  · exact raiseFault_fault_ne hs hr

end

theorem rawCommandEffect_fault (c : Config) (op : Byte) (w : Work) :
    (rawCommandEffect c op w).block.fault = w.block.fault := by
  unfold rawCommandEffect; split <;> rfl

/-- The host operations that are not drawing operations run in every phase and never raise
`NOT_INITIALIZED` (R25). -/
theorem exec_nonDrawing_fault_ne {i : Instr} {s : State} (hi : i.isHostOp = true)
    (hd : i.isDrawing = false) (hs : s.block.fault ≠ .notInitialized) :
    ∃ t, exec i s = .next t ∧ t.block.fault ≠ .notInitialized := by
  cases i with
  | sendCmd _ | sendCmdParams _ _ =>
    refine ⟨_, rfl, prologue_fault_ne hs (underrunCheck_fault_ne hs (by decide)
      (commit_fault_ne hs (by decide) ?_))⟩
    rwa [rawCommandEffect_fault]
  | init =>
    exact ⟨_, rfl, prologue_fault_ne hs (underrunCheck_fault_ne hs (by decide)
      (commit_fault_ne hs (by decide) hs))⟩
  | backlight _ => exact ⟨_, rfl, hs⟩
  | color565 _ _ _ => exact ⟨_, rfl, prologue_fault_ne hs hs⟩
  | charSize _ | textWidth _ _ =>
    exact ⟨_, rfl, prologue_fault_ne hs (scaleCheck_fault_ne hs (by decide) hs)⟩
  | reservedHostTag _ _ => exact ⟨_, rfl, raiseIllegal_fault_ne hs (by decide)⟩
  | setWindow _ _ _ _ | pushPixels _ | fillRect _ _ _ _ _ | fillScreen _ | hline _ _ _ _
  | vline _ _ _ _ | roundRect _ _ _ _ _ _ | drawChar _ _ _ _ _ _ | drawText _ _ _ _ _ _ => cases hd
  | swreset | slpout | dispon | caset | raset | ramwr | madctl | colmod | vendor _
  | unmodelled _ => cases hi

/-- Settles O13, by the gate every drawing operation passes first, and the faults the other operations
can raise. -/
theorem drawingBeforeInitFaults : Obligations.DrawingBeforeInitFaults := by
  intro s i hp hf hi
  exact ⟨fun hd => exec_drawing_uninit hd hp hf,
    fun hd => exec_nonDrawing_fault_ne hi hd (by simp [hf])⟩

end Sys2Proof.Machine

/-! PROOF of O31: the glyph of a code is its first entry in the ROM, and the space glyph where it has
none (R38). -/

namespace Sys2Proof.Machine

/-! ## The glyph of a code -/

theorem glyphOf_space (rom : GlyphRom) : glyphOf rom 0x20 = rom.space := by
  simp [glyphOf]

/-- A hit: for any code but the space's, the first entry of the code is its glyph. -/
theorem glyphOf_of_first_entry {rom : GlyphRom} {code : Byte} {g : Glyph}
    {before rest : List (Byte × Glyph)} (hcode : code ≠ 0x20)
    (hothers : rom.others = before ++ (code, g) :: rest) (hbefore : ∀ e ∈ before, e.1 ≠ code) :
    glyphOf rom code = g := by
  have hlookup : rom.others.lookup code = some g :=
    List.lookup_eq_some_iff.mpr
      ⟨before, rest, hothers, fun e he => bne_iff_ne.mpr (hbefore e he).symm⟩
  rw [glyphOf, if_neg hcode, hlookup, Option.getD_some]

/-- A miss: a code without an entry gets the space glyph. -/
theorem glyphOf_of_no_entry {rom : GlyphRom} {code : Byte} (hmiss : ∀ e ∈ rom.others, e.1 ≠ code) :
    glyphOf rom code = rom.space := by
  have hlookup : rom.others.lookup code = none :=
    List.lookup_eq_none_iff.mpr fun e he => bne_iff_ne.mpr (hmiss e he).symm
  simp [glyphOf, hlookup]

/-- Settles O31, by the glyph of the code in each case: its first entry, the space code, no entry. -/
theorem glyphLookupFallsBackToSpace : Obligations.GlyphLookupFallsBackToSpace := by
  intro rom code r
  constructor
  · intro g rest before hcode hothers hbefore
    rw [glyphRead, glyphOf_of_first_entry hcode hothers hbefore]
  · rintro (rfl | hmiss)
    · rw [glyphRead, glyphOf_space]
    · rw [glyphRead, glyphOf_of_no_entry hmiss]

end Sys2Proof.Machine

/-! PROOF of O18: SEND_CMD and SEND_CMD_PARAMS are one raw command under two tags, and the bus being
healthy, neither tag is recorded (R68 to R70). -/

namespace Sys2Proof.Machine

/-! ## Raw commands -/

/-- The opcodes that redefine or reset the panel's window, so that the block's record of it no longer
stands (R70). -/
def clearsWinValid (c : Config) (op : Byte) : Bool :=
  op == c.opSwreset || op == c.opCaset || op == c.opRaset

/-- `RawCommandEffect` as one record update: `WIN_VALID` is masked, nothing else is written. -/
theorem rawCommandEffect_eq (c : Config) (op : Byte) (w : Work) :
    rawCommandEffect c op w
      = { w with block := { w.block with winValid := w.block.winValid && !clearsWinValid c op } } := by
  have hclears : (op = c.opSwreset ∨ op = c.opCaset ∨ op = c.opRaset) ↔ clearsWinValid c op = true := by
    simp [clearsWinValid, or_assoc]
  by_cases h : clearsWinValid c op = true
  · rw [rawCommandEffect, if_pos (hclears.mpr h)]; simp [h]
  · rw [rawCommandEffect, if_neg (mt hclears.mp h)]; simp [h]

theorem cmdFrame_ne_nil (op : Byte) (params : List Byte) : cmdFrame op params ≠ [] := by
  simp [cmdFrame]

/-- A raw command on a healthy bus sends its one frame, whatever tag it would fault under. -/
theorem perform_rawCommand {s : State} (tag op : Byte) (params : List Byte) (hb : BusHealthy s) :
    perform tag (fun w => rawCommandEffect s.cfg op (w.emit (cmdFrame op params))) s
      = sent s (cmdFrame op params)
          { s.block with winValid := s.block.winValid && !clearsWinValid s.cfg op } := by
  rw [perform, rawCommandEffect_eq]
  exact commit_healthy (cmdFrame_ne_nil op params) hb

/-- A block that can emit passes the prologue and the test for an open stream, and the frame goes out. -/
theorem gated_rawCommand_of_canEmit {s : State} (tag op : Byte) (params : List Byte) (h : CanEmit s) :
    prologue (underrunCheck tag
        (perform tag fun w => rawCommandEffect s.cfg op (w.emit (cmdFrame op params)))) s
      = sent s (cmdFrame op params)
          { s.block with winValid := s.block.winValid && !clearsWinValid s.cfg op } := by
  obtain ⟨hphase, hpend, hbus⟩ := h
  rw [prologue_run hphase, underrunCheck_closed hpend, perform_rawCommand tag op params hbus]

theorem exec_sendCmdParams_of_canEmit {s : State} (op : Byte) (params : List Byte) (h : CanEmit s) :
    exec (.sendCmdParams op params) s = .next (sent s (cmdFrame op params)
      { s.block with winValid := s.block.winValid && !clearsWinValid s.cfg op }) :=
  congrArg Host.Outcome.next (gated_rawCommand_of_canEmit HostTag.sendCmdParams.code op params h)

theorem exec_sendCmd_of_canEmit {s : State} (op : Byte) (h : CanEmit s) :
    exec (.sendCmd op) s = .next (sent s (cmdFrame op [])
      { s.block with winValid := s.block.winValid && !clearsWinValid s.cfg op }) :=
  congrArg Host.Outcome.next (gated_rawCommand_of_canEmit HostTag.sendCmd.code op [] h)

/-- Settles O18, by the raw command both operations perform: SEND_CMD's is the one without parameters. -/
theorem sendCommandsResult : Obligations.SendCommandsResult := by
  intro s op params h
  exact ⟨exec_sendCmdParams_of_canEmit op params h,
    (exec_sendCmd_of_canEmit op h).trans (exec_sendCmdParams_of_canEmit op [] h).symm⟩

end Sys2Proof.Machine

/-! PROOF of O14: every operation R77 stops tests for an open stream right behind its own gate. -/

namespace Sys2Proof.Machine

/-! ## Operations an open stream stops -/

/-- What R77 stops tests for an open stream behind its gate, which for a drawing operation is the gate of
R25 and otherwise the prologue alone. -/
theorem exec_stoppedByStream {i : Instr} (s : State) (hi : i.stoppedByStream = true) :
    (i.isDrawing = true
      ∧ ∃ body, exec i s = .next (drawingPrologue i.hostTag (underrunCheck i.hostTag body) s))
    ∨ (i.isDrawing = false
      ∧ ∃ body, exec i s = .next (prologue (underrunCheck i.hostTag body) s)) := by
  cases i with
  | sendCmd _ | sendCmdParams _ _ | init => exact .inr ⟨rfl, _, rfl⟩
  | setWindow _ _ _ _ | fillRect _ _ _ _ _ | fillScreen _ | hline _ _ _ _ | vline _ _ _ _
  | roundRect _ _ _ _ _ _ | drawChar _ _ _ _ _ _ | drawText _ _ _ _ _ _ => exact .inl ⟨rfl, _, rfl⟩
  | backlight _ | pushPixels _ | color565 _ _ _ | charSize _ | textWidth _ _ | reservedHostTag _ _
  | swreset | slpout | dispon | caset | raset | ramwr | madctl | colmod | vendor _
  | unmodelled _ => cases hi

/-- Settles O14, by the test for an open stream behind either gate. -/
theorem openStreamStopsOtherOperations : Obligations.OpenStreamStopsOtherOperations := by
  intro s i hphase hfault hpend hi hready
  rcases exec_stoppedByStream s hi with ⟨hd, body, hexec⟩ | ⟨_, body, hexec⟩
  · rw [hexec, drawingPrologue_ready (hready hd), underrunCheck_open hpend, raiseFault_of_none hfault]
  · rw [hexec, prologue_run hphase, underrunCheck_open hpend, raiseFault_of_none hfault]

end Sys2Proof.Machine

/-! PROOF of O27: the clip is an intersection of half-open intervals, one a side, so it is empty exactly
when its first corner is not a cell of it (R78). -/

namespace Sys2Proof.Machine

/-! ## The clip -/

/-- A cell of the clip is a cell of the rectangle and of the panel. -/
theorem clip_holds {c : Config} {x y w h px py : Int} :
    ((clip c x y w h).cx0 ≤ px ∧ px < (clip c x y w h).cx1
      ∧ (clip c x y w h).cy0 ≤ py ∧ py < (clip c x y w h).cy1)
    ↔ (x ≤ px ∧ px < x + w ∧ y ≤ py ∧ py < y + h
      ∧ 0 ≤ px ∧ px < c.panelW ∧ 0 ≤ py ∧ py < c.panelH) := by
  simp only [clip, max_le_iff, lt_min_iff]
  tauto

/-- A rectangle is empty exactly when it holds no cell: otherwise it holds its first corner. -/
theorem ClipRect.empty_iff (r : ClipRect) :
    r.empty = true ↔ ¬∃ px py : Int, r.cx0 ≤ px ∧ px < r.cx1 ∧ r.cy0 ≤ py ∧ py < r.cy1 := by
  simp only [ClipRect.empty, Bool.or_eq_true, decide_eq_true_eq]
  constructor
  · rintro hempty ⟨px, py, hcell⟩
    omega
  · intro hnone
    by_contra hempty
    exact hnone ⟨r.cx0, r.cy0, by omega⟩

/-- A size that is not positive leaves no cell. -/
theorem clip_empty_of_nonpos {c : Config} {x y w h : Int} (hsize : w ≤ 0 ∨ h ≤ 0) :
    (clip c x y w h).empty = true := by
  rw [ClipRect.empty_iff]
  rintro ⟨px, py, hcell⟩
  have := clip_holds.mp hcell
  omega

/-- Settles O27, by the cells of the clip. -/
theorem clipIsTheIntersection : Obligations.ClipIsTheIntersection := by
  intro c x y w h
  refine ⟨⟨rfl, rfl, rfl, rfl⟩, clip_empty_of_nonpos, fun px py => clip_holds, ?_⟩
  simp only [ClipRect.empty_iff, clip_holds]

end Sys2Proof.Machine

/-! PROOF of O21 and O22: the two halves of a streamed window, each one set-up or one data frame on a
healthy bus (R74, R75). -/

namespace Sys2Proof.Machine

/-! ## A drawing operation past its gates -/

/-- A block that is `READY` with no stream open passes both gates of a drawing operation (R25, R77). -/
theorem drawing_gates_pass {tag : Byte} {body : State → State} {s : State}
    (hready : s.block.phase = .ready) (hpend : s.block.pend = 0) :
    drawingPrologue tag (underrunCheck tag body) s = body s := by
  rw [drawingPrologue_ready hready, underrunCheck_closed hpend]

/-! ## A window set-up -/

/-- A coordinate that is not negative is its number. -/
theorem toInt_eq_toNat_of_nonneg {v : Word} (h : 0 ≤ v.toInt) : v.toInt = v.toNat := by
  rw [BitVec.toInt_eq_toNat_cond] at h ⊢
  split at h <;> omega

theorem setupEvents_ne_nil (c : Config) (x0 y0 x1 y1 : Nat) : setupEvents c x0 y0 x1 y1 ≠ [] := by
  simp [setupEvents]

/-- SET_WINDOW's test is that the window is one of the panel (R80). -/
theorem windowInPanel_of_windowIn {c : Config} {win : Window} (hw : WindowIn c win) :
    windowInPanel c win.x0 win.y0 win.x1 win.y1 = true := by
  obtain ⟨hx, hx1, hy, hy1⟩ := hw
  simp only [windowInPanel, Bool.and_eq_true, decide_eq_true_eq]
  omega

/-- A window set-up on a healthy bus (R74). -/
theorem perform_windowSetup {s : State} {tag : Byte} {win : Window} (hfits : s.cfg.panelFits)
    (hb : BusHealthy s) (hw : WindowIn s.cfg win) :
    perform tag (windowSetup s.cfg win.x0 win.y0 win.x1 win.y1) s
      = sent s (setupEvents s.cfg win.x0 win.y0 win.x1 win.y1) (withWindow s.block win win.area) := by
  obtain ⟨hx, hx1, hy, hy1⟩ := hw
  obtain ⟨hW, hH⟩ := hfits
  rw [perform, windowSetup_eq _ win _ hx (by omega) hy (by omega)]
  exact commit_healthy (setupEvents_ne_nil _ _ _ _ _) hb

/-- SET_WINDOW of a window of the panel, its bounds given as the numbers they are. -/
theorem setWindowBody_of_windowIn {s : State} {win : Window} (hfits : s.cfg.panelFits)
    (hb : BusHealthy s) (hw : WindowIn s.cfg win) :
    setWindowBody win.x0 win.y0 win.x1 win.y1 s
      = sent s (setupEvents s.cfg win.x0 win.y0 win.x1 win.y1) (withWindow s.block win win.area) := by
  rw [setWindowBody, if_pos (windowInPanel_of_windowIn hw), perform_windowSetup hfits hb hw]

/-- Settles O21, by the set-up of the window the four operands name. -/
theorem setWindowResult : Obligations.SetWindowResult := by
  intro s x0 y0 x1 y1 hdraw hfits hx0 hx01 hx1 hy0 hy01 hy1
  obtain ⟨hready, hpend, hbus⟩ := hdraw
  have ex0 := toInt_eq_toNat_of_nonneg hx0
  have ey0 := toInt_eq_toNat_of_nonneg hy0
  have ex1 := toInt_eq_toNat_of_nonneg (hx0.trans hx01)
  have ey1 := toInt_eq_toNat_of_nonneg (hy0.trans hy01)
  have hw : WindowIn s.cfg ⟨x0.toNat, y0.toNat, x1.toNat, y1.toNat⟩ := by
    refine ⟨?_, ?_, ?_, ?_⟩ <;> dsimp only <;> omega
  refine congrArg Host.Outcome.next ((drawing_gates_pass hready hpend).trans ?_)
  rw [ex0, ey0, ex1, ey1]
  exact setWindowBody_of_windowIn hfits hbus hw

/-! ## A stream -/

/-- What is owed after `n` of the words owed are sent. -/
theorem pend_sub_ofNat {pend : Word} {n : Nat} (hn : n ≤ pend.toNat) :
    pend - BitVec.ofNat 32 n = BitVec.ofNat 32 (pend.toNat - n) := by
  rw [← BitVec.ofNat_sub_ofNat_of_le _ _ (by omega) hn, BitVec.ofNat_toNat, BitVec.setWidth_eq]

theorem pixelEvents_ne_nil {pixels : List Half} (h : pixels ≠ []) : pixelEvents pixels ≠ [] := by
  simp [pixelEvents, h]

/-- A stream on a healthy bus, within what is owed (R75). -/
theorem perform_stream {s : State} {tag : Byte} {pixels : List Half} (hb : BusHealthy s)
    (hne : pixels ≠ []) (hn : pixels.length ≤ s.block.pend.toNat) :
    perform tag (stream pixels) s = sent s (pixelEvents pixels)
      { s.block with pend := BitVec.ofNat 32 (s.block.pend.toNat - pixels.length) } := by
  have hout : (stream pixels (Work.start s.block)).out = pixelEvents pixels := dataFrame_px pixels
  rw [perform, commit_healthy (hout ▸ pixelEvents_ne_nil hne) hb, hout, ← pend_sub_ofNat hn]
  rfl

/-- A stream of no words: nothing is sent, so the bus is not drawn, and no fewer words are owed (R75). -/
theorem perform_stream_nil (s : State) (tag : Byte) : perform tag (stream []) s = s := by
  rw [perform, commit_nil rfl]
  simp [stream]

/-- PUSH_PIXELS of no more words than the window has left is its stream (R81). -/
theorem exec_pushPixels_within {s : State} {pixels : List Half} (hready : s.block.phase = .ready)
    (hn : pixels.length ≤ s.block.pend.toNat) :
    exec (.pushPixels pixels) s = .next (perform HostTag.pushPixels.code (stream pixels) s) :=
  congrArg Host.Outcome.next ((drawingPrologue_ready hready).trans (if_neg (Nat.not_lt.mpr hn)))

/-- Settles O22, by the one stream: its data frame, or for no words nothing. -/
theorem pushPixelsResult : Obligations.PushPixelsResult := by
  intro s pixels hready hn
  rw [exec_pushPixels_within hready hn]
  constructor
  · intro hne hbus
    rw [perform_stream hbus hne hn]
  · rintro rfl
    rw [perform_stream_nil]

end Sys2Proof.Machine

/-! PROOF of O23 and O57: FILL_RECT is one fill of its clipped window (R79), and the panel sink, having
taken all before it, runs exactly the events the fill has sent (R83). -/

namespace Sys2Proof.Machine

/-! ## FILL_RECT -/

/-- FILL_RECT past its gates is its fill (R82). -/
theorem exec_fillRect_ready {s : State} (x y w h : Word) (color : Half)
    (hready : s.block.phase = .ready) (hpend : s.block.pend = 0) :
    exec (.fillRect x y w h color) s = .next (perform HostTag.fillRect.code
      (fillBody s.cfg x.toInt y.toInt w.toInt h.toInt color) s) :=
  congrArg Host.Outcome.next (drawing_gates_pass hready hpend)

/-- FILL_RECT of a rectangle that meets the panel, on a healthy bus. -/
theorem exec_fillRect_window {s : State} {x y w h : Word} (color : Half) {win : Window}
    (hdraw : CanDraw s) (hfits : s.cfg.panelFits)
    (hwin : fillWindow s.cfg x.toInt y.toInt w.toInt h.toInt = some win) :
    exec (.fillRect x y w h color) s = .next
      (sent s (paintEvents s.cfg (some win) (solid color)) (withWindow s.block win 0)) := by
  obtain ⟨hready, hpend, hbus⟩ := hdraw
  rw [exec_fillRect_ready _ _ _ _ _ hready hpend, perform_fill hfits hbus hwin]

/-- Settles O23, by the fill in each case: its window, or none. -/
theorem fillRectResult : Obligations.FillRectResult := by
  intro s x y w h color hfits
  refine ⟨fun hdraw win hwin => exec_fillRect_window color hdraw hfits hwin, ?_⟩
  intro hready hpend hnone
  rw [exec_fillRect_ready _ _ _ _ _ hready hpend, perform_fill_empty hfits hnone]

/-! ## A rectangle inside the panel -/

/-- A rectangle inside the panel is its own window: nothing is clipped (R83). -/
theorem fillWindow_inside {c : Config} {x y w h : Nat} (hw : 1 ≤ w) (hh : 1 ≤ h)
    (hx : x + w ≤ c.panelW) (hy : y + h ≤ c.panelH) :
    fillWindow c x y w h = some ⟨x, y, x + w - 1, y + h - 1⟩ := by
  rw [fillWindow, if_pos (by omega)]
  simp only [Option.some.injEq, Window.mk.injEq]
  omega

theorem window_area_of_size {x y w h : Nat} (hw : 1 ≤ w) (hh : 1 ≤ h) :
    Window.area ⟨x, y, x + w - 1, y + h - 1⟩ = w * h := by
  have ew : x + w - 1 - x + 1 = w := by omega
  have eh : y + h - 1 - y + 1 = h := by omega
  simp only [Window.area, ew, eh]

/-! ## The sink's steps after an operation -/

/-- The sink has taken all before the operation, so what it has yet to take is what the operation sent. -/
theorem pending_sent {s : State} (es : List BusEvent) (b : Block) (htaken : s.taken = s.trace.length) :
    pending (sent s es b) = es := by
  simp [pending, sent, htaken]

/-- The sink's steps through everything an operation sent, to the end of the trace. -/
theorem run_sent {s : State} {es : List BusEvent} {b : Block} {p : Panel}
    (htaken : s.taken = s.trace.length) (hrun : panelRun s.cfg es s.panel = some p) :
    Host.Core.run core es.length (sent s es b)
      = .next { sent s es b with taken := (sent s es b).trace.length, panel := p } := by
  have hpending : pending (sent s es b) = es ++ [] := by rw [pending_sent es b htaken, List.append_nil]
  rw [run_panelRun hpending hrun]
  simp [sent, htaken]

/-- The panel after one fill: the window's cells hold the colour, every other cell what it held (R79,
R109). -/
theorem panelRun_fill {c : Config} {p : Panel} {win : Window} (color : Half) (hd : c.namedDistinct)
    (hfits : c.panelFits) (hw : WindowIn c win) (hf : p.fault = .none) (hst : p.settle = none)
    (hcl : closingCheck p = none) (hm : p.madctl = some c.madctlLandscape)
    (hc : p.colmod = some c.colmod16bpp) :
    ∃ q, panelRun c (paintEvents c (some win) (solid color)) p = some q ∧ q.fault = .none
      ∧ ∀ i j : Half, gramRead q.gram (gramKey i j) =
          if win.x0 ≤ i.toNat ∧ i.toNat ≤ win.x1 ∧ win.y0 ≤ j.toNat ∧ j.toNat ≤ win.y1 then some color
          else gramRead p.gram (gramKey i j) := by
  refine ⟨_, panelRun_paint hf hst hcl hm hc hd hfits hw List.length_replicate, hf, fun i j => ?_⟩
  obtain ⟨hinside, houtside⟩ := gramRead_solid color hfits hw p.gram i j
  split
  case isTrue h => exact hinside h
  case isFalse h => exact houtside h

/-- Settles O57, by the one window FILL_RECT sends and the sink's run through it. -/
theorem fillRectPaintsExactlyItsRectangle : Obligations.FillRectPaintsExactlyItsRectangle := by
  intro s x y w h color hdraw htaken hf hst hcl hm hc hd hfits hx hy hw hh hxw hyh
  have ex := toInt_eq_toNat_of_nonneg hx
  have ey := toInt_eq_toNat_of_nonneg hy
  have ew := toInt_eq_toNat_of_nonneg (v := w) (by omega)
  have eh := toInt_eq_toNat_of_nonneg (v := h) (by omega)
  have hwin : fillWindow s.cfg x.toInt y.toInt w.toInt h.toInt
      = some ⟨x.toNat, y.toNat, x.toNat + w.toNat - 1, y.toNat + h.toNat - 1⟩ := by
    rw [ex, ey, ew, eh]
    exact fillWindow_inside (by omega) (by omega) (by omega) (by omega)
  obtain ⟨q, hrun, hqf, hgram⟩ := panelRun_fill color hd hfits (fillWindow_in hwin) hf hst hcl hm hc
  refine ⟨_, _, _, exec_fillRect_window color hdraw hfits hwin, ?_, run_sent htaken hrun, rfl, rfl,
    hqf, fun i j => ?_⟩
  · rw [← window_area_of_size (x := x.toNat) (y := y.toNat) (by omega) (by omega)]
    rfl
  · refine (hgram i j).trans (if_congr ?_ rfl rfl)
    dsimp only
    omega

end Sys2Proof.Machine

/-! PROOF of O32: DRAW_CHAR is one glyph behind its gates, its whole box painted or skipped (R91). -/

namespace Sys2Proof.Machine

/-! ## One glyph -/

/-- A glyph whose box fits, on a healthy bus: its window and all of its pixels (R91). -/
theorem perform_drawChar {s : State} {tag ch : Byte} {x y : Int} {fg bg : Half} {scale : Nat} {win : Window}
    (hfits : s.cfg.panelFits) (hscale : 0 < scale) (hb : BusHealthy s)
    (hwin : glyphWindow s.cfg x y scale = some win) :
    perform tag (drawCharBody s.cfg ch x y fg bg scale) s
      = sent s (paintEvents s.cfg (some win) fun _ => glyphPixelList s.cfg.glyphRom ch fg bg scale)
          (withWindow s.block win 0) := by
  rw [perform, drawCharBody_eq _ _ _ _ _ _ _ hfits hscale, hwin]
  exact commit_healthy (by simpa using paintEvents_ne_nil) hb

/-- A glyph whose box does not fit is skipped whole: nothing is sent, so the bus is not drawn (R91). -/
theorem perform_drawChar_skipped {s : State} {tag ch : Byte} {x y : Int} {fg bg : Half} {scale : Nat}
    (hfits : s.cfg.panelFits) (hscale : 0 < scale) (hwin : glyphWindow s.cfg x y scale = none) :
    perform tag (drawCharBody s.cfg ch x y fg bg scale) s = s := by
  rw [perform, drawCharBody_eq _ _ _ _ _ _ _ hfits hscale, hwin]
  exact commit_nil rfl

theorem scale_toNat_pos {scale : Byte} (h : scale ≠ 0) : 0 < scale.toNat :=
  Nat.pos_of_ne_zero fun h0 => h (BitVec.eq_of_toNat_eq h0)

/-- DRAW_CHAR past its gates is its glyph (R94). -/
theorem exec_drawChar_ready {s : State} (ch : Byte) (x y : Word) (fg bg : Half) {scale : Byte}
    (hready : s.block.phase = .ready) (hpend : s.block.pend = 0) (hscale : scale ≠ 0) :
    exec (.drawChar ch x y fg bg scale) s = .next (perform HostTag.drawChar.code
      (drawCharBody s.cfg ch x.toInt y.toInt fg bg scale.toNat) s) :=
  congrArg Host.Outcome.next ((drawing_gates_pass hready hpend).trans (scaleCheck_ok hscale))

/-- Settles O32, by the glyph in each case: its whole box, or none of it. -/
theorem drawCharResult : Obligations.DrawCharResult := by
  intro s ch x y fg bg scale hscale hfits
  have hpos := scale_toNat_pos hscale
  constructor
  · rintro ⟨hready, hpend, hbus⟩ win hwin
    rw [exec_drawChar_ready _ _ _ _ _ hready hpend hscale, perform_drawChar hfits hpos hbus hwin]
    rfl
  · intro hready hpend hnone
    rw [exec_drawChar_ready _ _ _ _ _ hready hpend hscale, perform_drawChar_skipped hfits hpos hnone]

end Sys2Proof.Machine

/-! PROOF of O35: two drawing states of one configuration pass the same gates, and the work behind them
sends events that do not depend on the registers (R92). -/

namespace Sys2Proof.Machine

/-! ## The same events from two drawing states -/

section
variable {s t : State} {tag : Byte} {body body' : State → State}

theorem SameEvents.congr (h : SameEvents s t body) (hs : body' s = body s) (ht : body' t = body t) :
    SameEvents s t body' := by
  rwa [SameEvents, hs, ht]

theorem sameEvents_prologue (hs : CanDraw s) (ht : CanDraw t) (h : SameEvents s t body) :
    SameEvents s t (prologue body) := by
  obtain ⟨hready_s, -, -⟩ := hs
  obtain ⟨hready_t, -, -⟩ := ht
  exact h.congr (prologue_run (ready_ne_faulted hready_s)) (prologue_run (ready_ne_faulted hready_t))

theorem sameEvents_drawing (hs : CanDraw s) (ht : CanDraw t) (h : SameEvents s t body) :
    SameEvents s t (drawingPrologue tag body) := by
  obtain ⟨hready_s, -, -⟩ := hs
  obtain ⟨hready_t, -, -⟩ := ht
  exact h.congr (drawingPrologue_ready hready_s) (drawingPrologue_ready hready_t)

theorem sameEvents_underrun (hs : CanDraw s) (ht : CanDraw t) (h : SameEvents s t body) :
    SameEvents s t (underrunCheck tag body) := by
  obtain ⟨-, hpend_s, -⟩ := hs
  obtain ⟨-, hpend_t, -⟩ := ht
  exact h.congr (underrunCheck_closed hpend_s) (underrunCheck_closed hpend_t)

/-- Scale 0 faults from either state, before any event. -/
theorem sameEvents_scale {scale : Byte} (h : SameEvents s t body) :
    SameEvents s t (scaleCheck tag scale body) := by
  by_cases h0 : scale = 0
  · subst h0
    exact sameEvents_quiet rfl rfl
  · exact h.congr (scaleCheck_ok h0) (scaleCheck_ok h0)

/-- SET_WINDOW's test reads the operands and the panel's size alone (R80). -/
theorem sameEvents_setWindowBody (x0 y0 x1 y1 : Int) (hcfg : s.cfg = t.cfg) (hs : BusHealthy s)
    (ht : BusHealthy t) : SameEvents s t (setWindowBody x0 y0 x1 y1) := by
  by_cases hin : windowInPanel s.cfg x0 y0 x1 y1 = true
  · have hin_t : windowInPanel t.cfg x0 y0 x1 y1 = true := hcfg ▸ hin
    refine (sameEvents_perform (outOnly_windowSetup s.cfg x0 y0 x1 y1) hs ht).congr (if_pos hin) ?_
    rw [setWindowBody, if_pos hin_t, hcfg]
  · have hin_t : ¬windowInPanel t.cfg x0 y0 x1 y1 = true := hcfg ▸ hin
    refine sameEvents_quiet ?_ ?_
    · rw [setWindowBody, if_neg hin, raiseFault_trace]
    · rw [setWindowBody, if_neg hin_t, raiseFault_trace]

end

/-- With no words owed PUSH_PIXELS sends nothing: it has no pixels, or it overruns (R81). -/
theorem pushPixelsBody_trace_of_closed {s : State} (pixels : List Half) (hpend : s.block.pend = 0) :
    (pushPixelsBody pixels s).trace = s.trace := by
  by_cases hover : pixels.length > s.block.pend.toNat
  · rw [pushPixelsBody, if_pos hover, raiseFault_trace]
  · obtain rfl : pixels = [] := by simpa [hpend] using hover
    rw [pushPixelsBody, if_neg hover, perform_stream_nil]

theorem raiseIllegal_trace (tag : Byte) (s : State) : (raiseIllegal tag s).trace = s.trace := by
  unfold raiseIllegal
  split <;> rfl

/-- An operation's body, given by what it is known to send. -/
theorem exec_body_of_sameEvents {i : Instr} {s t : State} {body : State → State}
    (h : SameEvents s t body) (hs : exec i s = .next (body s)) (ht : exec i t = .next (body t)) :
    ∃ body, exec i s = .next (body s) ∧ exec i t = .next (body t) ∧ SameEvents s t body :=
  ⟨body, hs, ht, h⟩

/-- Every host operation is one body from two drawing states of one configuration, and it sends the same
events from both. -/
theorem exec_sameEvents {i : Instr} {s t : State} (hi : i.isHostOp = true) (hcfg : s.cfg = t.cfg)
    (hs : CanDraw s) (ht : CanDraw t) :
    ∃ body, exec i s = .next (body s) ∧ exec i t = .next (body t) ∧ SameEvents s t body := by
  -- with `t`'s parameters literally those of `s`, one body computes from both
  obtain ⟨cfg, host, block, lines, trace, taken, panel, busDraws⟩ := t
  obtain rfl : s.cfg = cfg := hcfg
  have ⟨_, hpend_s, hbs⟩ := hs
  have ⟨_, hpend_t, hbt⟩ := ht
  cases i with
  | sendCmd op | sendCmdParams op _ =>
    exact exec_body_of_sameEvents (sameEvents_prologue hs ht (sameEvents_underrun hs ht
      (sameEvents_perform (outOnly_rawCommand s.cfg op _) hbs hbt))) rfl rfl
  | init =>
    exact exec_body_of_sameEvents (sameEvents_prologue hs ht (sameEvents_underrun hs ht
      (sameEvents_perform (outOnly_initDone _) hbs hbt))) rfl rfl
  | setWindow _ _ _ _ =>
    exact ⟨_, rfl, rfl, sameEvents_drawing hs ht (sameEvents_underrun hs ht
      (sameEvents_setWindowBody _ _ _ _ rfl hbs hbt))⟩
  | pushPixels pixels =>
    exact ⟨_, rfl, rfl, sameEvents_drawing hs ht (sameEvents_quiet
      (pushPixelsBody_trace_of_closed pixels hpend_s) (pushPixelsBody_trace_of_closed pixels hpend_t))⟩
  | fillRect _ _ _ _ _ | fillScreen _ | hline _ _ _ _ | vline _ _ _ _ =>
    exact exec_body_of_sameEvents (sameEvents_drawing hs ht (sameEvents_underrun hs ht
      (sameEvents_perform (outOnly_fillBody s.cfg _ _ _ _ _) hbs hbt))) rfl rfl
  | roundRect _ _ _ _ _ _ =>
    exact exec_body_of_sameEvents (sameEvents_drawing hs ht (sameEvents_underrun hs ht
      (sameEvents_perform (outOnly_roundRectBody s.cfg _ _ _ _ _ _) hbs hbt))) rfl rfl
  | drawChar _ _ _ _ _ _ =>
    exact exec_body_of_sameEvents (sameEvents_drawing hs ht (sameEvents_underrun hs ht
      (sameEvents_scale (sameEvents_perform (outOnly_drawCharBody s.cfg _ _ _ _ _ _) hbs hbt)))) rfl rfl
  | drawText _ _ _ _ _ _ =>
    exact exec_body_of_sameEvents (sameEvents_drawing hs ht (sameEvents_underrun hs ht
      (sameEvents_scale (sameEvents_perform (outOnly_drawTextBody s.cfg _ _ _ _ _ _) hbs hbt)))) rfl rfl
  | backlight on =>
    exact ⟨fun u => { u with block := { u.block with bl := on } }, rfl, rfl, sameEvents_quiet rfl rfl⟩
  | color565 _ _ _ => exact ⟨_, rfl, rfl, sameEvents_prologue hs ht (sameEvents_quiet rfl rfl)⟩
  | charSize _ | textWidth _ _ =>
    exact ⟨_, rfl, rfl, sameEvents_prologue hs ht (sameEvents_scale (sameEvents_quiet rfl rfl))⟩
  | reservedHostTag _ _ =>
    exact ⟨_, rfl, rfl, sameEvents_quiet (raiseIllegal_trace _ _) (raiseIllegal_trace _ _)⟩
  | swreset | slpout | dispon | caset | raset | ramwr | madctl | colmod | vendor _
  | unmodelled _ => cases hi

/-- Settles O35, by the one body an operation is from both states. -/
theorem sameOperationSendsTheSameEvents : Obligations.SameOperationSendsTheSameEvents := by
  intro s t s' t' i hi hcfg hs ht hs' ht'
  obtain ⟨body, hexec_s, hexec_t, hsame⟩ := exec_sameEvents hi hcfg hs ht
  obtain rfl : s' = body s := Host.Outcome.next.inj (hs'.symm.trans hexec_s)
  obtain rfl : t' = body t := Host.Outcome.next.inj (ht'.symm.trans hexec_t)
  exact hsame

end Sys2Proof.Machine

/-! PROOF of O38: the two outcomes of a memory write's command byte (R108). -/

namespace Sys2Proof.Machine

/-- A window's size counted in naturals, start not past end. -/
theorem windowArea_natCast {x0 y0 x1 y1 : Nat} (hx : x0 ≤ x1) (hy : y0 ≤ y1) :
    windowArea x0 y0 x1 y1 = (((x1 - x0 + 1) * (y1 - y0 + 1) : Nat) : Int) := by
  rw [windowArea]
  push_cast [Nat.cast_sub hx, Nat.cast_sub hy]
  rfl

/-- A range that is set is in order (R106, R107). -/
theorem start_le_end_of_rangeOk {st en : Option Half} {bound : Nat} {a b : Half}
    (h : RangeOk st en bound) (hst : st = some a) (hen : en = some b) : a.toNat ≤ b.toNat := by
  subst hst hen
  obtain ⟨hnone, -⟩ | ⟨_, _, ⟨⟩, ⟨⟩, hle, -⟩ := h
  · cases hnone
  · exact hle

/-- In the configured modes a memory write begins at the window's start, and owes its size (R108). -/
theorem ramwrEffect_window {c : Config} {p : Panel} {sc ec sp ep : Half} (hsc : p.sc = some sc)
    (hec : p.ec = some ec) (hsp : p.sp = some sp) (hep : p.ep = some ep)
    (hmadctl : p.madctl = some c.madctlLandscape) (hcolmod : p.colmod = some c.colmod16bpp)
    (hcols : sc.toNat ≤ ec.toNat) (hrows : sp.toNat ≤ ep.toNat) :
    ramwrEffect c p = { p with
      cx := some sc, cy := some sp
      remain := BitVec.ofNat 32 ((ec.toNat - sc.toNat + 1) * (ep.toNat - sp.toNat + 1))
      half := none, mode := .memWrite } := by
  simp only [ramwrEffect, hsc, hec, hsp, hep, hmadctl, hcolmod, and_self, if_true,
    windowArea_natCast hcols hrows, BitVec.ofInt_natCast]

/-- With an address range unset, or in another orientation or colour mode, RAMWR is refused (R108). -/
theorem ramwrEffect_refused {c : Config} {p : Panel}
    (h : p.sc = none ∨ p.sp = none ∨ p.madctl ≠ some c.madctlLandscape
      ∨ p.colmod ≠ some c.colmod16bpp) :
    ramwrEffect c p = { p with refused := true, mode := .discard } := by
  unfold ramwrEffect
  split
  next sc _ sp _ hsc _ hsp _ =>
    have hmodes : ¬(p.madctl = some c.madctlLandscape ∧ p.colmod = some c.colmod16bpp) := by
      rintro ⟨hmadctl, hcolmod⟩
      simp [hsc, hsp, hmadctl, hcolmod] at h
    exact if_neg hmodes
  next => rfl

/-- A sink that accepts a command takes RAMWR's own effect. -/
theorem exec_ramwr_of_accepts {s : State} (h : PanelAccepts s.panel) :
    exec .ramwr s = .next { s with panel := ramwrEffect s.cfg s.panel } :=
  (exec_command s rfl).trans (panelCommand_run h.1 (commandCheck_accepts h))

/-- Settles O38, by the two outcomes of RAMWR's own effect; the panel's invariant puts the window in
order. -/
theorem memoryWriteResult : Obligations.MemoryWriteResult := by
  intro s haccepts hinv _
  rw [exec_ramwr_of_accepts haccepts]
  constructor
  · intro sc ec sp ep hsc hec hsp hep hmadctl hcolmod
    have hcols := start_le_end_of_rangeOk hinv.columns hsc hec
    have hrows := start_le_end_of_rangeOk hinv.rows hsp hep
    rw [ramwrEffect_window hsc hec hsp hep hmadctl hcolmod hcols hrows]
  · intro hrefused
    rw [ramwrEffect_refused hrefused]

end Sys2Proof.Machine

/-! PROOF of O47: in `FAULTED` every operation but BACKLIGHT ends at its gate (R117), so nothing but the
block's reset touches what the fault left. -/

namespace Sys2Proof.Machine

/-! ## What a fault leaves standing -/

/-- From `s` to `t` the block changed at most its `BL`, and emitted nothing. -/
structure KeepsButBacklight (s t : State) : Prop where
  block : t.block = { s.block with bl := t.block.bl }
  trace : t.trace = s.trace
  lines : t.lines = s.lines

theorem KeepsButBacklight.refl (s : State) : KeepsButBacklight s s := ⟨rfl, rfl, rfl⟩

/-- In `FAULTED` a drawing operation ends at its gate (R117). -/
theorem exec_drawing_faulted {i : Instr} {s : State} (hd : i.isDrawing = true)
    (hp : s.block.phase = .faulted) : exec i s = .next s := by
  obtain ⟨body, hexec⟩ := exec_drawing s hd
  rw [hexec, drawingPrologue_faulted hp]

/-- In `FAULTED` any operation but BACKLIGHT ends at its gate, and a reserved descriptor has no effect
(R117). -/
theorem exec_faulted {i : Instr} {s : State} (hi : i.isHostOp = true)
    (hbl : ∀ on, i ≠ .backlight on) (hp : s.block.phase = .faulted) : exec i s = .next s := by
  cases i with
  | backlight on => exact absurd rfl (hbl on)
  | sendCmd _ | sendCmdParams _ _ | init | color565 _ _ _ | charSize _ | textWidth _ _ =>
    exact congrArg Host.Outcome.next (prologue_faulted hp)
  | reservedHostTag _ _ => exact congrArg Host.Outcome.next (raiseIllegal_faulted hp)
  | setWindow _ _ _ _ | pushPixels _ | fillRect _ _ _ _ _ | fillScreen _ | hline _ _ _ _
  | vline _ _ _ _ | roundRect _ _ _ _ _ _ | drawChar _ _ _ _ _ _ | drawText _ _ _ _ _ _ =>
    exact exec_drawing_faulted rfl hp
  | swreset | slpout | dispon | caset | raset | ramwr | madctl | colmod | vendor _
  | unmodelled _ => cases hi

theorem exec_keepsButBacklight_of_faulted {i : Instr} {s t : State} (hi : i.isHostOp = true)
    (hp : s.block.phase = .faulted) (h : exec i s = .next t) : KeepsButBacklight s t := by
  by_cases hbl : ∃ on, i = .backlight on
  · obtain ⟨on, rfl⟩ := hbl
    cases h
    exact ⟨rfl, rfl, rfl⟩
  · have hsame : exec i s = .next s := exec_faulted hi (not_exists.1 hbl) hp
    obtain rfl := Host.Outcome.next.inj (h.symm.trans hsame)
    exact .refl _

/-- In `FAULTED` every input of the host but the block's reset leaves the block as it is, but for `BL`;
an operation the reset stops part-way had no event to send (R123). -/
theorem InputEffect.of_faulted {s t : State} {inp : HostInput} (hp : s.block.phase = .faulted)
    (h : InputEffect s inp t) :
    KeepsButBacklight s t ∨ (inp = .resetBlock ∧ t = Machine.resetBlock s) := by
  cases h with
  | op _ i _ hi ht _ => exact .inl (exec_keepsButBacklight_of_faulted hi hp ht)
  | illegal _ tag _ => rw [raiseIllegal_faulted hp]; exact .inl (.refl s)
  | read _ v f _ => exact .inl ⟨rfl, rfl, rfl⟩
  | cut words k es hes =>
    have hnil : es = [] := by
      rcases hes with hnil | ⟨i, t, all, hd, ht, hall, rfl⟩
      · exact hnil
      · have htrace := (exec_keepsButBacklight_of_faulted (s := { s with busDraws := none :: s.busDraws })
          (decodeDescriptor_hostOp hd) hp ht).trace
        have hsent : all = [] := by simpa [htrace] using hall
        rw [hsent, List.take_nil]
    rw [hnil, appendEvents_nil]
    exact .inl ⟨rfl, rfl, rfl⟩
  | resetBlock => exact .inr ⟨rfl, rfl⟩
  | powerOnPanel => exact .inl ⟨rfl, rfl, rfl⟩

/-- Settles O47, by the cases of a step: the sink never writes the block, and of the host's inputs only
the block's reset does more than set `BL`. -/
theorem faultLastsUntilReset : Obligations.FaultLastsUntilReset := by
  intro s t hstep hp
  rcases step_cases hstep with ⟨_, _, _, _, _, rfl⟩ | ⟨_, inp, hinp, heffect⟩ | rfl
  · exact .inl ⟨rfl, rfl, rfl⟩
  · rcases InputEffect.of_faulted (s := advanceHost s) hp heffect with ⟨hblock, htrace, hlines⟩ | ⟨rfl, rfl⟩
    · exact .inl ⟨hblock, htrace, hlines⟩
    · exact .inr ⟨hinp, rfl, rfl, rfl⟩
  · exact .inl ⟨rfl, rfl, rfl⟩

end Sys2Proof.Machine

/-! PROOF of O11: the host takes its reset input, and the reset rebuilds the block's side of the state (R132). -/

namespace Sys2Proof.Machine

/-- On the host's turn, a reset input resets the block as the host's cursor moves past it (R132). -/
theorem step_resetBlock {s : State} (hturn : HostTurn s)
    (hinput : s.host.inputs[s.host.pos]? = some .resetBlock) :
    step s = .next (resetBlock (advanceHost s)) :=
  step_input hturn hinput

/-- Settles O11, by the step that takes the reset: it starts the empty trace with nothing taken, and every
field of the block and of its lines is the reset's constant. -/
theorem blockResetSetsEveryField : Obligations.BlockResetSetsEveryField := by
  intro s hturn hinput
  refine ⟨0, ?_⟩
  rw [step_resetBlock hturn hinput, resetBlock, Block.reset, Lines.reset, advanceHost]

end Sys2Proof.Machine

/-! PROOF of O1 and O2: every row of the tables read back from its own encoding (R60 to R66), and every
code that is read, the encoding of what it is read as. -/

namespace Sys2Proof

/-! ## Encoding, then decoding -/

/-- The round trip of every instruction, by its own constructor's. -/
theorem roundTrip_statement (i : Instr) : Laws.RoundTrip.Statement i := by
  cases i with
  | sendCmd op => exact Laws.RoundTrip.sendCmd op
  | sendCmdParams op params => exact Laws.RoundTrip.sendCmdParams op params
  | init => exact Laws.RoundTrip.init
  | backlight on => exact Laws.RoundTrip.backlight on
  | setWindow x0 y0 x1 y1 => exact Laws.RoundTrip.setWindow x0 y0 x1 y1
  | pushPixels pixels => exact Laws.RoundTrip.pushPixels pixels
  | fillRect x y w h color => exact Laws.RoundTrip.fillRect x y w h color
  | fillScreen color => exact Laws.RoundTrip.fillScreen color
  | hline x y w color => exact Laws.RoundTrip.hline x y w color
  | vline x y h color => exact Laws.RoundTrip.vline x y h color
  | roundRect x y w h color t => exact Laws.RoundTrip.roundRect x y w h color t
  | color565 r g b => exact Laws.RoundTrip.color565 r g b
  | charSize scale => exact Laws.RoundTrip.charSize scale
  | drawChar ch x y fg bg scale => exact Laws.RoundTrip.drawChar ch x y fg bg scale
  | drawText x y fg bg scale text => exact Laws.RoundTrip.drawText x y fg bg scale text
  | textWidth scale text => exact Laws.RoundTrip.textWidth scale text
  | reservedHostTag header operands => exact Laws.RoundTrip.reservedHostTag header operands
  | swreset => exact Laws.RoundTrip.swreset
  | slpout => exact Laws.RoundTrip.slpout
  | dispon => exact Laws.RoundTrip.dispon
  | caset => exact Laws.RoundTrip.caset
  | raset => exact Laws.RoundTrip.raset
  | ramwr => exact Laws.RoundTrip.ramwr
  | madctl => exact Laws.RoundTrip.madctl
  | colmod => exact Laws.RoundTrip.colmod
  | vendor op => exact Laws.RoundTrip.vendor op
  | unmodelled op => exact Laws.RoundTrip.unmodelled op

/-- Settles O1, by the round trip of each constructor. -/
theorem encodedInstructionDecodesBack : Obligations.EncodedInstructionDecodesBack :=
  fun c i hd hwf => roundTrip_statement i c hd hwf

/-! ## Decoding, then encoding -/

/-- A header whose tag is in the table is that operation's header word. -/
theorem HostTag.header_of_ofCode {w : Word} {t : HostTag} (hhigh : w.extractLsb' 8 24 = 0)
    (ht : HostTag.ofCode (w.extractLsb' 0 8) = some t) : t.header = w := by
  rw [HostTag.header, HostTag.code_of_ofCode ht, setWidth_low8 hhigh]

/-- A descriptor that decodes is the encoding of the well-formed operation it is read as. -/
theorem decodeDescriptor_ok {c : Config} {ws : List Word} {i : Instr} (h : decodeDescriptor ws = .ok i) :
    i.wf c = true ∧ encode c i = .descriptor ws := by
  cases ws with
  | nil => cases h
  | cons w ws =>
    rw [decodeDescriptor] at h
    split at h
    next hhigh =>
      split at h
      next t ht =>
        obtain ⟨hwf, henc⟩ := decodeOperands_ok h
        exact ⟨hwf, by rw [henc, HostTag.header_of_ofCode hhigh ht]⟩
      next hnone =>
        cases h
        exact ⟨by rw [Instr.wf, reservedHeader, (reservedTag_iff _).2 hnone, Bool.or_true], rfl⟩
    next hhigh =>
      cases h
      exact ⟨by rw [Instr.wf, reservedHeader, bne_iff_ne.2 hhigh, Bool.true_or], rfl⟩

/-- A command byte encodes the well-formed command it is read as: one of the eight, a vendor's, or an
unmodelled one. -/
theorem encode_decodeCommand (c : Config) (b : Byte) :
    (decodeCommand c b).wf c = true ∧ encode c (decodeCommand c b) = .command b := by
  unfold decodeCommand
  split_ifs
  -- the eight named opcodes, then the vendor set and the rest
  iterate 8 exact ⟨rfl, congrArg Code.command (Eq.symm ‹_›)⟩
  all_goals simp_all [Instr.wf, Config.namedOpcodes, encode]

/-- Settles O2, by either encoding surface. -/
theorem decodedCodeIsTheEncoding : Obligations.DecodedCodeIsTheEncoding := by
  intro c code i h
  cases code with
  | descriptor ws => exact decodeDescriptor_ok h
  | command b =>
    cases h
    exact encode_decodeCommand c b

end Sys2Proof

/-! PROOF of O3: the reserved headers of R66, by number. -/

namespace Sys2Proof

theorem extractLsb'_8_24_toNat (h : Word) : (h.extractLsb' 8 24).toNat = h.toNat / 256 := by
  rw [BitVec.extractLsb'_toNat, Nat.shiftRight_eq_div_pow]
  omega

theorem extractLsb'_0_8_toNat (h : Word) : (h.extractLsb' 0 8).toNat = h.toNat % 256 := by
  rw [BitVec.extractLsb'_toNat, Nat.shiftRight_zero]

/-- R66's list, by the header's number: a bit above the tag, or a tag in one of the four ranges. -/
theorem reservedHeader_of_toNat {h : Word}
    (hr : h.toNat / 256 ≠ 0 ∨ h.toNat = 0 ∨ (0x05 ≤ h.toNat ∧ h.toNat ≤ 0x0F)
      ∨ (0x18 ≤ h.toNat ∧ h.toNat ≤ 0x1F) ∨ (0x24 ≤ h.toNat ∧ h.toNat ≤ 0xFF)) :
    reservedHeader h = true := by
  simp only [reservedHeader, reservedTag, Bool.or_eq_true, Bool.and_eq_true, bne_iff_ne, beq_iff_eq,
    decide_eq_true_eq, ne_eq, ← BitVec.toNat_inj, extractLsb'_8_24_toNat, extractLsb'_0_8_toNat,
    BitVec.ofNat_eq_ofNat, BitVec.toNat_ofNat]
  omega

/-- Settles O3, by the reserved header. -/
theorem reservedHeadersAreTheReservedRow : Obligations.ReservedHeadersAreTheReservedRow :=
  fun _ ws hr => decodeDescriptor_reserved ws (reservedHeader_of_toNat hr)

end Sys2Proof

/-! PROOF of O44 and O51: what any input of the host leaves of the parameters, and of the block's
invariant. -/

namespace Sys2Proof.Machine

/-! ## The parameters -/

/-- A host operation's next state is in its frame. -/
theorem hostFrame_of_exec {i : Instr} {s t : State} (hi : i.isHostOp = true) (h : exec i s = .next t) :
    HostFrame i s t := by
  obtain ⟨t', hexec, hframe⟩ := exec_hostFrame s hi
  obtain rfl := Host.Outcome.next.inj (h.symm.trans hexec)
  exact hframe

theorem raiseIllegal_cfg (tag : Byte) (s : State) : (raiseIllegal tag s).cfg = s.cfg := by
  unfold raiseIllegal
  split <;> rfl

/-- No input of the host changes a parameter (R51). -/
theorem InputEffect.cfg {s t : State} {inp : HostInput} (h : InputEffect s inp t) : t.cfg = s.cfg := by
  cases h with
  | op _ i _ hi ht _ => exact (hostFrame_of_exec hi ht).cfg
  | illegal _ tag _ => exact raiseIllegal_cfg tag s
  | read | cut | resetBlock | powerOnPanel => rfl

theorem step_cfg {s t : State} (h : step s = .next t) : t.cfg = s.cfg := by
  rcases step_cases h with ⟨_, _, _, _, _, rfl⟩ | ⟨_, _, _, heffect⟩ | rfl
  · rfl
  · exact heffect.cfg
  · rfl

/-- Settles O44, by the cases of a step. -/
theorem stepKeepsTheParameters : Obligations.StepKeepsTheParameters :=
  fun _ _ => step_cfg

/-! ## The block's invariant -/

theorem blockInv_reset (c : Config) : BlockInv c Block.reset where
  faulted := by decide
  tag _ := rfl
  window := nofun
  owed h := absurd rfl h

theorem blockInv_raiseIllegal {c : Config} (tag : Byte) {s : State} (h : BlockInv c s.block) :
    BlockInv c (raiseIllegal tag s).block := by
  unfold raiseIllegal
  split
  · exact h
  · exact blockInv_raiseFault (by decide) h

/-- Every input of the host keeps the block's invariant; an operation that the reset cuts off writes no
register (R123). -/
theorem InputEffect.blockInv {s t : State} {inp : HostInput} (hfits : s.cfg.panelFits)
    (hinv : BlockInv s.cfg s.block) (h : InputEffect s inp t) : BlockInv s.cfg t.block := by
  cases h with
  | op _ i _ hi ht _ => exact blockInv_exec hi hfits hinv ht
  | illegal _ tag _ => exact blockInv_raiseIllegal tag hinv
  | read | cut | powerOnPanel => exact hinv
  | resetBlock => exact blockInv_reset s.cfg

theorem step_blockInv {s t : State} (hfits : s.cfg.panelFits) (hinv : BlockInv s.cfg s.block)
    (h : step s = .next t) : BlockInv t.cfg t.block := by
  rw [step_cfg h]
  rcases step_cases h with ⟨_, _, _, _, _, rfl⟩ | ⟨_, _, _, heffect⟩ | rfl
  · exact hinv
  · exact heffect.blockInv (s := advanceHost s) hfits hinv
  · exact hinv

/-- Settles O51, by the cases of a step: the sink does not touch the block. -/
theorem stepKeepsBlockInvariant : Obligations.StepKeepsBlockInvariant :=
  fun _ _ => step_blockInv

end Sys2Proof.Machine

/-! PROOF of O52 and O48: of the host's inputs only the power-on reaches the panel sink, and of the bus
events none clears its marks. -/

namespace Sys2Proof.Machine

/-! ## What reaches the sink -/

theorem raiseIllegal_panel (tag : Byte) (s : State) : (raiseIllegal tag s).panel = s.panel := by
  unfold raiseIllegal
  split <;> rfl

/-- The host's inputs leave the sink alone, but for the panel's power-on (R37, R133). -/
theorem InputEffect.panel {s t : State} {inp : HostInput} (h : InputEffect s inp t) :
    t.panel = s.panel ∨ (inp = .powerOnPanel ∧ t = Machine.powerOnPanel s) := by
  cases h with
  | op _ i _ hi ht _ => exact .inl (hostFrame_of_exec hi ht).panel
  | illegal _ tag _ => exact .inl (raiseIllegal_panel tag s)
  | read | cut | resetBlock => exact .inl rfl
  | powerOnPanel => exact .inr ⟨rfl, rfl⟩

theorem step_panelInv {s t : State} (hfits : s.cfg.panelFits) (hinv : PanelInv s.cfg s.panel)
    (h : step s = .next t) : PanelInv t.cfg t.panel := by
  rw [step_cfg h]
  rcases step_cases h with ⟨_, _, _, _, hevent, rfl⟩ | ⟨_, _, _, heffect⟩ | rfl
  · exact panelInv_panelEvent hfits hinv hevent
  · rcases heffect.panel with hsame | ⟨_, rfl⟩
    · rw [hsame]; exact hinv
    · exact panelInv_powerOn s.cfg
  · exact hinv

/-- Settles O52, by the sink's own event, or the power-on. -/
theorem stepKeepsPanelInvariant : Obligations.StepKeepsPanelInvariant :=
  fun _ _ => step_panelInv

/-! ## The refusal mark -/

theorem ramwrEffect_keeps_refused {c : Config} {p : Panel} (h : p.refused = true) :
    (ramwrEffect c p).refused = true := by
  unfold ramwrEffect
  split
  · split
    · exact h
    · rfl
  · rfl

theorem panelEffect_keeps_refused {c : Config} {i : Instr} {p : Panel} (h : p.refused = true) :
    (panelEffect c i p).refused = true := by
  cases i with
  | ramwr => exact ramwrEffect_keeps_refused h
  | unmodelled _ => rfl
  | _ => exact h

theorem applyParams_refused (c : Config) (op : OpenCommand) (bytes : List Byte) (p : Panel) :
    (applyParams c op bytes p).refused = p.refused := by
  cases op with
  | caset =>
    simp only [applyParams, applyCaset]
    split
    · split <;> rfl
    · rfl
  | raset =>
    simp only [applyParams, applyRaset]
    split
    · split <;> rfl
    · rfl
  | madctl | colmod | vendor _ => rfl

theorem paramByte_refused (c : Config) (op : OpenCommand) (bytes : List Byte) (d : Byte) (p : Panel) :
    (paramByte c op bytes d p).refused = p.refused := by
  unfold paramByte
  dsimp only
  split
  · split <;> exact applyParams_refused c op _ p
  · rfl

theorem pixelByte_refused {c : Config} {d : Byte} {p q : Panel} (h : pixelByte c d p = .ok q) :
    q.refused = p.refused := by
  unfold pixelByte at h
  split at h
  · split at h <;> cases h <;> rfl
  · split at h
    · split at h <;> cases h
      rfl
    · cases h

theorem dataByte_refused {c : Config} {d : Byte} {p q : Panel} (h : dataByte c d p = .ok q) :
    q.refused = p.refused := by
  unfold dataByte at h
  split at h
  · cases h; rfl
  · split at h
    · cases h; rfl
    · cases h; rfl
    · cases h; exact paramByte_refused c _ _ d p
    · exact pixelByte_refused h

/-- No bus event clears the refusal mark, SWRESET not either (R125). -/
theorem panelEvent_keeps_refused {c : Config} {e : BusEvent} {p q : Panel}
    (h : panelEvent c e p = .ok q) (hr : p.refused = true) : q.refused = true := by
  cases e with
  | csAssert | csRelease => cases h; exact hr
  | delay ms =>
    cases h
    unfold delayEvent
    split
    · exact hr
    · split <;> exact hr
  | cmd b =>
    cases h
    split
    · exact hr
    · exact panelEffect_keeps_refused hr
  | dat d => exact (dataByte_refused h).trans hr

/-- Settles O48: a sink that takes an event has no fault yet, and only the power-on's input rebuilds
it. -/
theorem panelMarksAreSticky : Obligations.PanelMarksAreSticky := by
  constructor
  · intro s t hstep
    rcases step_cases hstep with
      ⟨e, q, hfault, _, hevent, rfl⟩ | ⟨hturn, inp, hinput, heffect⟩ | rfl
    · exact .inl ⟨fun h => absurd hfault h, panelEvent_keeps_refused hevent⟩
    · rcases heffect.panel with hsame | ⟨rfl, rfl⟩
      · rw [hsame]
        exact .inl ⟨fun _ => rfl, id⟩
      · exact .inr ⟨hturn, hinput, _, rfl⟩
    · exact .inl ⟨fun _ => rfl, id⟩
  · intro s hturn hinput
    exact ⟨_, step_input hturn hinput⟩

end Sys2Proof.Machine

/-! PROOF of O53 and O54: the framing of the trace through each input of the host, and the one stop a
state with the invariant has. -/

namespace Sys2Proof.Machine

/-! ## The trace's invariant -/

theorem traceInv_raiseIllegal (tag : Byte) {s : State} (h : TraceInv s) :
    TraceInv (raiseIllegal tag s) := by
  unfold raiseIllegal
  split
  · exact h
  · exact traceInv_regs h _ fun hbus => by simp [hbus]

theorem traceInv_resetBlock {s : State} (h : s.panel.fault ≠ .noCs) : TraceInv (resetBlock s) where
  taken := le_rfl
  framed := ⟨.outside, rfl, fun hne => absurd rfl hne⟩
  lines := rfl
  panelCs := ⟨.outside, rfl, fun hne => absurd rfl hne⟩
  noCs := h

theorem traceInv_powerOnPanel {s : State} (h : TraceInv s) : TraceInv (powerOnPanel s) := by
  obtain ⟨st, hst, hcut⟩ := h.framed
  exact
    { taken := le_rfl
      framed := ⟨st, hst, hcut⟩
      lines := h.lines
      panelCs := ⟨st, by simpa using hst, fun _ => .inr rfl⟩
      noCs := nofun }

/-- Every input of the host keeps the trace's invariant: the trace is whole frames wherever the input is
not the reset, and the reset empties it. -/
theorem InputEffect.traceInv {s t : State} {inp : HostInput} (hinv : Inv s)
    (hinput : nextInput s = some inp) (h : InputEffect (advanceHost s) inp t) : TraceInv t := by
  by_cases hreset : inp = .resetBlock
  · subst hreset
    cases h with
    | op _ _ _ _ _ hin => rcases hin with ⟨_, hin, _⟩ | ⟨_, hin, _⟩ <;> cases hin
    | illegal _ _ hin => rcases hin with ⟨_, hin⟩ | ⟨_, hin⟩ <;> cases hin
    | read _ _ _ hin => rcases hin with hin | hin | hin <;> cases hin
    | resetBlock => exact traceInv_resetBlock hinv.trace.noCs
  · have hnext : nextInput s ≠ some .resetBlock := fun hn =>
      hreset (Option.some.inj (hinput.symm.trans hn))
    have hwhole : WholeFrames (advanceHost s) := (wholeFrames_of_next hinv.trace hnext :)
    have htrace : TraceInv (advanceHost s) := traceInv_advanceHost hinv.trace hnext
    cases h with
    | op _ i _ hi ht _ => exact traceInv_exec (s := advanceHost s) hi hinv.fits hinv.block htrace hwhole ht
    | illegal _ tag _ => exact traceInv_raiseIllegal tag htrace
    | read _ v f _ => exact traceInv_host htrace hwhole _
    | cut words k es hes =>
      rcases hes with rfl | ⟨i, t, all, hd, ht, hall, rfl⟩
      · rw [appendEvents_nil]
        exact traceInv_host htrace hwhole _
      · exact traceInv_cut (s := advanceHost s) k (decodeDescriptor_hostOp hd) hinv.fits hinv.block htrace
          hwhole ht hall
    | resetBlock => exact absurd rfl hreset
    | powerOnPanel => exact traceInv_powerOnPanel htrace

theorem step_traceInv {s t : State} (hinv : Inv s) (h : step s = .next t) : TraceInv t := by
  rcases step_cases h with ⟨_, _, _, hnext, hevent, rfl⟩ | ⟨_, _, hinput, heffect⟩ | rfl
  · exact traceInv_event hinv.trace hnext hevent
  · exact heffect.traceInv hinv hinput
  · exact hinv.trace

/-- Settles O53, by the three parts of the invariant. -/
theorem stepKeepsInvariant : Obligations.StepKeepsInvariant := by
  intro s t hinv h
  exact
    { fits := step_cfg h ▸ hinv.fits
      block := step_blockInv hinv.fits hinv.block h
      panel := step_panelInv hinv.fits hinv.panel h
      trace := step_traceInv hinv h }

/-! ## Stops -/

/-- A sink that takes an event: its position moves past it, and the panel is as the event leaves it. -/
theorem step_event_ok {s : State} {e : BusEvent} {q : Panel} (hfault : s.panel.fault = .none)
    (hnext : s.trace[s.taken]? = some e) (hq : panelEvent s.cfg e s.panel = .ok q) :
    step s = .next { s with taken := s.taken + 1, panel := q } := by
  rw [step_event hfault hnext, consume_eq e (s := takeEvent s) hfault, takeEvent_cfg, takeEvent_panel, hq]
  rfl

/-- A host operation decoded or not, the machine goes on. -/
theorem runDecoded_next {d : Except DecodeError Instr} (hd : ∀ i, d = .ok i → i.isHostOp = true)
    (header : Option Word) (s : State) : ∃ t, runDecoded d header s = .next t := by
  cases d with
  | error _ => exact ⟨_, rfl⟩
  | ok i =>
    obtain ⟨t, ht, _⟩ := exec_hostFrame s (hd i rfl)
    exact ⟨t, ht⟩

/-- No input of the host stops the machine, or is refused. -/
theorem takeInput_next (inp : HostInput) (s : State) : ∃ t, takeInput inp s = .next t := by
  cases inp with
  | operation words => exact runDecoded_next (fun _ => decodeDescriptor_hostOp) _ s
  | operationBytes bytes => exact runDecoded_next (fun _ => decodeBytes_hostOp) _ s
  | operationCut | readRes0 | readRes1 | readStatus | resetBlock | powerOnPanel => exact ⟨_, rfl⟩

/-- A stuck sink, and nothing left for the host to do (R97, R124). -/
def Stuck (s : State) : Prop :=
  s.panel.fault ≠ .none ∧ s.host.inputs[s.host.pos]? = none

/-- With the invariant a step goes on, unless the machine is stuck: then it stops, as `panelStuck`. -/
theorem step_outcome_of_inv {s : State} (hinv : Inv s) :
    (¬Stuck s ∧ ∃ t, step s = .next t) ∨ (Stuck s ∧ step s = .fault .panelStuck) := by
  rcases turn_cases s with ⟨e, hfault, hnext⟩ | hturn
  · obtain ⟨q, hq⟩ := panelEvent_ok_of_inv (e := e) hinv.panel
    exact .inl ⟨fun hstuck => hstuck.1 hfault, _, step_event_ok hfault hnext hq⟩
  · cases hinput : s.host.inputs[s.host.pos]? with
    | some inp =>
      obtain ⟨t, ht⟩ := takeInput_next inp (advanceHost s)
      exact .inl ⟨by simp [Stuck, hinput], t, (step_input hturn hinput).trans ht⟩
    | none =>
      rw [step_noInput hturn hinput]
      by_cases hfault : s.panel.fault = .none
      · exact .inl ⟨fun hstuck => hstuck.1 hfault, s, if_pos hfault⟩
      · exact .inr ⟨⟨hfault, hinput⟩, if_neg hfault⟩

/-- Settles O54, by the outcome of a step in a state with the invariant. -/
theorem invariantStatesStopOnlyAsSpecified : Obligations.InvariantStatesStopOnlyAsSpecified := by
  intro s hinv
  rcases step_outcome_of_inv hinv with ⟨hrun, t, ht⟩ | ⟨hstuck, hstop⟩
  · rw [ht]
    exact ⟨nofun, fun f => ⟨nofun, fun h => absurd h.2 hrun⟩⟩
  · rw [hstop]
    refine ⟨nofun, fun f => ⟨?_, ?_⟩⟩
    · rintro ⟨⟩
      exact ⟨rfl, hstuck⟩
    · rintro ⟨rfl, -⟩
      rfl

end Sys2Proof.Machine

/-! PROOF of O45 and O55: a host operation and a step of the sink write apart, so they commute. -/

namespace Sys2Proof.Machine

/-! ## Two sides -/

/-- Settles O45, by the frame of every host operation, and the sink's step through one event. -/
theorem blockAndPanelAreApart : Obligations.BlockAndPanelAreApart := by
  constructor
  · intro i s t hi hexec
    have hframe := hostFrame_of_exec hi hexec
    exact ⟨hframe.panel, hframe.taken, hframe.host⟩
  · intro s t e hfault hnext hstep
    rw [step_event hfault hnext] at hstep
    obtain ⟨q, -, rfl⟩ := consume_panel (s := takeEvent s) hfault hstep
    exact ⟨rfl, rfl, rfl, rfl, rfl, rfl⟩

/-- Settles O55: the operation does not look at the sink, and the sink's event is still there, and next,
behind what the operation appends. -/
theorem sinkLagDoesNotMatter : Obligations.SinkLagDoesNotMatter := by
  intro s u v i e hi hnext hfault hconsume hexec
  obtain ⟨q, hevent, rfl⟩ := consume_panel (s := takeEvent s) hfault hconsume
  obtain ⟨v', hexec', hsink⟩ := exec_sinkAt hi s q (s.taken + 1)
  obtain rfl := Host.Outcome.next.inj (hexec.symm.trans hexec')
  have hframe := hostFrame_of_exec hi hexec
  obtain ⟨es, htrace, -⟩ := hframe.grows
  refine ⟨_, hsink, ?_, ?_⟩
  · rw [htrace, hframe.taken, List.getElem?_append_left (List.getElem?_eq_some_iff.1 hnext).1, hnext]
  · have hfault' : (takeEvent v).panel.fault = .none := hframe.panel ▸ hfault
    have hevent' : panelEvent (takeEvent v).cfg e (takeEvent v).panel = .ok q := by
      rw [takeEvent_cfg, takeEvent_panel, hframe.cfg, hframe.panel]
      exact hevent
    rw [consume_eq e hfault', hevent']
    simp [withPanel, sinkAt, takeEvent, hframe.taken]

end Sys2Proof.Machine

/-! PROOF of O46 and O49: what an input of the host does to `PHASE` and to the trace. -/

namespace Sys2Proof

/-! ## INIT's descriptor -/

/-- INIT has one descriptor, its header word alone. -/
theorem words_of_decode_init {ws : List Word} (h : decodeDescriptor ws = .ok .init) :
    ws = [0x00000003] := by
  obtain ⟨-, henc⟩ := decodeDescriptor_ok (c := Config.hardware) h
  exact (Code.descriptor.inj henc).symm

/-- The bytes of words that decode: each word's four, high byte first. -/
theorem wordsOfBytes_some {bs : List Byte} {ws : List Word} (h : wordsOfBytes bs = some ws) :
    ws.flatMap wordBytes = bs := by
  fun_induction wordsOfBytes bs generalizing ws with
  | case1 => cases h; rfl
  | case2 a b c d rest ih =>
    obtain ⟨ws', hrest, rfl⟩ := Option.map_eq_some_iff.1 h
    rw [List.flatMap_cons, wordBytes_append, ih hrest]
    rfl
  | case3 => cases h

theorem bytes_of_decode_init {bs : List Byte} (h : decodeBytes bs = .ok .init) : bs = [0, 0, 0, 3] := by
  unfold decodeBytes at h
  split at h
  next ws hws =>
    rw [← wordsOfBytes_some hws, words_of_decode_init h]
    rfl
  next => cases h

end Sys2Proof

namespace Sys2Proof.Machine

/-! ## `PHASE` -/

/-- The one input that makes the block `READY` is INIT's descriptor (R134). -/
theorem InputEffect.init_of_ready {s t : State} {inp : HostInput} (h : InputEffect s inp t)
    (hs : s.block.phase ≠ .ready) (ht : t.block.phase = .ready) :
    inp = .operation [0x00000003] ∨ inp = .operationBytes [0, 0, 0, 3] := by
  cases h with
  | op _ i _ hi hexec hin =>
    rcases (hostFrame_of_exec hi hexec).phase with hsame | hfaulted | ⟨rfl, -⟩
    · exact absurd (hsame.symm.trans ht) hs
    · cases hfaulted.symm.trans ht
    · rcases hin with ⟨ws, rfl, hd⟩ | ⟨bs, rfl, hd⟩
      · exact .inl (congrArg _ (words_of_decode_init hd))
      · exact .inr (congrArg _ (bytes_of_decode_init hd))
  | illegal _ tag _ =>
    unfold raiseIllegal at ht
    split at ht
    · exact absurd ht hs
    · cases ht
  | read | cut | powerOnPanel => exact absurd ht hs
  | resetBlock => cases ht

/-- Settles O46, by the cases of a step: the sink does not touch `PHASE`. -/
theorem onlyInitMakesReady : Obligations.OnlyInitMakesReady := by
  intro s t hstep ht hs
  rcases step_cases hstep with ⟨_, _, _, _, _, rfl⟩ | ⟨_, inp, hinput, heffect⟩ | rfl
  · exact absurd ht hs
  · exact ⟨inp, hinput, heffect.init_of_ready (s := advanceHost s) hs ht⟩
  · exact absurd ht hs

/-! ## The trace -/

/-- Every input of the host but the block's reset only appends to the trace (R23, R132). -/
theorem InputEffect.trace_grows {s t : State} {inp : HostInput} (h : InputEffect s inp t) :
    (∃ es, t.trace = s.trace ++ es) ∨ (inp = .resetBlock ∧ t.trace = []) := by
  cases h with
  | op _ i _ hi hexec _ =>
    obtain ⟨es, htrace, -⟩ := (hostFrame_of_exec hi hexec).grows
    exact .inl ⟨es, htrace⟩
  | illegal _ tag _ => exact .inl ⟨[], by rw [raiseIllegal_trace, List.append_nil]⟩
  | read | powerOnPanel => exact .inl ⟨[], (List.append_nil _).symm⟩
  | cut _ _ es _ => exact .inl ⟨es, rfl⟩
  | resetBlock => exact .inr ⟨rfl, rfl⟩

/-- Settles O49, by the cases of a step: the sink does not touch the trace. -/
theorem traceOnlyGrows : Obligations.TraceOnlyGrows := by
  intro s t hstep
  rcases step_cases hstep with ⟨_, _, _, _, _, rfl⟩ | ⟨_, inp, hinput, heffect⟩ | rfl
  · exact .inl ⟨[], (List.append_nil _).symm⟩
  · rcases heffect.trace_grows with hgrows | ⟨rfl, hempty⟩
    · exact .inl hgrows
    · exact .inr ⟨hinput, hempty⟩
  · exact .inl ⟨[], (List.append_nil _).symm⟩

end Sys2Proof.Machine

/-! PROOF of O17: where the bus fails every host operation sends the first of its events alone (R121),
and the block's reset cuts it the same way (R123). -/

namespace Sys2Proof.Machine

/-! ## A failing bus -/

theorem prefixed_setWindowBody {s : State} {ds : List (Option Nat)} (x0 y0 x1 y1 : Int)
    (hf : s.block.fault = .none) :
    Prefixed HostTag.setWindow.code s ds (setWindowBody x0 y0 x1 y1) := by
  by_cases hin : windowInPanel s.cfg x0 y0 x1 y1 = true
  · intro es k hne ht
    rw [setWindowBody, if_pos hin] at ht ⊢
    exact prefixed_perform hf es k hne ht
  · exact prefixed_id (by rw [setWindowBody, if_neg hin, raiseFault_trace])

theorem prefixed_pushPixelsBody {s : State} {ds : List (Option Nat)} (pixels : List Half)
    (hf : s.block.fault = .none) :
    Prefixed HostTag.pushPixels.code s ds (pushPixelsBody pixels) := by
  by_cases hover : pixels.length > s.block.pend.toNat
  · exact prefixed_id (by rw [pushPixelsBody, if_pos hover, raiseFault_trace])
  · intro es k hne ht
    rw [pushPixelsBody, if_neg hover] at ht ⊢
    exact prefixed_perform hf es k hne ht

/-- An operation's body, given by what it sends on a failing bus. -/
theorem exec_body_of_prefixed {i : Instr} {s : State} {ds : List (Option Nat)} {body : State → State}
    (h : Prefixed i.hostTag s ds body)
    (hexec : ∀ d, exec i { s with busDraws := d :: ds } = .next (body { s with busDraws := d :: ds })) :
    ∃ body, Prefixed i.hostTag s ds body
      ∧ ∀ d, exec i { s with busDraws := d :: ds } = .next (body { s with busDraws := d :: ds }) :=
  ⟨body, h, hexec⟩

/-- Every host operation is one body, whatever the draw, and a failing bus cuts what it sends. -/
theorem exec_prefixed {i : Instr} {s : State} (ds : List (Option Nat)) (hi : i.isHostOp = true)
    (hf : s.block.fault = .none) :
    ∃ body, Prefixed i.hostTag s ds body
      ∧ ∀ d, exec i { s with busDraws := d :: ds } = .next (body { s with busDraws := d :: ds }) := by
  cases i with
  | sendCmd op | sendCmdParams op _ =>
    exact exec_body_of_prefixed (prefixed_prologue (prefixed_underrun (prefixed_perform
      (work := fun w => rawCommandEffect s.cfg op (w.emit (cmdFrame op _))) hf))) fun _ => rfl
  | init =>
    exact exec_body_of_prefixed (prefixed_prologue (prefixed_underrun (prefixed_perform
      (work := fun w => initDone (w.emit (s.cfg.initSeq.flatMap initStepEvents))) hf))) fun _ => rfl
  | setWindow _ _ _ _ =>
    exact exec_body_of_prefixed (prefixed_drawing (prefixed_underrun
      (prefixed_setWindowBody _ _ _ _ hf))) fun _ => rfl
  | pushPixels pixels =>
    exact exec_body_of_prefixed (prefixed_drawing (prefixed_pushPixelsBody pixels hf)) fun _ => rfl
  | fillScreen color =>
    exact exec_body_of_prefixed (prefixed_drawing (prefixed_underrun (prefixed_perform
      (work := fillBody s.cfg 0 0 s.cfg.panelW s.cfg.panelH color) hf))) fun _ => rfl
  | fillRect _ _ _ _ color | hline _ _ _ color | vline _ _ _ color =>
    exact exec_body_of_prefixed (prefixed_drawing (prefixed_underrun (prefixed_perform
      (work := fillBody s.cfg _ _ _ _ color) hf))) fun _ => rfl
  | roundRect _ _ _ _ color _ =>
    exact exec_body_of_prefixed (prefixed_drawing (prefixed_underrun (prefixed_perform
      (work := roundRectBody s.cfg _ _ _ _ color _) hf))) fun _ => rfl
  | drawChar ch _ _ fg bg _ =>
    exact exec_body_of_prefixed (prefixed_drawing (prefixed_underrun (prefixed_scale (prefixed_perform
      (work := drawCharBody s.cfg ch _ _ fg bg _) hf)))) fun _ => rfl
  | drawText _ _ fg bg _ text =>
    exact exec_body_of_prefixed (prefixed_drawing (prefixed_underrun (prefixed_scale (prefixed_perform
      (work := drawTextBody s.cfg fg bg _ _ text _) hf)))) fun _ => rfl
  | backlight on =>
    exact ⟨fun u => { u with block := { u.block with bl := on } }, prefixed_id rfl, fun _ => rfl⟩
  | color565 _ _ _ => exact ⟨_, prefixed_prologue (prefixed_id rfl), fun _ => rfl⟩
  | charSize _ | textWidth _ _ =>
    exact ⟨_, prefixed_prologue (prefixed_scale (prefixed_id rfl)), fun _ => rfl⟩
  | reservedHostTag _ _ => exact ⟨_, prefixed_id (raiseIllegal_trace _ _), fun _ => rfl⟩
  | swreset | slpout | dispon | caset | raset | ramwr | madctl | colmod | vendor _
  | unmodelled _ => cases hi

/-- On a failing bus an operation sends the first `k` of its events and faults (R121). -/
theorem exec_failingBus {i : Instr} {s t : State} {es : List BusEvent} (ds : List (Option Nat)) (k : Nat)
    (hi : i.isHostOp = true) (hf : s.block.fault = .none) (hne : es ≠ [])
    (hexec : exec i { s with busDraws := none :: ds } = .next t) (htrace : t.trace = s.trace ++ es) :
    exec i { s with busDraws := some k :: ds } = .next
      { stopped s .busFault i.hostTag with
        trace := s.trace ++ es.take k
        lines := driveLines s.lines (es.take k)
        busDraws := ds } := by
  obtain ⟨body, hcut, hbody⟩ := exec_prefixed ds hi hf
  obtain rfl := Host.Outcome.next.inj (hexec.symm.trans (hbody none))
  rw [hbody, hcut es k hne htrace]

/-- Settles O17: a failing bus by the operation's body; the reset that cuts an operation by the step that
takes it, which puts the reset before the coming inputs. -/
theorem failingBusSendsAPrefix : Obligations.FailingBusSendsAPrefix := by
  intro s t i es k hi
  refine ⟨fun ds hf hne hexec htrace => exec_failingBus ds k hi hf hne hexec htrace, ?_⟩
  intro words hturn hinput hd hexec htrace
  have hpos : s.host.pos + 1 ≤ s.host.inputs.length := (List.getElem?_eq_some_iff.1 hinput).1
  refine ⟨withNextInput .resetBlock (advanceHost s).host, withNextInput_next _ _,
    withNextInput_pos hpos, withNextInput_rest _ _, ?_⟩
  rw [step_input hturn hinput, takeInput, hd, cutByReset,
    runPartly_eq (s := advanceHost s) k hexec htrace]
  rfl

end Sys2Proof.Machine

/-! PROOF of O24: on a healthy bus no tag is recorded, so a fill is the same under every operation's
(R84 to R86). -/

namespace Sys2Proof.Machine

/-! ## The degenerate fills -/

/-- The tag is only recorded where the bus fails. -/
theorem perform_tag_of_healthy {s : State} {work : Work → Work} (tag tag' : Byte) (hb : BusHealthy s) :
    perform tag work s = perform tag' work s := by
  by_cases hout : (work (Work.start s.block)).out = []
  · rw [perform, perform, commit_nil hout, commit_nil hout]
  · rw [perform, perform, commit_healthy hout hb, commit_healthy hout hb]

/-- FILL_RECT of a block that may draw is its fill, under any tag (R82). -/
theorem exec_fillRect_of_canDraw {s : State} (x y w h : Word) (color : Half) (tag : Byte)
    (hdraw : CanDraw s) :
    exec (.fillRect x y w h color) s
      = .next (perform tag (fillBody s.cfg x.toInt y.toInt w.toInt h.toInt color) s) := by
  obtain ⟨hready, hpend, hbus⟩ := hdraw
  rw [exec_fillRect_ready _ _ _ _ _ hready hpend, perform_tag_of_healthy _ tag hbus]

/-- A size of the panel as an operand (R12). -/
theorem toInt_ofNat_of_fits {n : Nat} (h : n ≤ 65535) : (BitVec.ofNat 32 n).toInt = n := by
  have hnat : (BitVec.ofNat 32 n).toNat = n := by
    rw [BitVec.toNat_ofNat, Nat.mod_eq_of_lt (by omega)]
  rw [BitVec.toInt_eq_toNat_of_lt (by omega), hnat]

/-- Settles O24, by the one fill each pair of operations is behind the same gates. -/
theorem degenerateFillsAreFillRects : Obligations.DegenerateFillsAreFillRects := by
  intro s x y len color hdraw hfits
  obtain ⟨hW, hH⟩ := hfits
  have ⟨hready, hpend, _⟩ := hdraw
  refine ⟨⟨_, congrArg Host.Outcome.next (drawing_gates_pass hready hpend), ?_⟩,
    ⟨_, congrArg Host.Outcome.next (drawing_gates_pass hready hpend),
      exec_fillRect_of_canDraw _ _ _ _ _ _ hdraw⟩,
    ⟨_, congrArg Host.Outcome.next (drawing_gates_pass hready hpend),
      exec_fillRect_of_canDraw _ _ _ _ _ _ hdraw⟩⟩
  rw [exec_fillRect_of_canDraw _ _ _ _ _ HostTag.fillScreen.code hdraw, toInt_ofNat_of_fits hW,
    toInt_ofNat_of_fits hH]
  rfl

end Sys2Proof.Machine

/-! PROOF of O25 and O26: ROUND_RECT's four bars, each a fill of its own (R87), and the sink's run through
them. -/

namespace Sys2Proof.Machine

/-! ## ROUND_RECT -/

/-- ROUND_RECT past its gates is its four bars. -/
theorem exec_roundRect_ready {s : State} (x y w h : Word) (color : Half) (t : Word)
    (hready : s.block.phase = .ready) (hpend : s.block.pend = 0) :
    exec (.roundRect x y w h color t) s = .next (perform HostTag.roundRect.code
      (roundRectBody s.cfg x.toInt y.toInt w.toInt h.toInt color t.toInt) s) :=
  congrArg Host.Outcome.next (drawing_gates_pass hready hpend)

/-- Four bars of which one at least meets the panel, on a healthy bus. -/
theorem perform_roundRect {s : State} {tag : Byte} {x y w h t : Int} {color : Half}
    (hfits : s.cfg.panelFits) (hb : BusHealthy s)
    (hbar : ∃ win ∈ barWindows s.cfg x y w h t, win ≠ none) :
    perform tag (roundRectBody s.cfg x y w h color t) s
      = sent s ((barWindows s.cfg x y w h t).flatMap fun win => paintEvents s.cfg win (solid color))
          (paintAllRegs (barWindows s.cfg x y w h t) s.block) := by
  rw [perform, roundRectBody_eq _ _ _ _ _ _ _ _ hfits]
  exact commit_healthy (paintEvents_flatMap_ne_nil hbar) hb

theorem paintEvents_flatMap_nil {c : Config} {wins : List (Option Window)} {px : Window → List Half}
    (h : ∀ win ∈ wins, win = none) : (wins.flatMap fun win => paintEvents c win px) = [] :=
  List.flatMap_eq_nil_iff.2 fun win hwin => by rw [h win hwin, paintEvents]

/-- Four empty bars do nothing, so the bus is not drawn. -/
theorem perform_roundRect_empty {s : State} {tag : Byte} {x y w h t : Int} {color : Half}
    (hfits : s.cfg.panelFits) (hbars : ∀ win ∈ barWindows s.cfg x y w h t, win = none) :
    perform tag (roundRectBody s.cfg x y w h color t) s = s := by
  rw [perform, roundRectBody_eq _ _ _ _ _ _ _ _ hfits, Work.start_block, paintAllRegs_none hbars]
  exact commit_nil (paintEvents_flatMap_nil hbars)

/-- Settles O25, by the bars in each case: one at least meets the panel, or none does. -/
theorem roundRectDrawsFourBars : Obligations.RoundRectDrawsFourBars := by
  intro s x y w h color t hfits
  constructor
  · rintro ⟨hready, hpend, hbus⟩ hbar
    rw [exec_roundRect_ready _ _ _ _ _ _ hready hpend, perform_roundRect hfits hbus hbar]
  · intro hready hpend hbars
    rw [exec_roundRect_ready _ _ _ _ _ _ hready hpend, perform_roundRect_empty hfits hbars]

/-! ## The pixels of ROUND_RECT -/

/-- The events of ROUND_RECT, be its bars empty or not. -/
theorem exec_roundRect_trace {s : State} (x y w h : Word) (color : Half) (t : Word) (hdraw : CanDraw s)
    (hfits : s.cfg.panelFits) :
    ∃ u, exec (.roundRect x y w h color t) s = .next u
      ∧ u.trace = s.trace ++ (barWindows s.cfg x.toInt y.toInt w.toInt h.toInt t.toInt).flatMap
          fun win => paintEvents s.cfg win (solid color) := by
  have hbars := roundRectDrawsFourBars s x y w h color t hfits
  by_cases hbar : ∃ win ∈ barWindows s.cfg x.toInt y.toInt w.toInt h.toInt t.toInt, win ≠ none
  · exact ⟨_, hbars.1 hdraw hbar, rfl⟩
  · have hnone : ∀ win ∈ barWindows s.cfg x.toInt y.toInt w.toInt h.toInt t.toInt, win = none :=
      fun win hwin => not_not.1 fun hne => hbar ⟨win, hwin, hne⟩
    obtain ⟨hready, hpend, -⟩ := hdraw
    exact ⟨s, hbars.2 hready hpend hnone, by rw [paintEvents_flatMap_nil hnone, List.append_nil]⟩

/-- The sink's steps through everything a host operation sent, to the end of the trace. -/
theorem run_after_hostOp {i : Instr} {s u : State} {es : List BusEvent} {p : Panel}
    (hi : i.isHostOp = true) (htaken : s.taken = s.trace.length) (hexec : exec i s = .next u)
    (htrace : u.trace = s.trace ++ es) (hrun : panelRun s.cfg es s.panel = some p) :
    Host.Core.run core es.length u = .next { u with taken := u.trace.length, panel := p } := by
  have hframe := hostFrame_of_exec hi hexec
  have hpending : pending u = es ++ [] := by simp [pending, htrace, hframe.taken, htaken]
  have hpos : u.taken + es.length = u.trace.length := by simp [htrace, hframe.taken, htaken]
  rw [← hframe.cfg, ← hframe.panel] at hrun
  rw [run_panelRun hpending hrun, hpos]

/-- The bars are windows of the panel. -/
theorem barWindows_in {c : Config} {x y w h t : Int} :
    ∀ win ∈ barWindows c x y w h t, ∀ v, win = some v → WindowIn c v := by
  intro win hwin v hv
  simp only [barWindows, List.mem_cons, List.not_mem_nil, or_false] at hwin
  rcases hwin with rfl | rfl | rfl | rfl <;> exact fillWindow_in hv

/-- No cell of a corner square lies in a bar: a bar begins and ends an inset away from the corners along
one of the two directions (R87). -/
theorem corner_not_in_bars {x y w h t : Int} {b : Nat} {i j : Half}
    (hcorner : inBox x y b b i j ∨ inBox (x + w - b) y b b i j ∨ inBox x (y + h - b) b b i j
      ∨ inBox (x + w - b) (y + h - b) b b i j) :
    ¬(inBox (x + b) y (w - 2 * b) t i j ∨ inBox (x + b) (y + h - t) (w - 2 * b) t i j
      ∨ inBox x (y + b) t (h - 2 * b) i j ∨ inBox (x + w - t) (y + b) t (h - 2 * b) i j) := by
  have hcol : (i.toNat : Int) < x + b ∨ x + w - b ≤ i.toNat := by
    rcases hcorner with h | h | h | h <;> omega
  have hrow : (j.toNat : Int) < y + b ∨ y + h - b ≤ j.toNat := by
    rcases hcorner with h | h | h | h <;> omega
  rintro (h | h | h | h) <;> omega

/-- Settles O26, by the sink's run through the bars, whose cells are no corner's. -/
theorem roundRectLeavesItsCorners : Obligations.RoundRectLeavesItsCorners := by
  intro s x y w h color t hdraw htaken hf hst hcl hm hc hd hfits b
  obtain ⟨u, hexec, htrace⟩ := exec_roundRect_trace x y w h color t hdraw hfits
  obtain ⟨q, hrun, hqf, hgram⟩ := panelRun_fills color hd hfits _ barWindows_in s.panel hf hst hcl hm hc
  simp only [barWindows_hold] at hgram
  refine ⟨u, _, _, hexec, run_after_hostOp rfl htaken hexec htrace hrun, rfl, rfl, hqf, ?_, ?_⟩
  · intro i j
    obtain ⟨hinside, houtside⟩ := hgram i j
    split
    case isTrue hbars => exact hinside hbars
    case isFalse hbars => exact houtside hbars
  · intro i j hcorner
    exact (hgram i j).2 fun hbars => corner_not_in_bars hcorner hbars.2

end Sys2Proof.Machine

/-! PROOF of O28: a burst is a part of the fill's words, none empty (R76). -/

namespace Sys2Proof.Machine

/-- A burst is a full chunk, or the remainder. -/
theorem mem_bursts {chunk n k : Nat} (h : k ∈ bursts chunk n) :
    k = chunk ∨ (k = n % chunk ∧ n % chunk ≠ 0) := by
  rw [bursts, List.mem_append] at h
  rcases h with hfull | hrest
  · exact .inl (List.eq_of_mem_replicate hfull)
  · split at hrest
    · cases hrest
    next hne => exact .inr ⟨List.mem_singleton.1 hrest, hne⟩

/-- Settles O28, by the words of all bursts together, and the two kinds of burst. -/
theorem burstsDoNotShow : Obligations.BurstsDoNotShow := by
  intro c n color
  refine ⟨fillPixels_eq c n color, fun hchunk k hk => ?_⟩
  have hmod := Nat.mod_lt n hchunk
  rcases mem_bursts hk with rfl | ⟨rfl, hne⟩
  · exact ⟨hchunk, le_rfl⟩
  · exact ⟨Nat.pos_of_ne_zero hne, hmod.le⟩

end Sys2Proof.Machine

/-! PROOF of O29 and O30: the three operations that only compute (R88, R93, R96). -/

namespace Sys2Proof.Machine

/-! ## COLOR565 -/

theorem and_F8_toNat (r : Byte) : (r &&& 0xF8).toNat = r.toNat / 8 * 8 := by
  revert r; decide

theorem and_FC_toNat (g : Byte) : (g &&& 0xFC).toNat = g.toNat / 4 * 4 := by
  revert g; decide

/-- The three channels lie side by side, so packing them is a sum (R88). -/
theorem packColor_toNat (r g b : Byte) :
    (packColor r g b).toNat = r.toNat / 8 * 2048 + g.toNat / 4 * 32 + b.toNat / 8 := by
  have hr := r.isLt
  have hg := g.isLt
  have hb := b.isLt
  have hred : (((r &&& 0xF8).setWidth 16) <<< 8).toNat = (r.toNat / 8) <<< 11 := by
    simp only [BitVec.toNat_shiftLeft, BitVec.toNat_setWidth, and_F8_toNat, Nat.shiftLeft_eq]
    omega
  have hgreen : (((g &&& 0xFC).setWidth 16) <<< 3).toNat = (g.toNat / 4) <<< 5 := by
    simp only [BitVec.toNat_shiftLeft, BitVec.toNat_setWidth, and_FC_toNat, Nat.shiftLeft_eq]
    omega
  have hblue : ((b >>> 3).setWidth 16).toNat = b.toNat / 8 := by
    simp only [BitVec.toNat_setWidth, BitVec.toNat_ushiftRight, Nat.shiftRight_eq_div_pow]
    omega
  rw [packColor, BitVec.toNat_or, BitVec.toNat_or, hred, hgreen, hblue, Nat.lor_assoc,
    ← Nat.shiftLeft_add_eq_or_of_lt (b := b.toNat / 8) (by omega),
    ← Nat.shiftLeft_add_eq_or_of_lt (by rw [Nat.shiftLeft_eq]; omega)]
  simp only [Nat.shiftLeft_eq]
  omega

/-- Settles O29, by the packed colour's number. -/
theorem colorPackingResult : Obligations.ColorPackingResult := by
  intro s r g b hphase
  have hpack : (packColor r g b).setWidth 32
      = BitVec.ofNat 32 (r.toNat / 8 * 2048 + g.toNat / 4 * 32 + b.toNat / 8) := by
    rw [← packColor_toNat]
    apply BitVec.eq_of_toNat_eq
    simp
  rw [← hpack]
  exact congrArg Host.Outcome.next (prologue_run hphase)

/-! ## CHAR_SIZE and TEXT_WIDTH -/

/-- A scale that is not 0 passes both gates of an operation that only computes. -/
theorem scale_gates_pass {tag scale : Byte} {body : State → State} {s : State}
    (hphase : s.block.phase ≠ .faulted) (hscale : scale ≠ 0) :
    prologue (scaleCheck tag scale body) s = body s := by
  rw [prologue_run hphase, scaleCheck_ok hscale]

/-- Settles O30: neither number is too large for its register. -/
theorem sizeAndWidthResults : Obligations.SizeAndWidthResults := by
  intro s scale hphase hscale
  have hlt := scale.isLt
  constructor
  · refine ⟨_, ?_, congrArg Host.Outcome.next (scale_gates_pass hphase hscale)⟩
    rw [BitVec.toNat_ofNat, Nat.mod_eq_of_lt (by omega)]
  · intro text hlen
    refine ⟨_, ?_, congrArg Host.Outcome.next (scale_gates_pass hphase hscale)⟩
    have hbound : text.length * 16 * scale.toNat ≤ 65535 * 16 * 255 :=
      Nat.mul_le_mul (by omega) (by omega)
    rw [BitVec.toNat_ofNat, Nat.mod_eq_of_lt (by omega)]

end Sys2Proof.Machine

/-! PROOF of O33: DRAW_TEXT is one glyph a character, each drawn or skipped on its own (R95). -/

namespace Sys2Proof.Machine

/-! ## DRAW_TEXT -/

/-- The window of the character at place `k` of a text. -/
def textWindow (c : Config) (x y : Int) (scale k : Nat) : Option Window :=
  glyphWindow c (x + k * 16 * scale) y scale

/-- The events of a text: each character's, none where it is skipped. -/
def textEvents (c : Config) (x y : Int) (fg bg : Half) (scale : Nat) (text : List Byte) : List BusEvent :=
  text.zipIdx.flatMap fun chk => paintEvents c (textWindow c x y scale chk.2)
    fun _ => glyphPixelList c.glyphRom chk.1 fg bg scale

/-- DRAW_TEXT's loop, from its first character. -/
theorem drawTextBody_start (c : Config) (fg bg : Half) {scale : Nat} (x y : Int) (text : List Byte)
    (b : Block) (hfits : c.panelFits) (hscale : 0 < scale) :
    drawTextBody c fg bg scale y text x (Work.start b) =
      { block := paintAllRegs ((List.range text.length).map (textWindow c x y scale)) b
        out := textEvents c x y fg bg scale text } := by
  have h := drawTextBody_eq c fg bg y hfits hscale text x 0 (Work.start b)
  rw [zipIdx_map_snd text 0 fun k => glyphWindow c (x + k * 16 * scale) y scale,
    ← List.range_eq_range'] at h
  simp only [Nat.cast_zero, zero_mul, add_zero, Work.start_block, Work.start_out, List.nil_append] at h
  exact h

theorem textEvents_ne_nil {c : Config} {x y : Int} {fg bg : Half} {scale : Nat} {text : List Byte}
    (h : ∃ k < text.length, textWindow c x y scale k ≠ none) :
    textEvents c x y fg bg scale text ≠ [] := by
  obtain ⟨k, hk, hne⟩ := h
  obtain ⟨win, hwin⟩ := Option.ne_none_iff_exists'.1 hne
  intro hnil
  have hmem : (text[k], k) ∈ text.zipIdx := List.mk_mem_zipIdx_iff_getElem?.2 (List.getElem?_eq_getElem hk)
  have hchar := List.flatMap_eq_nil_iff.1 hnil _ hmem
  rw [hwin] at hchar
  exact paintEvents_ne_nil hchar

theorem textEvents_nil {c : Config} {x y : Int} {fg bg : Half} {scale : Nat} {text : List Byte}
    (h : ∀ k < text.length, textWindow c x y scale k = none) :
    textEvents c x y fg bg scale text = [] := by
  refine List.flatMap_eq_nil_iff.2 fun chk hchk => ?_
  have hk : chk.2 < text.length := (List.getElem?_eq_some_iff.1 (List.mem_zipIdx_iff_getElem?.1 hchk)).1
  rw [h _ hk, paintEvents]

/-- DRAW_TEXT past its gates is its loop. -/
theorem exec_drawText_ready {s : State} (x y : Word) (fg bg : Half) {scale : Byte} (text : List Byte)
    (hready : s.block.phase = .ready) (hpend : s.block.pend = 0) (hscale : scale ≠ 0) :
    exec (.drawText x y fg bg scale text) s = .next (perform HostTag.drawText.code
      (drawTextBody s.cfg fg bg scale.toNat y.toInt text x.toInt) s) :=
  congrArg Host.Outcome.next ((drawing_gates_pass hready hpend).trans (scaleCheck_ok hscale))

/-- Settles O33, by the loop in each case: a character at least fits, or all are skipped. -/
theorem drawTextResult : Obligations.DrawTextResult := by
  intro s x y fg bg scale text hscale hfits
  have hloop := drawTextBody_start s.cfg fg bg x.toInt y.toInt text s.block hfits (scale_toNat_pos hscale)
  constructor
  · rintro ⟨hready, hpend, hbus⟩ hfit
    rw [exec_drawText_ready _ _ _ _ _ hready hpend hscale, perform, hloop]
    exact congrArg Host.Outcome.next (commit_healthy (textEvents_ne_nil hfit) hbus)
  · intro hready hpend hskip
    have hregs : paintAllRegs ((List.range text.length).map
        (textWindow s.cfg x.toInt y.toInt scale.toNat)) s.block = s.block := by
      refine paintAllRegs_none fun win hwin => ?_
      obtain ⟨k, hk, rfl⟩ := List.mem_map.1 hwin
      exact hskip k (List.mem_range.1 hk)
    rw [exec_drawText_ready _ _ _ _ _ hready hpend hscale, perform, hloop, hregs]
    exact congrArg Host.Outcome.next (commit_nil (textEvents_nil hskip))

end Sys2Proof.Machine

/-! PROOF of O39 and O40: a command byte at a sink that accepts it, and the bytes it collects, run as the
events they are (R102, R106, R107, R110 to R112). -/

namespace Sys2Proof.Machine

/-! ## A command byte and its parameter bytes -/

/-- A command byte at a sink that accepts it has the command's own effect (R101). -/
theorem panelRun_command {c : Config} {p : Panel} (b : Byte) (es : List BusEvent) (h : PanelAccepts p) :
    panelRun c (.cmd b :: es) p = panelRun c es (panelEffect c (decodeCommand c b) p) :=
  panelRun_cons es h.1 (by rw [panelEvent, commandCheck_accepts h])

/-- The command byte of a command that collects bytes opens it. -/
theorem panelRun_opening {c : Config} {p : Panel} {b : Byte} {i : Instr} {op : OpenCommand}
    {es : List BusEvent} (h : PanelAccepts p) (hdecode : decodeCommand c b = i)
    (heffect : panelEffect c i p = { p with mode := .params op [] }) :
    panelRun c (.cmd b :: es) p = panelRun c es { p with mode := .params op [] } := by
  rw [panelRun_command b es h, hdecode, heffect]

/-- A data byte is the next parameter byte of the command that collects them (R102). -/
theorem panelEvent_param {c : Config} {op : OpenCommand} {bytes : List Byte} {d : Byte} (p : Panel)
    (h : PanelTakesData p) :
    panelEvent c (.dat d) { p with mode := .params op bytes }
      = .ok (paramByte c op bytes d { p with mode := .params op bytes }) := by
  simp only [panelEvent, dataByte, byteCheck_takes (p := { p with mode := .params op bytes }) h]

/-- A parameter byte that is not the last is kept. -/
theorem panelRun_param_kept {c : Config} {op : OpenCommand} {bytes : List Byte} {d : Byte}
    {es : List BusEvent} (p : Panel) (h : PanelTakesData p)
    (hcount : paramCount op ≠ some (bytes ++ [d]).length) :
    panelRun c (.dat d :: es) { p with mode := .params op bytes }
      = panelRun c es { p with mode := .params op (bytes ++ [d]) } :=
  panelRun_cons es h.1 ((panelEvent_param p h).trans (congrArg Except.ok (if_neg hcount)))

/-- The last parameter byte applies the command and ends it, unless applying it faults. -/
theorem panelRun_param_last {c : Config} {op : OpenCommand} {bytes : List Byte} {d : Byte} (p : Panel)
    (h : PanelTakesData p) (hcount : paramCount op = some (bytes ++ [d]).length) :
    panelRun c [.dat d] { p with mode := .params op bytes }
      = some (if (applyParams c op (bytes ++ [d]) { p with mode := .params op bytes }).fault = .none
          then { applyParams c op (bytes ++ [d]) { p with mode := .params op bytes } with mode := .idle }
          else applyParams c op (bytes ++ [d]) { p with mode := .params op bytes }) :=
  panelRun_cons [] h.1 ((panelEvent_param p h).trans (congrArg Except.ok (if_pos hcount)))

/-! ## Ranges -/

/-- Four bytes that give no range leave the old one and the fault (R106, R107). -/
theorem panelRun_badRange {c : Config} {op : OpenCommand} {b0 b1 b2 b3 : Byte} (p : Panel)
    (h : PanelTakesData p) (hcount : paramCount op = some 4)
    (hbad : ∀ q, applyParams c op [b0, b1, b2, b3] q = raisePanel .badRange q) :
    panelRun c ([b0, b1, b2, b3].map .dat) { p with mode := .params op [] }
      = some { p with fault := .badRange, mode := .params op [b0, b1, b2] } := by
  simp only [List.map_cons, List.map_nil]
  rw [panelRun_param_kept p h (by simp [hcount]), panelRun_param_kept p h (by simp [hcount]),
    panelRun_param_kept p h (by simp [hcount]), panelRun_param_last p h (by simp [hcount])]
  simp [hbad, raisePanel, h.1]

/-- A column range out of order or off the panel is refused, whatever the sink (R106). -/
theorem applyParams_caset_bad {c : Config} {st en : Half}
    (hbad : en.toNat < st.toNat ∨ c.panelW ≤ en.toNat) (q : Panel) :
    applyParams c .caset (beBytes st.toNat ++ beBytes en.toNat) q = raisePanel .badRange q := by
  have hrange : rangeOf (beBytes st.toNat ++ beBytes en.toNat) = some (st, en) := rangeOf_beBytes st en
  simp only [applyParams, applyCaset, hrange]
  exact if_pos hbad

/-- A row range out of order or off the panel is refused, whatever the sink (R107). -/
theorem applyParams_raset_bad {c : Config} {st en : Half}
    (hbad : en.toNat < st.toNat ∨ c.panelH ≤ en.toNat) (q : Panel) :
    applyParams c .raset (beBytes st.toNat ++ beBytes en.toNat) q = raisePanel .badRange q := by
  have hrange : rangeOf (beBytes st.toNat ++ beBytes en.toNat) = some (st, en) := rangeOf_beBytes st en
  simp only [applyParams, applyRaset, hrange]
  exact if_pos hbad

/-- Settles O39, by the command byte, then its four bytes: a range, or none. -/
theorem rangeCommandsApply : Obligations.RangeCommandsApply := by
  intro s st en haccepts hd
  have ⟨hf, hcs, hst, _⟩ := haccepts
  obtain ⟨-, -, -, hcaset, hraset, -⟩ := decodeCommand_named hd
  constructor
  · intro rest hpending
    constructor
    · intro hle hlt
      exact run_events rfl hpending ((panelRun_opening haccepts hcaset rfl).trans
        (panelRun_caset_bytes st en hf hcs hst rfl hle hlt))
    · intro hbad
      exact ⟨_, run_events rfl hpending ((panelRun_opening haccepts hcaset rfl).trans
        (panelRun_badRange s.panel ⟨hf, hcs, hst⟩ rfl (applyParams_caset_bad hbad)))⟩
  · intro rest hpending
    constructor
    · intro hle hlt
      exact run_events rfl hpending ((panelRun_opening haccepts hraset rfl).trans
        (panelRun_raset_bytes st en hf hcs hst rfl hle hlt))
    · intro hbad
      exact ⟨_, run_events rfl hpending ((panelRun_opening haccepts hraset rfl).trans
        (panelRun_badRange s.panel ⟨hf, hcs, hst⟩ rfl (applyParams_raset_bad hbad)))⟩

/-! ## Modes and vendor commands -/

/-- A command of one byte that any byte suits (R110, R111). -/
theorem panelRun_mode_command {c : Config} {p : Panel} {b d : Byte} {i : Instr} {op : OpenCommand}
    (h : PanelAccepts p) (hdecode : decodeCommand c b = i)
    (heffect : panelEffect c i p = { p with mode := .params op [] }) (hcount : paramCount op = some 1)
    (hok : (applyParams c op [d] { p with mode := .params op [] }).fault = .none) :
    panelRun c [.cmd b, .dat d] p
      = some { applyParams c op [d] { p with mode := .params op [] } with mode := .idle } := by
  have ⟨hf, hcs, hst, _⟩ := h
  rw [panelRun_opening h hdecode heffect]
  exact (panelRun_param_last p ⟨hf, hcs, hst⟩ hcount).trans (congrArg some (if_pos hok))

/-- Settles O40, by the command byte, then the bytes each command takes. -/
theorem modeAndVendorCommandsApply : Obligations.ModeAndVendorCommandsApply := by
  intro s haccepts hd hv
  have ⟨hf, hcs, hst, _⟩ := haccepts
  obtain ⟨-, -, -, -, -, -, hmadctl, hcolmod⟩ := decodeCommand_named hd
  refine ⟨?_, ?_, ?_⟩
  · intro d rest hpending
    exact run_events (es := [.cmd s.cfg.opMadctl, .dat d]) rfl hpending
      (panelRun_mode_command (op := .madctl) haccepts hmadctl rfl rfl hf)
  · intro d rest hpending
    exact run_events (es := [.cmd s.cfg.opColmod, .dat d]) rfl hpending
      (panelRun_mode_command (op := .colmod) haccepts hcolmod rfl rfl hf)
  · intro op bytes rest hop hpending
    have hbytes := panelRun_vendor_bytes (c := s.cfg) (op := op) bytes
      (p := { s.panel with mode := .params (.vendor op) [] }) hf hcs hst rfl
    exact run_events (by simp [Nat.add_comm]) hpending
      ((panelRun_opening haccepts (decodeCommand_vendor hv hop) rfl).trans hbytes)

end Sys2Proof.Machine

/-! PROOF of O43: the high byte waits, the low byte writes the cell the counter is at (R109). -/

namespace Sys2Proof.Machine

/-! ## A pixel word -/

/-- A data byte in a memory write is a pixel byte (R109). -/
theorem panelEvent_pixelByte {c : Config} {p : Panel} (d : Byte) (h : PanelTakesData p)
    (hm : p.mode = .memWrite) : panelEvent c (.dat d) p = pixelByte c d p := by
  simp only [panelEvent, dataByte, byteCheck_takes h, hm]

/-- The end of a range that is set is inside the panel (R106, R107). -/
theorem lt_of_rangeOk {st en : Option Half} {bound : Nat} {b : Half} (h : RangeOk st en bound)
    (hen : en = some b) : b.toNat < bound := by
  subst hen
  obtain ⟨-, hnone⟩ | ⟨_, _, -, ⟨⟩, -, hlt⟩ := h
  · cases hnone
  · exact hlt

/-- In an unfilled window the counter is at a cell of it, and so of the panel. -/
theorem counter_in_window {c : Config} {p : Panel} {cx cy ec : Half} (h : PanelInv c p)
    (hm : p.mode = .memWrite) (hr : p.remain ≠ 0) (hcx : p.cx = some cx) (hcy : p.cy = some cy)
    (hec : p.ec = some ec) : cx.toNat ≤ ec.toNat ∧ cx.toNat < c.panelW ∧ cy.toNat < c.panelH := by
  obtain ⟨sc, ec, sp, ep, cx, cy, hsc, hec', hsp, hep, hcx', hcy', -, hcol, -, hrow, hcount⟩ :=
    h.counter hm
  obtain rfl := Option.some.inj (hcx'.symm.trans hcx)
  obtain rfl := Option.some.inj (hcy'.symm.trans hcy)
  obtain rfl := Option.some.inj (hec'.symm.trans hec)
  have hcols := lt_of_rangeOk h.columns hec
  have hrows := lt_of_rangeOk h.rows hep
  have hleft : p.remain.toNat ≠ 0 := fun h0 => hr (BitVec.eq_of_toNat_eq h0)
  have hlast : cy.toNat ≠ ep.toNat + 1 := by
    intro hpast
    rw [hpast, Nat.sub_self, Nat.zero_mul] at hcount
    omega
  omega

/-- The high byte waits. -/
theorem pixelByte_high {c : Config} {p : Panel} (d : Byte) (hhalf : p.half = none) (hr : p.remain ≠ 0) :
    pixelByte c d p = .ok { p with half := some d } := by
  simp only [pixelByte, hhalf, if_neg hr]

/-- The low byte writes the cell under the counter, which moves on in raster order. -/
theorem pixelByte_low {c : Config} {p : Panel} {hi : Byte} {cx cy sc ec : Half} (d : Byte)
    (hhalf : p.half = some hi) (hcx : p.cx = some cx) (hcy : p.cy = some cy) (hsc : p.sc = some sc)
    (hec : p.ec = some ec) (hcol : cx.toNat ≤ ec.toNat) (hx : cx.toNat < c.panelW)
    (hy : cy.toNat < c.panelH) :
    pixelByte c d p = .ok { p with
      gram := gramWrite p.gram (gramKey cx cy) (joinBytes hi d)
      half := none
      remain := p.remain - 1
      cx := if cx = ec then some sc else some (cx + 1)
      cy := if cx = ec then some (cy + 1) else some cy } := by
  have hend : cx.toNat + 1 > ec.toNat ↔ cx = ec := by
    rw [← BitVec.toNat_inj]
    omega
  simp only [pixelByte, hhalf, hcx, hcy, hsc, hec, if_pos (And.intro hx hy), hend]

/-- Settles O43, by the two bytes of the word. -/
theorem pixelWordWritesItsCell : Obligations.PixelWordWritesItsCell := by
  intro s v cx cy sc ec rest htakes hinv _ hm hhalf hr hcx hcy hsc hec hpending
  obtain ⟨hcol, hx, hy⟩ := counter_in_window hinv hm hr hcx hcy hec
  refine ⟨gramWrite s.panel.gram (gramKey cx cy) v, run_events rfl hpending ?_,
    gramRead_write_same _ _ _, ?_⟩
  · have hhigh := (panelEvent_pixelByte (c := s.cfg) _ htakes hm).trans
      (pixelByte_high (BitVec.ofNat 8 (v.toNat / 256)) hhalf hr)
    have hlow := (panelEvent_pixelByte (c := s.cfg) _
      (p := { s.panel with half := some (BitVec.ofNat 8 (v.toNat / 256)) }) htakes hm).trans
      (pixelByte_low (BitVec.ofNat 8 (v.toNat % 256)) rfl hcx hcy hsc hec hcol hx hy)
    refine ((panelRun_cons _ htakes.1 hhigh).trans (panelRun_cons [] htakes.1 hlow)).trans ?_
    simp [panelRun, hhalf, joinBytes_beBytes]
  · intro x y hother
    refine gramRead_write_other _ _ fun hsame => ?_
    obtain ⟨rfl, rfl⟩ := gramKey_inj.1 hsame
    rcases hother with h | h <;> exact h rfl

end Sys2Proof.Machine

/-! PROOF of O56 and O58: a window's set-up and its pixels, run by the sink to the end of the trace. -/

namespace Sys2Proof.Machine

/-! ## A stream at the panel -/

/-- The sink's steps through all that is pending, to the end of the trace. -/
theorem run_pending {s : State} {es : List BusEvent} {p : Panel} (hpending : pending s = es)
    (hne : es ≠ []) (hrun : panelRun s.cfg es s.panel = some p) :
    Host.Core.run core es.length s = .next { s with taken := s.trace.length, panel := p } := by
  have hlen : es.length = s.trace.length - s.taken := by rw [← hpending, pending, List.length_drop]
  have hpos : 0 < es.length := List.length_pos_iff.2 hne
  have hend : s.taken + es.length = s.trace.length := by omega
  rw [run_panelRun (hpending.trans (List.append_nil es).symm) hrun, hend]

/-- Settles O56, by the sink's run through the window, and what GRAM then holds. -/
theorem streamFillsItsWindowInRasterOrder : Obligations.StreamFillsItsWindowInRasterOrder := by
  intro s win pixels hf hst hcl hm hc hd hfits hx hx1 hy hy1 hlen hpending
  have hw : WindowIn s.cfg win := ⟨hx, hx1, hy, hy1⟩
  have hne : setupEvents s.cfg win.x0 win.y0 win.x1 win.y1 ++ pixelEvents pixels ≠ [] :=
    List.append_ne_nil_of_left_ne_nil (setupEvents_ne_nil _ _ _ _ _) _
  exact ⟨_, _, run_pending hpending hne (panelRun_paint hf hst hcl hm hc hd hfits hw hlen), rfl, rfl, rfl,
    hf, rfl, rfl, rfl, rfl, gramRead_window hfits hw hlen s.panel.gram⟩

/-! ## A glyph's pixels -/

/-- A glyph inside the panel is its own window. -/
theorem glyphWindow_inside {c : Config} {x y s : Nat} (hx : x + 16 * s ≤ c.panelW)
    (hy : y + 16 * s ≤ c.panelH) (hs : 0 < s) :
    glyphWindow c x y s = some ⟨x, y, x + 16 * s - 1, y + 16 * s - 1⟩ := by
  rw [glyphWindow, if_pos (by omega)]
  simp only [Option.some.injEq, Window.mk.injEq]
  omega

/-- Pixel (i, j) of a glyph's box, in raster order (R90). -/
theorem glyphPixelList_getElem? (rom : GlyphRom) (ch : Byte) (fg bg : Half) {s i j : Nat}
    (hi : i < 16 * s) (hj : j < 16 * s) :
    (glyphPixelList rom ch fg bg s)[j * (16 * s) + i]?
      = some (if (glyphRead rom ch (Fin.ofNat 16 (j / s))).getLsbD (15 - i / s) then fg else bg) := by
  have hlt : j * (16 * s) + i < 256 * s * s := by
    calc j * (16 * s) + i < (j + 1) * (16 * s) := by rw [Nat.add_mul, Nat.one_mul]; omega
      _ ≤ 16 * s * (16 * s) := Nat.mul_le_mul_right _ hj
      _ = 256 * s * s := by ring
  have hcol : (j * (16 * s) + i) % (16 * s) = i := by
    rw [Nat.mul_add_mod_self_right, Nat.mod_eq_of_lt hi]
  have hrow : (j * (16 * s) + i) / (16 * s) = j := by
    rw [Nat.add_comm, Nat.add_mul_div_right _ _ (by omega), Nat.div_eq_of_lt hi, Nat.zero_add]
  simp [glyphPixelList, List.getElem?_range hlt, glyphPixel, hcol, hrow]

/-- A glyph has one pixel for each cell of its window. -/
theorem glyphPixelList_length_eq_area {c : Config} {x y : Int} {s : Nat} {win : Window}
    (rom : GlyphRom) (ch : Byte) (fg bg : Half) (hs : 0 < s) (hwin : glyphWindow c x y s = some win) :
    (glyphPixelList rom ch fg bg s).length = win.area := by
  rw [glyphWindow_area hs hwin, glyphPixelList, List.length_map, List.length_range]

/-- DRAW_CHAR of a glyph that fits, on a healthy bus. -/
theorem exec_drawChar_window {s : State} {x y : Word} (ch : Byte) (fg bg : Half) {scale : Byte}
    {win : Window} (hdraw : CanDraw s) (hfits : s.cfg.panelFits) (hscale : scale ≠ 0)
    (hwin : glyphWindow s.cfg x.toInt y.toInt scale.toNat = some win) :
    exec (.drawChar ch x y fg bg scale) s = .next (sent s
      (paintEvents s.cfg (some win) fun _ => glyphPixelList s.cfg.glyphRom ch fg bg scale.toNat)
      (withWindow s.block win 0)) :=
  (drawCharResult s ch x y fg bg scale hscale hfits).1 hdraw win hwin

/-- Settles O58, by the one window DRAW_CHAR sends and the sink's run through it. -/
theorem drawCharPaintsExactlyItsGlyph : Obligations.DrawCharPaintsExactlyItsGlyph := by
  intro s ch x y fg bg scale hdraw htaken hf hst hcl hm hc hd hfits hscale hx hy hxs hys
  have ⟨hW, hH⟩ := hfits
  have hpos := scale_toNat_pos hscale
  have ex := toInt_eq_toNat_of_nonneg hx
  have ey := toInt_eq_toNat_of_nonneg hy
  have hwin : glyphWindow s.cfg x.toInt y.toInt scale.toNat = some
      ⟨x.toNat, y.toNat, x.toNat + 16 * scale.toNat - 1, y.toNat + 16 * scale.toNat - 1⟩ := by
    rw [ex, ey]
    exact glyphWindow_inside (by omega) (by omega) hpos
  have hw := glyphWindow_in hpos hwin
  have hlen := glyphPixelList_length_eq_area s.cfg.glyphRom ch fg bg hpos hwin
  refine ⟨_, _, _, exec_drawChar_window ch fg bg hdraw hfits hscale hwin,
    run_sent htaken (panelRun_paint hf hst hcl hm hc hd hfits hw hlen), rfl, rfl, hf, ?_, ?_⟩
  · intro i j hi hj
    have hxi := coord_toNat (n := x.toNat + i) (by omega)
    have hyj := coord_toNat (n := y.toNat + j) (by omega)
    refine (gramRead_window hfits hw hlen s.panel.gram _ _).trans ?_
    have hcol : x.toNat + i - x.toNat = i := by omega
    have hrow : y.toNat + j - y.toNat = j := by omega
    have hside : x.toNat + 16 * scale.toNat - 1 - x.toNat + 1 = 16 * scale.toNat := by omega
    rw [hxi, hyj, if_pos (by dsimp only; omega), hcol, hrow, hside]
    exact glyphPixelList_getElem? _ _ _ _ hi hj
  · intro px py hout
    exact (gramRead_window hfits hw hlen s.panel.gram px py).trans (if_neg (by dsimp only; omega))

end Sys2Proof.Machine

/-! PROOF of O19 and O59: INIT sends the whole of `INIT_SEQ` (R72), and the seven constraints on it (R71)
are what brings the panel up. -/

namespace Sys2Proof.Machine

/-! ## INIT -/

/-- INIT of a block that may emit: every step's events, then its own registers (R72). -/
theorem exec_init_of_canEmit {s : State} (h : CanEmit s) (hseq : s.cfg.initSeq ≠ []) :
    exec .init s = .next (sent s (s.cfg.initSeq.flatMap initStepEvents)
      { s.block with phase := .ready, winValid := false }) := by
  obtain ⟨hphase, hpend, hbus⟩ := h
  refine congrArg Host.Outcome.next ((prologue_run hphase).trans ((underrunCheck_closed hpend).trans ?_))
  exact commit_healthy (initSeq_events_ne_nil hseq) hbus

/-- Settles O19, by the events of each step of `INIT_SEQ`. -/
theorem initResult : Obligations.InitResult :=
  fun _ h hseq => exec_init_of_canEmit h hseq

/-! ## `INIT_SEQ` at the panel -/

/-- Two lists of events, run one after the other. -/
theorem panelRun_append_some {c : Config} {es fs : List BusEvent} {p q r : Panel}
    (hes : panelRun c es p = some q) (hfs : panelRun c fs q = some r) :
    panelRun c (es ++ fs) p = some r := by
  rw [panelRun_append, hes, Option.bind_some, hfs]

/-- A command frame without parameters, at a sink that is settled and has nothing in progress. -/
theorem panelRun_cmdFrame_nil {c : Config} {p : Panel} {b : Byte} {i : Instr} (hf : p.fault = .none)
    (hst : p.settle = none) (hcl : closingCheck p = none) (hdecode : decodeCommand c b = i)
    (hok : (panelEffect c i { p with cs := true }).fault = .none) :
    panelRun c (cmdFrame b []) p = some { panelEffect c i { p with cs := true } with cs := false } := by
  subst hdecode
  exact (panelRun_cmd _ hf hst hcl).trans (panelRun_cons [] hok rfl)

/-- A wait of the settling time at a sink that has just begun to settle (R99). -/
theorem panelRun_wait {c : Config} {p : Panel} {ms : Word} (hf : p.fault = .none)
    (hst : p.settle = some 0) (hms : c.settleMs ≤ ms.toNat) :
    panelRun c [.delay ms] p = some { p with settle := none } := by
  refine panelRun_cons [] hf ?_
  simp [panelEvent, delayEvent, hst, hms]

/-- The four steps `INIT_SEQ` begins with (R71, items 1 and 2). -/
def wakeSteps (c : Config) (w₁ w₂ : Word) : List InitStep :=
  [.command c.opSwreset [], .wait w₁, .command c.opSlpout [], .wait w₂]

/-- They leave a sink with nothing set, awake and settled (R103, R104). -/
def wokenPanel (p : Panel) : Panel :=
  { swresetEffect p with sleep := some false, settle := none, cs := false }

theorem quiet_wokenPanel {p : Panel} (hf : p.fault = .none) : Quiet (wokenPanel p) :=
  ⟨hf, rfl, rfl, .inl rfl⟩

theorem panelRun_wake {c : Config} {p : Panel} {w₁ w₂ : Word} (hd : c.namedDistinct)
    (hf : p.fault = .none) (hst : p.settle = none) (hcl : closingCheck p = none)
    (hw₁ : c.settleMs ≤ w₁.toNat) (hw₂ : c.settleMs ≤ w₂.toNat) :
    panelRun c ((wakeSteps c w₁ w₂).flatMap initStepEvents) p = some (wokenPanel p) := by
  obtain ⟨hswreset, hslpout, -⟩ := decodeCommand_named hd
  have hreset := panelRun_cmdFrame_nil hf hst hcl hswreset hf
  have hwait₁ := panelRun_wait (c := c) (p := { swresetEffect p with cs := false }) hf rfl hw₁
  have hwake := panelRun_cmdFrame_nil (c := c)
    (p := { swresetEffect p with settle := none, cs := false }) hf rfl rfl hslpout hf
  have hwait₂ := panelRun_wait (c := c)
    (p := { swresetEffect p with sleep := some false, settle := some 0, cs := false }) hf rfl hw₂
  exact panelRun_append_some hreset (panelRun_append_some hwait₁
    (panelRun_append_some hwake (panelRun_append_some hwait₂ rfl)))

/-- Settles O59, by the four first steps, then the modes and vendor commands, then DISPON. -/
theorem initBringsThePanelUp : Obligations.InitBringsThePanelUp := by
  intro s hemit htaken hf hst hcl hd hv _ hlegal
  obtain ⟨w₁, w₂, mid, hseq, hw₁, hw₂, htail, hmadctl, hcolmod, -⟩ := hlegal
  obtain ⟨-, -, hdispon, -⟩ := decodeCommand_named hd
  have hne : s.cfg.initSeq ≠ [] := by simp [hseq]
  have hwake := panelRun_wake hd hf hst hcl hw₁ hw₂
  obtain ⟨m, hm, hmid⟩ := panelRun_init_tail hd hv mid htail (wokenPanel s.panel) (quiet_wokenPanel hf)
  rw [if_pos hmadctl, if_pos hcolmod] at hmid
  have hquiet : Quiet { wokenPanel s.panel with
      mode := m, madctl := some s.cfg.madctlLandscape, colmod := some s.cfg.colmod16bpp } :=
    ⟨hf, rfl, rfl, hm⟩
  have ⟨hqf, hqst, _⟩ := hquiet
  have hon := panelRun_cmdFrame_nil (c := s.cfg) hqf hqst (closingCheck_quiet hquiet) hdispon hf
  have hevents : s.cfg.initSeq.flatMap initStepEvents
      = (wakeSteps s.cfg w₁ w₂).flatMap initStepEvents ++ mid.flatMap initStepEvents
        ++ cmdFrame s.cfg.opDispon [] := by
    rw [hseq, List.flatMap_append, List.flatMap_append, List.flatMap_singleton, initStepEvents, wakeSteps]
  have hrun := panelRun_append_some (panelRun_append_some hwake hmid) hon
  exact ⟨_, _, _, exec_init_of_canEmit hemit hne, run_sent htaken (hevents ▸ hrun),
    rfl, rfl, rfl, rfl⟩

end Sys2Proof.Machine

/-! PROOF of O4 to O8: what a step fetches, and what it does with a descriptor that does not decode. -/

namespace Sys2Proof

/-- Settles O4, by evaluating the decoder on each vector. -/
theorem writtenOutWordsDecode : Obligations.WrittenOutWordsDecode :=
  ⟨rfl, rfl, rfl, rfl, rfl, rfl, rfl⟩

/-! ## Descriptors delivered as bytes -/

/-- The bytes of a word by number: those of its high half, then those of its low half (R61). -/
theorem beBytes_halves (w : Word) :
    beBytes (w.toNat / 65536) ++ beBytes (w.toNat % 65536) = wordBytes w := by
  have hw := w.isLt
  simp only [beBytes, wordBytes, List.cons_append, List.nil_append, List.cons.injEq, and_true,
    ← BitVec.toNat_inj, BitVec.extractLsb'_toNat, BitVec.toNat_ofNat, Nat.shiftRight_eq_div_pow]
  omega

theorem wordsOfBytes_wordBytes_append (w : Word) (bs : List Byte) :
    wordsOfBytes (wordBytes w ++ bs) = (wordsOfBytes bs).map (w :: ·) := by
  simp only [wordBytes, List.cons_append, List.nil_append, wordsOfBytes, append_wordBytes]

theorem wordsOfBytes_flatMap_wordBytes (ws : List Word) :
    wordsOfBytes (ws.flatMap wordBytes) = some ws := by
  induction ws with
  | nil => rfl
  | cons w ws ih => rw [List.flatMap_cons, wordsOfBytes_wordBytes_append, ih, Option.map_some]

theorem decodeBytes_of_words {ws : List Word} {i : Instr} (h : decodeDescriptor ws = .ok i) :
    decodeBytes (ws.flatMap wordBytes) = .ok i := by
  simp only [decodeBytes, wordsOfBytes_flatMap_wordBytes, h]

/-- Bytes that end inside a word are no words (R42). -/
theorem wordsOfBytes_none {bs : List Byte} (h : bs.length % 4 ≠ 0) : wordsOfBytes bs = none := by
  rw [Option.eq_none_iff_forall_ne_some]
  intro ws hws
  apply h
  rw [← wordsOfBytes_some hws]
  simp [wordBytes]

/-- Bytes that give no whole descriptor do not decode: none at all, or some that end inside a word. -/
theorem decodeBytes_error {bs : List Byte} (h : bs = [] ∨ bs.length % 4 ≠ 0) :
    ∃ e, decodeBytes bs = .error e := by
  rcases h with rfl | hlen
  · exact ⟨_, rfl⟩
  · exact ⟨.wrongLength, by rw [decodeBytes, wordsOfBytes_none hlen]⟩

end Sys2Proof

namespace Sys2Proof.Machine

/-! ## What a step fetches -/

/-- Settles O5, by the input as words, or as the bytes of those words. -/
theorem stepRunsTheDecodedOperation : Obligations.StepRunsTheDecodedOperation := by
  intro s words i hturn hd hinput
  simp only [beBytes_halves] at hinput
  rcases hinput with hinput | hinput
  · rw [step_input hturn hinput, takeInput, hd]
    rfl
  · rw [step_input hturn hinput, takeInput, decodeBytes_of_words hd]
    rfl

/-- A sink that takes a command byte runs the command it is read as. -/
theorem step_command {s : State} {b : Byte} (hf : s.panel.fault = .none)
    (hnext : s.trace[s.taken]? = some (.cmd b)) :
    step s = exec (decodeCommand s.cfg b) (takeEvent s) :=
  step_event hf hnext

/-- Settles O6, by the sink's command byte. -/
theorem stepRunsTheDecodedCommand : Obligations.StepRunsTheDecodedCommand := by
  intro s b i hf hnext hd
  cases hd
  exact step_command hf hnext

theorem placeEvent_next (e : BusEvent) (s : State) :
    (placeEvent e s).trace[(placeEvent e s).taken]? = some e := by
  simp [placeEvent]

theorem placeOperation_hostTurn (words : List Word) (s : State) : HostTurn (placeOperation words s) :=
  .inr le_rfl

/-- Settles O7, by the row's kind: a command byte is the sink's next event, a descriptor the host's next
input. -/
theorem placedInstructionRunsNext : Obligations.PlacedInstructionRunsNext := by
  intro s nbits w i hd
  rw [State.withFetchWord]
  by_cases hbits : nbits ≤ 8
  · rw [tableCode, if_pos hbits] at hd ⊢
    rw [if_pos hbits]
    cases hd
    exact step_command rfl (placeEvent_next _ s)
  · rw [tableCode, if_neg hbits] at hd ⊢
    rw [if_neg hbits]
    have hdescriptor : decodeDescriptor _ = .ok i := hd
    refine (step_input (placeOperation_hostTurn _ s) (withNextInput_next _ s.host)).trans ?_
    rw [takeInput, hdescriptor]
    rfl

/-! ## A descriptor that does not decode -/

theorem extractLsb'_0_8_eq (h : Word) : h.extractLsb' 0 8 = BitVec.ofNat 8 (h.toNat % 256) := by
  apply BitVec.eq_of_toNat_eq
  rw [extractLsb'_0_8_toNat, BitVec.toNat_ofNat, Nat.mod_mod]

/-- The low byte of a word joined of four is the fourth. -/
theorem extractLsb'_0_8_append4 (a b c d : Byte) :
    BitVec.extractLsb' 0 8 (a ++ b ++ c ++ d : Word) = d := by
  have hbytes := wordBytes_append a b c d
  simp only [wordBytes, List.cons.injEq] at hbytes
  obtain ⟨-, -, -, hlow, -⟩ := hbytes
  exact hlow

/-- The tag an undecodable input is recorded under: its header's low byte, where it has a header (R16). -/
def inputTag (inp : HostInput) (s : State) : Byte :=
  match inp with
  | .operation ws => illegalTag ws.head? s
  | .operationBytes bs => illegalTag (headerOfBytes bs) s
  | _ => 0

/-- An input whose descriptor does not decode is `ILLEGAL_OP`, and the host's position moves on (R14,
R66). -/
theorem step_illegal {s : State} {inp : HostInput} (hturn : HostTurn s)
    (hinput : s.host.inputs[s.host.pos]? = some inp)
    (hbad : (∃ ws e, inp = .operation ws ∧ decodeDescriptor ws = .error e)
      ∨ ∃ bs e, inp = .operationBytes bs ∧ decodeBytes bs = .error e) :
    step s = .next (raiseIllegal (inputTag inp (advanceHost s)) (advanceHost s)) := by
  rw [step_input hturn hinput]
  rcases hbad with ⟨ws, e, rfl, hd⟩ | ⟨bs, e, rfl, hd⟩
  · rw [takeInput, hd]
    rfl
  · rw [takeInput, hd]
    rfl

/-- Settles O8, by the step that takes the input, and the bytes that are no descriptor. -/
theorem illegalDescriptorFaults : Obligations.IllegalDescriptorFaults := by
  refine ⟨?_, ⟨_, rfl⟩, fun bs => decodeBytes_error⟩
  intro s inp hturn hinput hbad moved
  rw [step_illegal hturn hinput hbad]
  constructor
  · intro hphase
    rw [raiseIllegal_faulted (s := advanceHost s) hphase]
    rfl
  · intro hphase hfault
    refine ⟨inputTag inp (advanceHost s), ?_, ?_, ?_⟩
    · rw [raiseIllegal_run (s := advanceHost s) hphase, raiseFault_of_none (s := advanceHost s) hfault]
      rfl
    · rintro h ws rfl
      exact extractLsb'_0_8_eq h
    · rintro a b c d rest rfl
      exact extractLsb'_0_8_append4 a b c d

end Sys2Proof.Machine

/-! PROOF of O9 and O42: the bus events besides command bytes, at the panel sink (R98 to R102). -/

namespace Sys2Proof.Machine

/-! ## Events at the sink -/

/-- A sink that has settled takes no notice of a delay (R99). -/
theorem delayEvent_settled {c : Config} {ms : Word} {p : Panel} (h : p.settle = none) :
    delayEvent c ms p = p := by
  simp only [delayEvent, h]

/-- A delay that leaves some of the settling time, or none of it; the sum is exact where it matters. -/
theorem delayEvent_settling {c : Config} {ms t : Word} {p : Panel} (h : p.settle = some t) :
    delayEvent c ms p = { p with
      settle := (if c.settleMs ≤ t.toNat + ms.toNat then none
        else some (BitVec.ofNat 32 (t.toNat + ms.toNat))) } := by
  have hsum : t + ms = BitVec.ofNat 32 (t.toNat + ms.toNat) := by
    apply BitVec.eq_of_toNat_eq
    rw [BitVec.toNat_add, BitVec.toNat_ofNat]
  simp only [delayEvent, h, ge_iff_le, hsum]
  split <;> rfl

/-- Settles O9, by the event in each case. -/
theorem chipSelectAndDelayEvents : Obligations.ChipSelectAndDelayEvents := by
  intro s hf
  refine ⟨fun hnext => step_event_ok hf hnext rfl, fun hnext => step_event_ok hf hnext rfl, ?_⟩
  intro ms hnext _
  refine step_event_ok hf hnext (congrArg Except.ok ?_)
  cases hsettle : s.panel.settle with
  | none =>
    exact (delayEvent_settled hsettle).trans (congrArg (fun v => { s.panel with settle := v }) hsettle)
  | some t => exact delayEvent_settling hsettle

/-- Settles O42, by the checks in their order. -/
theorem dataByteChecks : Obligations.DataByteChecks := by
  intro s d hf hnext after
  have hraise : ∀ {code : PanelFault},
      panelEvent s.cfg (.dat d) s.panel = .ok (raisePanel code s.panel) → step s = .next (after code) :=
    fun h => step_event_ok hf hnext (h.trans (congrArg Except.ok (raisePanel_of_none hf)))
  refine ⟨?_, ?_, ?_⟩
  · intro hcs
    exact hraise (by simp [panelEvent, dataByte, byteCheck, hcs])
  · intro hcs hsettle
    exact hraise (by simp [panelEvent, dataByte, byteCheck, hcs, Option.isSome_iff_ne_none.2 hsettle])
  · intro hcs hsettle
    have hpass : byteCheck s.panel = none := byteCheck_takes ⟨hf, hcs, hsettle⟩
    refine ⟨?_, ?_, ?_⟩
    · intro hm
      exact hraise (by simp only [panelEvent, dataByte, hpass, hm])
    · intro hm
      exact step_event_ok hf hnext (by simp only [panelEvent, dataByte, hpass, hm])
    · intro hm hhalf hremain
      exact hraise (by simp only [panelEvent, dataByte, hpass, hm, pixelByte, hhalf, if_pos hremain])

end Sys2Proof.Machine

/-! PROOF of O36, O37 and O41: every command byte is its checks, then its own effect (R101, R124). -/

namespace Sys2Proof.Machine

/-! ## Command bytes -/

/-- At a sink that accepts it a command has its own effect. -/
theorem exec_command_of_accepts {i : Instr} {s : State} (hi : i.isHostOp = false)
    (h : PanelAccepts s.panel) : exec i s = .next { s with panel := panelEffect s.cfg i s.panel } := by
  rw [exec_command s hi, panelCommand_run h.1 (commandCheck_accepts h)]

/-- Settles O36, by the effects of the three commands. -/
theorem parameterlessCommandResults : Obligations.ParameterlessCommandResults := fun _ h =>
  ⟨exec_command_of_accepts rfl h, exec_command_of_accepts rfl h, exec_command_of_accepts rfl h⟩

/-- Settles O37, by the effects of the six commands. -/
theorem openingCommandResults : Obligations.OpeningCommandResults := fun _ _ h =>
  ⟨exec_command_of_accepts rfl h, exec_command_of_accepts rfl h, exec_command_of_accepts rfl h,
    exec_command_of_accepts rfl h, exec_command_of_accepts rfl h, exec_command_of_accepts rfl h⟩

/-- A command byte that a check stops changes `P_FAULT` alone. -/
theorem exec_command_faulting {i : Instr} {s : State} {code : PanelFault} (hi : i.isHostOp = false)
    (hf : s.panel.fault = .none) (hcheck : commandCheck s.panel = some code) :
    exec i s = .next { s with panel := { s.panel with fault := code } } := by
  rw [exec_command s hi, panelCommand_faulting hf hcheck]

/-- Past the checks before any byte, what is left is the command it would cut off. -/
theorem commandCheck_settled {p : Panel} (hcs : p.cs = true) (hsettle : p.settle = none) :
    commandCheck p = closingCheck p := by
  simp [commandCheck, byteCheck, hcs, hsettle]

/-- A command that takes a fixed number of bytes is cut off wherever it stands (R101). -/
theorem closingCheck_params {p : Panel} {op : OpenCommand} {bytes : List Byte} {n : Nat}
    (hm : p.mode = .params op bytes) (hcount : paramCount op = some n) :
    closingCheck p = some .badParams := by
  cases op with
  | caset | raset | madctl | colmod => simp only [closingCheck, hm]
  | vendor _ => cases hcount

/-- Settles O41, by the check that stops the byte in each case. -/
theorem commandByteChecks : Obligations.CommandByteChecks := by
  intro s i hi hf
  refine ⟨?_, ?_, ?_⟩
  · intro hcs
    exact exec_command_faulting hi hf (by simp [commandCheck, byteCheck, hcs])
  · intro hcs hsettle
    exact exec_command_faulting hi hf
      (by simp [commandCheck, byteCheck, hcs, Option.isSome_iff_ne_none.2 hsettle])
  · intro hcs hsettle
    have hclosing := commandCheck_settled hcs hsettle
    refine ⟨?_, ?_, ?_⟩
    · intro op bytes n hm hcount
      exact exec_command_faulting hi hf (hclosing.trans (closingCheck_params hm hcount))
    · intro hm hhalf
      exact exec_command_faulting hi hf
        (hclosing.trans (by simp [closingCheck, hm, Option.isSome_iff_ne_none.2 hhalf]))
    · intro hm hhalf hremain
      exact exec_command_faulting hi hf (hclosing.trans (by simpa [closingCheck, hm, hhalf] using hremain))

end Sys2Proof.Machine

/-! PROOF of O10: the host's reads, each one step (R15, R16, R22, R116). -/

namespace Sys2Proof.Machine

/-! ## Host reads -/

theorem readResult_of_none {r : Option Word} (s : State) (h : r = none) :
    readResult r s = { s with host := { s.host with lastRead := none, fault := .resultUnwritten } } := by
  rw [h, readResult]

theorem readResult_of_some {r : Option Word} {v : Word} (s : State) (h : r = some v) :
    readResult r s = { s with host := { s.host with lastRead := some (.result v) } } := by
  rw [h, readResult]

/-- A read of a result register: its value, or the host-side fault where it has none (R22, R116). -/
theorem step_readResult {s : State} {inp : HostInput} {r : Option Word} (hturn : HostTurn s)
    (hinput : s.host.inputs[s.host.pos]? = some inp)
    (htake : takeInput inp (advanceHost s) = .next (readResult r (advanceHost s))) :
    (r = none → step s = .next { s with host :=
        { s.host with pos := s.host.pos + 1, lastRead := none, fault := .resultUnwritten } })
    ∧ ∀ v, r = some v → step s = .next { s with host :=
        { s.host with pos := s.host.pos + 1, lastRead := some (.result v) } } := by
  rw [step_input hturn hinput, htake]
  exact ⟨fun hnone => congrArg Host.Outcome.next (readResult_of_none (advanceHost s) hnone),
    fun v hv => congrArg Host.Outcome.next (readResult_of_some (advanceHost s) hv)⟩

/-- Settles O10, by the step that takes the read; the codes one by one. -/
theorem resultReadsGiveTheValueOrFault : Obligations.ResultReadsGiveTheValueOrFault := by
  intro s hturn
  refine ⟨fun hinput => step_readResult hturn hinput rfl, fun hinput => step_readResult hturn hinput rfl,
    ?_, ?_⟩
  · intro hinput
    refine ⟨phaseCode s.block.phase, blockFaultCode s.block.fault, step_input hturn hinput, ?_, ?_⟩
    · cases s.block.phase <;> decide
    · cases s.block.fault <;> decide
  · cases s.panel.fault <;> decide

end Sys2Proof.Machine

/-! PROOF of O12, O15, O16, O20 and O34: the faults an operation raises before any event (R119), and the
one operation that runs in `FAULTED` (R117). -/

namespace Sys2Proof.Machine

/-! ## BACKLIGHT and `FAULTED` -/

theorem exec_backlight (on : Bool) (s : State) :
    exec (.backlight on) s = .next { s with block := { s.block with bl := on } } := rfl

/-- Settles O12, by BACKLIGHT, and the gate of any other operation. -/
theorem faultedBlockObeysOnlyBacklight : Obligations.FaultedBlockObeysOnlyBacklight := by
  intro s i hp hi
  constructor
  · rintro on rfl
    exact exec_backlight on s
  · intro hbl
    exact exec_faulted hi hbl hp

/-- Settles O20, by either polarity of the line. -/
theorem backlightResult : Obligations.BacklightResult := by
  intro s on
  refine ⟨exec_backlight on s, ?_⟩
  rw [backlightLine]
  cases s.cfg.blActiveHigh <;> simp

/-! ## Faults before any event -/

/-- Settles O15, by SET_WINDOW's test, and PUSH_PIXELS's. -/
theorem badWindowsAndOverrunsFault : Obligations.BadWindowsAndOverrunsFault := by
  constructor
  · intro s x0 y0 x1 y1 hready hfault hpend hout
    have htest : ¬windowInPanel s.cfg x0.toInt y0.toInt x1.toInt y1.toInt = true := by
      simpa only [windowInPanel, Bool.and_eq_true, decide_eq_true_eq, and_assoc] using hout
    refine congrArg Host.Outcome.next ((drawing_gates_pass hready hpend).trans ?_)
    rw [setWindowBody, if_neg htest, raiseFault_of_none hfault]
    rfl
  · intro s pixels hready hfault hover
    refine congrArg Host.Outcome.next ((drawingPrologue_ready hready).trans ?_)
    rw [pushPixelsBody, if_pos hover, raiseFault_of_none hfault]
    rfl

/-- Settles O16, by the test of the scale behind each operation's gates. -/
theorem zeroScaleFaults : Obligations.ZeroScaleFaults := by
  constructor
  · intro s hphase hfault
    have hgate : ∀ (tag : Byte) (body : State → State),
        prologue (scaleCheck tag 0 body) s = stopped s .badScale tag := fun tag body => by
      rw [prologue_run hphase, scaleCheck_zero, raiseFault_of_none hfault]
    exact ⟨congrArg Host.Outcome.next (hgate _ _), fun _ => congrArg Host.Outcome.next (hgate _ _)⟩
  · intro s x y fg bg hready hfault hpend
    have hgate : ∀ (tag : Byte) (body : State → State),
        drawingPrologue tag (underrunCheck tag (scaleCheck tag 0 body)) s = stopped s .badScale tag :=
      fun tag body => by
        rw [drawing_gates_pass hready hpend, scaleCheck_zero, raiseFault_of_none hfault]
    exact ⟨fun _ => congrArg Host.Outcome.next (hgate _ _),
      fun _ => congrArg Host.Outcome.next (hgate _ _)⟩

/-- Settles O34, by the header's low byte as the tag. -/
theorem reservedDescriptorFaults : Obligations.ReservedDescriptorFaults := by
  intro s h ws hphase hfault
  rw [← extractLsb'_0_8_eq, ← raiseFault_of_none hfault, ← raiseIllegal_run hphase]
  rfl

end Sys2Proof.Machine

/-! PROOF of O50: the machine after reset, field by field, and the parameters it holds. -/

namespace Sys2Proof.Machine

/-! ## After reset -/

theorem traceInv_reset : TraceInv State.reset where
  taken := le_rfl
  framed := ⟨.outside, rfl, fun hne => absurd rfl hne⟩
  lines := rfl
  panelCs := ⟨.outside, rfl, fun hne => absurd rfl hne⟩
  noCs := nofun

theorem inv_reset : Inv State.reset where
  fits := by decide
  block := blockInv_reset _
  panel := panelInv_powerOn _
  trace := traceInv_reset

/-- Settles O50, by the reference `INIT_SEQ`, which is legal whatever its open values. -/
theorem resetMeetsInvariant : Obligations.ResetMeetsInvariant := by
  refine ⟨inv_reset, by decide, Config.vendorParameters_apart, by decide,
    Config.referenceInitSeq_legal (by decide) _ _ _ rfl, rfl, List.getLast?_concat⟩

end Sys2Proof.Machine

/-! PROOF of O60: the observation's tests, one for each condition of R115. -/

namespace Sys2Proof.Machine

/-! ## The observation -/

theorem runEnded_iff (s : State) :
    runEnded s = true ↔ s.host.inputs.length ≤ s.host.pos ∧ s.trace.length ≤ s.taken := by
  simp [runEnded]

/-- No memory write is short. -/
theorem panelStreamClosed_iff (p : Panel) :
    panelStreamClosed p = true ↔ (p.mode = .memWrite → p.remain = 0 ∧ p.half = none) := by
  simp [panelStreamClosed, imp_iff_not_or]

theorem hasImage_iff (s : State) :
    hasImage s = true ↔ s.host.inputs.length ≤ s.host.pos ∧ s.trace.length ≤ s.taken
      ∧ s.block.fault = .none ∧ s.panel.fault = .none ∧ s.panel.refused = false ∧ s.block.pend = 0
      ∧ (s.panel.mode = .memWrite → s.panel.remain = 0 ∧ s.panel.half = none) := by
  simp only [hasImage, Bool.and_eq_true, runEnded_iff, panelStreamClosed_iff, decide_eq_true_eq,
    Bool.not_eq_true', and_assoc]

theorem image_eq_gram_iff (s : State) : image s = some s.panel.gram ↔ hasImage s = true := by
  simp [image]

/-- Settles O60, by the conditions of an image, and of its being shown. -/
theorem imageExactlyWhenTheRunIsClean : Obligations.ImageExactlyWhenTheRunIsClean := by
  intro s
  refine ⟨(image_eq_gram_iff s).trans (hasImage_iff s), ?_⟩
  simp only [shown, Bool.and_eq_true, decide_eq_true_eq, image_eq_gram_iff, and_assoc]

end Sys2Proof.Machine
